-- ==== Sys2Proof/Word.lean ====
section
/-! DEFINITION. The word type of the SVN ISA and the index of a general register (spec/00_scope.md R10, R13, R15). -/

namespace Sys2Proof

/-- A word: `XLEN` = `ILEN` = `AWIDTH` = 32 bits (R10, R13). -/
abbrev Word := BitVec 32

/-- A register index: a 5-bit field, always in 0..31 (R31, R35, R128). -/
abbrev RegIdx := BitVec 5

end Sys2Proof
end

