-- ==== Sys2Proof/Machine/Flags.lean ====
section
/-! DEFINITION. The hardware has no status flags, condition codes or predicate registers (spec/10_state.md R42): no instruction
computes a flag. What takes their place are the ALU's comparison predicates, whose result is the word 1 or 0
(spec/41_alu.md R216). -/

namespace Sys2Proof.Machine

/-- The word 1 or 0 of a comparison (R216). -/
def predicate (b : Bool) : Word := if b then 1#32 else 0#32

/-- `ALU(EQ, a, b)`: bit patterns compared (R216). -/
def cmpEq (a b : Word) : Word := predicate (a == b)

/-- `ALU(NE, a, b)` (R216). -/
def cmpNe (a b : Word) : Word := predicate (a != b)

/-- `ALU(LT, a, b)`: signed (R216). -/
def cmpLt (a b : Word) : Word := predicate (decide (a.toInt < b.toInt))

/-- `ALU(GT, a, b)`: signed (R216). -/
def cmpGt (a b : Word) : Word := predicate (decide (b.toInt < a.toInt))

end Sys2Proof.Machine
end

