-- ==== Sys2Proof/Syntax.lean ====
section
/-! DEFINITION. The instructions of the SVN ISA as the decoder's records (spec/30_encoding.md R130, R133): one constructor per row
of spec/opcode_table.json. The operands are the fields R133 lists for the tag; an immediate is the sign-extended 32-bit value, a
jump target the zero-extended one (R125, R126). -/

namespace Sys2Proof

/-- The instructions in scope (R3). Operand order follows the assembler syntax of R137. -/
inductive Instr where
  /-- R230 -/
  | add (rd rs rt : RegIdx)
  /-- R231 -/
  | sub (rd rs rt : RegIdx)
  /-- R232 -/
  | mul (rd rs rt : RegIdx)
  /-- R233 -/
  | div (rd rs rt : RegIdx)
  /-- R250 -/
  | addi (rt rs : RegIdx) (imm : Word)
  /-- R251 -/
  | addiu (rt rs : RegIdx) (imm : Word)
  /-- R252 -/
  | slti (rt rs : RegIdx) (imm : Word)
  /-- R253 -/
  | lui (rt : RegIdx) (imm : Word)
  /-- R254 -/
  | li (rt : RegIdx) (imm : Word)
  /-- R271 -/
  | beq (rs rt : RegIdx) (imm : Word)
  /-- R272 -/
  | bne (rs rt : RegIdx) (imm : Word)
  /-- R273 -/
  | blt (rs rt : RegIdx) (imm : Word)
  /-- R274 -/
  | bgt (rs rt : RegIdx) (imm : Word)
  /-- R275 -/
  | j (target : Word)
  /-- R291 -/
  | lw (rt rs : RegIdx) (imm : Word)
  /-- R292 -/
  | sw (rt rs : RegIdx) (imm : Word)
  /-- R310 -/
  | printReg (rt : RegIdx)
  /-- R311 -/
  | printMem (rs : RegIdx) (imm : Word)
  /-- END, the sentinel (R314). -/
  | endOfProgram
  deriving DecidableEq, Repr

/-- What the decoder answers for a word (R129, R132): the record of an instruction, or the empty tag NOP, which has no fields and
no row in the opcode table (log 13). -/
inductive Decoded where
  | instr (i : Instr)
  | nop
  deriving DecidableEq, Repr

end Sys2Proof
end

