-- ==== Sys2Proof/WellFormed.lean ====
section
/-! DEFINITION. Which instruction terms are records the decoder can output (spec/30_encoding.md R125, R126, R133): a register
operand always is one (R35); an immediate must be the sign extension of 16 bits and a jump target fit in 26 bits. -/

namespace Sys2Proof

/-- The immediate is `sext_32` of its own low 16 bits (R125). -/
def immOk (imm : Word) : Bool :=
  (imm.extractLsb' 0 16).signExtend 32 == imm

/-- The target is in 0 .. 2^26-1 (R126). -/
def targetOk (target : Word) : Bool :=
  target.toNat < 2 ^ 26

/-- The operands of `i` are ones R133 gives its tag. -/
def wellFormed : Instr → Bool
  | .add _ _ _ => true
  | .sub _ _ _ => true
  | .mul _ _ _ => true
  | .div _ _ _ => true
  | .addi _ _ imm => immOk imm
  | .addiu _ _ imm => immOk imm
  | .slti _ _ imm => immOk imm
  | .lui _ imm => immOk imm
  | .li _ imm => immOk imm
  | .beq _ _ imm => immOk imm
  | .bne _ _ imm => immOk imm
  | .blt _ _ imm => immOk imm
  | .bgt _ _ imm => immOk imm
  | .j target => targetOk target
  | .lw _ _ imm => immOk imm
  | .sw _ _ imm => immOk imm
  | .printReg _ => true
  | .printMem _ imm => immOk imm
  | .endOfProgram => true

end Sys2Proof
end

