-- ==== Sys2Proof/Decode.lean ====
section
/-! DEFINITION. The decoder and the encoder (spec/30_encoding.md R121 to R135). Decoding is a total function of the word: it tests
the sentinel first, then the opcode, then for opcode 0 the function field; every other word is the empty tag NOP (R132). -/

namespace Sys2Proof

/-- The all-ones end-of-program word (R124). -/
def sentinel : Word := 0xFFFFFFFF#32

/-- `op = w[31:26]` (R15). -/
def opField (w : Word) : BitVec 6 := w.extractLsb' 26 6

/-- `rs = w[25:21]` (R15). -/
def rsField (w : Word) : RegIdx := w.extractLsb' 21 5

/-- `rt = w[20:16]` (R15). -/
def rtField (w : Word) : RegIdx := w.extractLsb' 16 5

/-- `rd = w[15:11]` (R15). -/
def rdField (w : Word) : RegIdx := w.extractLsb' 11 5

/-- `funct = w[5:0]` (R15). -/
def functField (w : Word) : BitVec 6 := w.extractLsb' 0 6

/-- `imm = sext_32(w[15:0])` (R15, R125). -/
def immField (w : Word) : Word := (w.extractLsb' 0 16).signExtend 32

/-- `zext_32(w[25:0])` (R126). -/
def targetField (w : Word) : Word := (w.extractLsb' 0 26).setWidth 32

/-- Register arithmetic: the tag selected by the function field when the opcode is zero (R121, R130). -/
def decodeRFormat (w : Word) : Decoded :=
  match (functField w).toNat with
  | 0x20 => .instr (.add (rdField w) (rsField w) (rtField w))
  | 0x22 => .instr (.sub (rdField w) (rsField w) (rtField w))
  | 0x18 => .instr (.mul (rdField w) (rsField w) (rtField w))
  | 0x1A => .instr (.div (rdField w) (rsField w) (rtField w))
  | _ => .nop

/-- The decoder (R130, R131): the sentinel, then the opcode map. -/
def decode (w : Word) : Decoded :=
  if w = sentinel then .instr .endOfProgram
  else
    match (opField w).toNat with
    | 0x00 => decodeRFormat w
    | 0x02 => .instr (.j (targetField w))
    | 0x04 => .instr (.beq (rsField w) (rtField w) (immField w))
    | 0x05 => .instr (.bne (rsField w) (rtField w) (immField w))
    | 0x06 => .instr (.blt (rsField w) (rtField w) (immField w))
    | 0x07 => .instr (.bgt (rsField w) (rtField w) (immField w))
    | 0x08 => .instr (.addi (rtField w) (rsField w) (immField w))
    | 0x09 => .instr (.addiu (rtField w) (rsField w) (immField w))
    | 0x0A => .instr (.slti (rtField w) (rsField w) (immField w))
    | 0x0F => .instr (.lui (rtField w) (immField w))
    | 0x18 => .instr (.li (rtField w) (immField w))
    | 0x19 => .instr (.printReg (rtField w))
    | 0x1A => .instr (.printMem (rsField w) (immField w))
    | 0x23 => .instr (.lw (rtField w) (rsField w) (immField w))
    | 0x2B => .instr (.sw (rtField w) (rsField w) (immField w))
    | _ => .nop

/-- The R format with `shamt` 0 (R121). -/
def encodeR (funct : BitVec 6) (rd rs rt : RegIdx) : Word :=
  0#6 ++ rs ++ rt ++ rd ++ 0#5 ++ funct

/-- The I format (R122): the low 16 bits of the immediate. -/
def encodeI (op : BitVec 6) (rs rt : RegIdx) (imm : Word) : Word :=
  op ++ rs ++ rt ++ imm.extractLsb' 0 16

/-- The J format (R123): the low 26 bits of the target. -/
def encodeJ (target : Word) : Word :=
  0x02#6 ++ target.extractLsb' 0 26

/-- The word of an instruction (R121 to R124, R131), with the ignored bits of R134 zero. -/
def encode : Instr → Word
  | .add rd rs rt => encodeR 0x20#6 rd rs rt
  | .sub rd rs rt => encodeR 0x22#6 rd rs rt
  | .mul rd rs rt => encodeR 0x18#6 rd rs rt
  | .div rd rs rt => encodeR 0x1A#6 rd rs rt
  | .addi rt rs imm => encodeI 0x08#6 rs rt imm
  | .addiu rt rs imm => encodeI 0x09#6 rs rt imm
  | .slti rt rs imm => encodeI 0x0A#6 rs rt imm
  | .lui rt imm => encodeI 0x0F#6 0#5 rt imm
  | .li rt imm => encodeI 0x18#6 0#5 rt imm
  | .beq rs rt imm => encodeI 0x04#6 rs rt imm
  | .bne rs rt imm => encodeI 0x05#6 rs rt imm
  | .blt rs rt imm => encodeI 0x06#6 rs rt imm
  | .bgt rs rt imm => encodeI 0x07#6 rs rt imm
  | .j target => encodeJ target
  | .lw rt rs imm => encodeI 0x23#6 rs rt imm
  | .sw rt rs imm => encodeI 0x2B#6 rs rt imm
  | .printReg rt => encodeI 0x19#6 0#5 rt 0#32
  | .printMem rs imm => encodeI 0x1A#6 rs 0#5 imm
  | .endOfProgram => sentinel

/-- The instruction the decoder reads from an instruction whose low `nbits` bits are those of `w` and whose other bits are zero.
Every instruction is one word at one address (R120), so no byte order is involved (R76). NOP is no row of the table (log 13). -/
def decodeTableWord (nbits w : Nat) : Option Instr :=
  match decode (BitVec.ofNat 32 (w % 2 ^ nbits)) with
  | .instr i => some i
  | .nop => none

end Sys2Proof
end

