-- ==== Sys2Proof/Config.lean ====
section
/-! DEFINITION. The shared configuration fixed at construction (spec/00_scope.md R10, spec/10_state.md R43). Every parameter the
spec leaves OPEN is a field, so that a claim over all states is a claim over all configurations. The spec leaves no value
undefined after which the machine goes on, so there is no free constant here. -/

namespace Sys2Proof

/-- `REPLACEMENT`: the policy the cache is constructed with (R10, R79, R88, R89). -/
inductive Replacement where
  | fifo
  | lru
  deriving DecidableEq, Repr

/-- The shared configuration (R10, R43). `POLLUTION_FRACTION` is the fraction `pollutionNum / pollutionDen` (R92). -/
structure Config where
  /-- `CACHE_CAPACITY`, K. -/
  cacheCapacity : Nat
  /-- `REPLACEMENT`. -/
  replacement : Replacement
  /-- `LIMIT`: the first address of the secondary tier. -/
  limit : Nat
  /-- `PRIMARY_SIZE`, in words. -/
  primarySize : Nat
  /-- `SECONDARY_SIZE`, in words. -/
  secondarySize : Nat
  /-- `PRINT_BLOCKING`. -/
  printBlocking : Bool
  /-- Numerator of `POLLUTION_FRACTION`. -/
  pollutionNum : Nat
  /-- Denominator of `POLLUTION_FRACTION`. -/
  pollutionDen : Nat
  deriving DecidableEq, Repr

/-- The constraints R10 puts on the parameters: K >= 1, `PRIMARY_SIZE` >= `LIMIT`, the fraction in 0 to 1. -/
abbrev Config.wf (c : Config) : Prop :=
  1 ≤ c.cacheCapacity ∧ c.limit ≤ c.primarySize ∧ 1 ≤ c.pollutionDen ∧ c.pollutionNum ≤ c.pollutionDen

/-- The configuration of the reset state. DESIGN CHOICE (log 5): the spec gives no values; these are those of the common start
state of spec/95_test_vectors.md, with one half for the fraction that file does not give. Unsafe: see the log. -/
def Config.initial : Config where
  cacheCapacity := 4
  replacement := .lru
  limit := 0x1000
  primarySize := 0x1000
  secondarySize := 0x1000
  printBlocking := false
  pollutionNum := 1
  pollutionDen := 2

end Sys2Proof
end

