-- ==== Sys2Proof/Machine/State.lean ====
section
/-! DEFINITION. The state of the machine as plain data (spec/10_state.md R30 to R53, spec/20_memory.md R72, R79,
spec/60_exceptions.md R349), the reasons a step can stop, and the state right after reset (R51, R360, R361). -/

namespace Sys2Proof.Machine

/-- What the core stops with. The record of a raise (R331) is one of these; a step of the core whose process holds one is this
fault. -/
inductive Fault where
  /-- Raised by DIV in EX when the divisor is zero (R332); records the dividend. Safe: the spec's own fault. -/
  | divideByZero (dividend : Word)
  /-- Raised by MemRead or MemWrite for a physical address whose index is outside its tier: by Fetch, the re-prime, LW, SW and
  PRINT_MEM (R73, R333); records the physical address. Safe: the spec's own fault. -/
  | memoryOutOfRange (address : Word)
  deriving DecidableEq, Repr

/-- What the model has no meaning for. Apart from the first, each is an action of an external agent that R352 says the agent
never takes (log 10); no instruction answers with one. -/
inductive Refusal where
  /-- An instruction without a meaning in `exec`; no arm uses it. Safe: it stops. -/
  | notModelled (mnemonic : String)
  /-- `switchCore` names a core the machine does not have (R349). Safe: it stops. -/
  | noSuchCore (k : Nat)
  /-- `handPcb` names a PCB no one holds (R351). Safe: it stops. -/
  | noSuchPcb (k : Nat)
  /-- `handPcb` of a PCB that is not Ready: Finished, Faulted or Blocked (R180, R352). Safe: it stops. -/
  | pcbNotReady (pid : Nat)
  /-- `handPcb` to, or `takePcb` from, a core whose turn still runs: turns do not nest and none is cancelled (R337, R338); or an
  invalidation while the active core's turn runs: it is requested between turns (R352, log 8). Safe: it stops. -/
  | turnInProgress
  /-- `takePcb` from a core that owns no PCB (R349). Safe: it stops. -/
  | noPcbHeld (core : Nat)
  /-- `takeRequest` of a request the queue does not hold (R312). Safe: it stops. -/
  | noSuchRequest (k : Nat)
  /-- `launch` with `QUANTUM` 0, which R10 rules out, or with a process id that some PCB bears already, be it a Finished one's: that
  is the model's choice, DESIGN CHOICE (log 25), since the spec does not say that ids are unique. Safe: it stops. -/
  | badLaunch (pid : Nat)
  /-- `loadWord` outside both tiers: a load-time failure, outside the block (R73, R363). Safe: it stops. -/
  | loadOutOfRange (address : Word)
  deriving DecidableEq, Repr

/-- The word cells of one tier: index and word (R71: an address names a 32-bit word, so the unit is the word, log 3). Indexes
strictly rise and no cell holds what an unlisted one reads as. -/
abbrev Memory := List (Nat × Word)

/-- What a word no one has written reads as. DESIGN CHOICE (log 4): launch contents are an input of the model (R100), that is,
the lists of the state a run starts from; a word not listed reads as zero. Unsafe for claims about the reset state only. -/
def Memory.unlisted : Word := 0#32

/-- The canonical form of a tier's cells. -/
abbrev Memory.wf (m : Memory) : Prop :=
  m.Pairwise (fun c d => c.1 < d.1) ∧ ∀ c ∈ m, c.2 ≠ Memory.unlisted

/-- A cache entry (R79); its address is its key in the entry map. `valid` is true of every entry present (log 18). -/
structure CacheEntry where
  data : Word
  valid : Bool
  dirty : Bool
  deriving DecidableEq, Repr

/-- The memory hierarchy all cores share (R50, R72, R79). `order` is the replacement bookkeeping: the addresses present, the next
victim first (R88, R89). -/
structure Hierarchy where
  cache : List (Nat × CacheEntry)
  order : List Nat
  primary : Memory
  secondary : Memory
  deriving DecidableEq, Repr

/-- An output request (R312). -/
structure Request where
  pid : Nat
  value : Word
  deriving DecidableEq, Repr

/-- What the `FD` latch holds (R45). -/
structure FdSlot where
  word : Word
  ipc : Word
  deriving DecidableEq, Repr

/-- What the `DE` latch holds (R45). -/
structure DeSlot where
  ipc : Word
  d : Decoded
  deriving DecidableEq, Repr

/-- What the `EM` latch holds: `ea` for LW, SW and PRINT_MEM, `sdata` for SW (R45). -/
structure EmSlot where
  ipc : Word
  d : Decoded
  ea : Option Word
  sdata : Option Word
  deriving DecidableEq, Repr

/-- What the `MW` latch holds: `ldata` for LW (R45); also PRINT_MEM's word between the two halves of its MEM stage (log 1). -/
structure MwSlot where
  ipc : Word
  d : Decoded
  ldata : Option Word
  deriving DecidableEq, Repr

/-- The per-process counters (R49), unbounded. -/
structure Counters where
  pipelineCycles : Nat
  instructions : Nat
  memReads : Nat
  memWrites : Nat
  memAccessesTotal : Nat
  cacheHits : Nat
  cacheMisses : Nat
  primaryAccesses : Nat
  secondaryAccesses : Nat
  memoryCycles : Nat
  deriving DecidableEq, Repr

/-- The status of a process as the block sees it (R53), with the fault record of R331. `ready` is the scheduler's; the block only
meets it on a PCB it is handed. -/
inductive ProcStatus where
  | ready
  | running
  | blocked
  | finished
  | faulted (record : Fault)
  deriving DecidableEq, Repr

/-- The PCB: everything a process carries from turn to turn (R30 a, R43, R44, R49, R331). -/
structure Pcb where
  pid : Nat
  base : Word
  quantum : Nat
  wCache : Nat
  wPrimary : Nat
  wSecondary : Nat
  regs : Vector Word 32
  pc : Word
  mar : Word
  ir : Word
  fd : Option FdSlot
  de : Option DeSlot
  em : Option EmSlot
  mw : Option MwSlot
  draining : Bool
  counters : Counters
  status : ProcStatus
  deriving DecidableEq, Repr

/-- The parts of a cycle, in the order they run (R161, R162, R177). `start` is the start-of-cycle test and count; `memEmit` is the
second half of MEM, in which PRINT_MEM raises its request; `check` is the end-of-cycle tests. One step of the machine performs
one of them (log 1). -/
inductive Stage where
  | start
  | wb
  | mem
  | memEmit
  | ex
  | id
  | fetch
  | check
  deriving DecidableEq, Repr

/-- How a core stands while no turn runs on it: the outcome of the turn that ended (the four of R175), its PCB still with the core;
or `idle`, no outcome of a turn: the core owns no PCB (R349). -/
inductive TurnOutcome where
  | blocked
  | quantumExpired
  | finished
  | faulted
  | idle
  deriving DecidableEq, Repr

/-- A core's state for one turn (R30 c, R48): the part of the cycle that comes next, `turn_cycles`, `block_pending`, and the
`outcome` while no turn runs; a core is busy when that is `none` (R349). -/
structure Turn where
  stage : Stage
  cycles : Nat
  blockPending : Bool
  outcome : Option TurnOutcome
  deriving DecidableEq, Repr

/-- A core (R349): its number, the PCB it owns, and its turn. A core that owns none is `idle` in `turn.outcome` and has `Pcb.absent`
here (log 12). -/
structure CoreCtx where
  id : Nat
  pcb : Pcb
  turn : Turn
  deriving DecidableEq, Repr

/-- What the world outside the active core does next (R352, R350): one event is one indivisible action (log 8). -/
inductive Event where
  /-- The active core performs its next part of a cycle. -/
  | run
  /-- The `k`-th of the other cores becomes the active one (R350). -/
  | switchCore (k : Nat)
  /-- The coordinator hands the `k`-th parked PCB to the active core for a turn (R175, R351). -/
  | handPcb (k : Nat)
  /-- The coordinator takes the PCB of the turn that has ended on the active core and routes it back (R175). -/
  | takePcb
  /-- The coordinator requests a full invalidate, between turns (R91, R352). -/
  | fullInvalidate
  /-- The coordinator requests a partial invalidate, between turns; `pick` is the free choice of the entries that leave (R92, log 11). -/
  | partialInvalidate (pick : List Nat)
  /-- The loader writes a word with MemWrite at a physical address (R99). -/
  | loadWord (address value : Word)
  /-- The loader creates the PCB of a process (R352, R361, R363). -/
  | launch (pid : Nat) (base : Word) (quantum wCache wPrimary wSecondary : Nat)
  /-- The I/O manager removes the `k`-th request of the queue (R312, R352). -/
  | takeRequest (k : Nat)
  /-- The I/O manager moves a Blocked process back to Ready (R179, R352). -/
  | unblock (pid : Nat)
  deriving DecidableEq, Repr

/-- The state of the machine. `coreId`, `pcb` and `turn` are those of the active core, which owns no PCB where `turn` is idle
(log 12); `others` are the other cores (R349); `parked` are the PCBs no core holds: the scheduler's ready ones, the blocked list and
the finished and faulted ones, told apart by their status (R175); `agenda` is what the outside brings next, oldest first (log 8). -/
structure State where
  config : Config
  hier : Hierarchy
  queue : List Request
  coreId : Nat
  pcb : Pcb
  turn : Turn
  others : List CoreCtx
  parked : List Pcb
  agenda : List Event
  deriving DecidableEq, Repr

/-- All counters zero (R51). -/
def Counters.zero : Counters where
  pipelineCycles := 0
  instructions := 0
  memReads := 0
  memWrites := 0
  memAccessesTotal := 0
  cacheHits := 0
  cacheMisses := 0
  primaryAccesses := 0
  secondaryAccesses := 0
  memoryCycles := 0

/-- The per-turn state at the start of a turn (R48, R51, R177). -/
def Turn.fresh : Turn where
  stage := .start
  cycles := 0
  blockPending := false
  outcome := none

/-- The per-turn state of a core that owns no PCB (R349). -/
def Turn.idle : Turn := { Turn.fresh with outcome := some .idle }

/-- A PCB as the loader creates it (R51, R361), with the fields the loader sets (R43). Its status Ready is the model's, DESIGN CHOICE
(log 6): R51 and R361 give none, and the scheduler's Ready is outside the block (R53). -/
def Pcb.created (pid : Nat) (base : Word) (quantum wCache wPrimary wSecondary : Nat) : Pcb where
  pid := pid
  base := base
  quantum := quantum
  wCache := wCache
  wPrimary := wPrimary
  wSecondary := wSecondary
  regs := Vector.replicate 32 0#32
  pc := 0#32
  mar := 0#32
  ir := 0#32
  fd := none
  de := none
  em := none
  mw := none
  draining := false
  counters := Counters.zero
  status := .ready

/-- What stands in the place of the PCB of a core that owns none (log 12): no process, and nothing reads it. -/
def Pcb.absent : Pcb := Pcb.created 0 0#32 1 0 0 0

/-- A core as constructed: it owns no PCB (R349). -/
def CoreCtx.idle (id : Nat) : CoreCtx where
  id := id
  pcb := Pcb.absent
  turn := Turn.idle

/-- The memory hierarchy as constructed (R360): no entry, empty bookkeeping, nothing listed in the tiers (log 4). -/
def Hierarchy.empty : Hierarchy where
  cache := []
  order := []
  primary := []
  secondary := []

/-- The machine right after reset: constructed hardware (R360), one core, one process at the start of its first turn (R361, R51).
DESIGN CHOICE for what the spec leaves to the loader and the configuration: log 5, 6, 12. Weights are R10's defaults. -/
def State.reset : State where
  config := Config.initial
  hier := Hierarchy.empty
  queue := []
  coreId := 0
  pcb := { Pcb.created 0 0#32 1000000 1 5 10 with status := .running }
  turn := Turn.fresh
  others := []
  parked := []
  agenda := []

end Sys2Proof.Machine
end

