-- ==== Sys2Proof/Machine/Ops.lean ====
section
/-! DEFINITION. The named operations over registers, memory and the pipeline that the meanings share: register access
(spec/10_state.md R31, R33), the memory hierarchy (spec/20_memory.md R72 to R92), raising a fault (spec/60_exceptions.md R331),
the redirect (spec/40_pipeline_sequencer.md R171), the output request (spec/46_output_and_end.md R313), and the passage of a slot
through the stages (R162). -/

namespace Sys2Proof.Machine

/-! ## Updates of one field -/

/-- Change the PCB of the process in hand. -/
def State.onPcb (f : Pcb → Pcb) (s : State) : State := { s with pcb := f s.pcb }

/-- Change the active core's turn. -/
def State.onTurn (f : Turn → Turn) (s : State) : State := { s with turn := f s.turn }

/-- Change the memory hierarchy. -/
def State.onHier (f : Hierarchy → Hierarchy) (s : State) : State := { s with hier := f s.hier }

/-- Go on to the part `g` of the cycle. -/
def State.toStage (g : Stage) (s : State) : State := s.onTurn (fun t => { t with stage := g })

/-- Change the counters of the process in hand. -/
def State.onCounters (f : Counters → Counters) (s : State) : State :=
  s.onPcb (fun p => { p with counters := f p.counters })

/-! ## General registers -/

/-- `x[i]` of a PCB (R14, R31). -/
def Pcb.reg (p : Pcb) (i : RegIdx) : Word := p.regs[i.toNat]'i.isLt

/-- `x[i] <- v` (R14); register 0 is written like any other (R33). -/
def Pcb.setReg (i : RegIdx) (v : Word) (p : Pcb) : Pcb := { p with regs := p.regs.set i.toNat v i.isLt }

/-- `x[i]` of the process in hand. -/
def State.reg (s : State) (i : RegIdx) : Word := s.pcb.reg i

/-- `x[i] <- v` for the process in hand. -/
def State.setReg (i : RegIdx) (v : Word) (s : State) : State := s.onPcb (Pcb.setReg i v)

/-! ## Lists of cells sorted by key: the tiers and the cache's entry map -/

/-- The cell at `a`, if one is listed. -/
def cellAt {α : Type} : List (Nat × α) → Nat → Option α
  | [], _ => none
  | (k, v) :: rest, a => if a = k then some v else cellAt rest a

/-- The list with the cell at `a` holding `v`, keys kept rising. -/
def putCell {α : Type} : List (Nat × α) → Nat → α → List (Nat × α)
  | [], a, v => [(a, v)]
  | (k, w) :: rest, a, v =>
    if a < k then (a, v) :: (k, w) :: rest
    else if a = k then (a, v) :: rest
    else (k, w) :: putCell rest a v

/-- The list without the cell at `a`. -/
def dropCell {α : Type} (l : List (Nat × α)) (a : Nat) : List (Nat × α) := l.filter (fun c => c.1 != a)

/-- The word at an index of a tier. -/
def Memory.read (m : Memory) (i : Nat) : Word := (cellAt m i).getD Memory.unlisted

/-- Write the word at an index of a tier, keeping the canonical form. -/
def Memory.write (m : Memory) (i : Nat) (v : Word) : Memory :=
  if v = Memory.unlisted then dropCell m i else putCell m i v

/-! ## Address map -/

/-- The two backing tiers (R72). -/
inductive Tier where
  | primary
  | secondary
  deriving DecidableEq, Repr

/-- Tier resolution (R72) with the range check of R73: the tier and index of a physical address, none when the index is outside
its array. -/
def resolve (c : Config) (a : Nat) : Option (Tier × Nat) :=
  if a < c.limit then
    if a < c.primarySize then some (.primary, a) else none
  else if a - c.limit < c.secondarySize then some (.secondary, a - c.limit)
  else none

/-- Relocation: `phys(a) = wrap(u(BASE) + u(a))` (R74). -/
def State.phys (s : State) (a : Word) : Word := s.pcb.base + a

/-- The word at an index of a tier. -/
def Hierarchy.tierRead (h : Hierarchy) : Tier → Nat → Word
  | .primary, i => h.primary.read i
  | .secondary, i => h.secondary.read i

/-- Write the word at an index of a tier. -/
def Hierarchy.tierWrite (t : Tier) (i : Nat) (v : Word) (h : Hierarchy) : Hierarchy :=
  match t with
  | .primary => { h with primary := h.primary.write i v }
  | .secondary => { h with secondary := h.secondary.write i v }

/-- The word a tier holds for a physical address, none out of range. -/
def Hierarchy.tierWord (c : Config) (h : Hierarchy) (a : Nat) : Option Word :=
  (resolve c a).map (fun ti => h.tierRead ti.1 ti.2)

/-! ## The cache (R79 to R89) -/

/-- The entry for an address, if it is in the cache. -/
def Hierarchy.entry (h : Hierarchy) (a : Nat) : Option CacheEntry := cellAt h.cache a

/-- The word a read of the physical address returns (R90): the entry's data, else the tier's word; none out of range. The model's
read of one word without any effect. -/
def Hierarchy.word (c : Config) (h : Hierarchy) (a : Nat) : Option Word :=
  (resolve c a).map (fun ti => match h.entry a with
    | some e => e.data
    | none => h.tierRead ti.1 ti.2)

/-- The word at a physical address as every core sees it (R90), none out of range. -/
def State.wordAt (s : State) (a : Word) : Option Word := s.hier.word s.config a.toNat

/-- The bookkeeping with `a` at its end: most recent (R88), last inserted (R89). -/
def orderToEnd (a : Nat) (o : List Nat) : List Nat := o.filter (fun b => b != a) ++ [a]

/-- `policy.touch(a)` (R88, R89): LRU moves `a` to the most-recent end, FIFO changes nothing. -/
def Hierarchy.touch (c : Config) (a : Nat) (h : Hierarchy) : Hierarchy :=
  match c.replacement with
  | .fifo => h
  | .lru => { h with order := orderToEnd a h.order }

/-- The write-back of a dirty entry to its tier; a clean one is not written (R85, R86). -/
def Hierarchy.writeBack (c : Config) (a : Nat) (h : Hierarchy) : Hierarchy :=
  match h.entry a, resolve c a with
  | some e, some (t, i) => if e.dirty then h.tierWrite t i e.data else h
  | _, _ => h

/-- An address leaves the cache and the bookkeeping, written back first if dirty (R82, R85, R86). -/
def Hierarchy.leave (c : Config) (a : Nat) (h : Hierarchy) : Hierarchy :=
  let w := h.writeBack c a
  { w with cache := dropCell w.cache a, order := w.order.filter (fun b => b != a) }

/-- The eviction of R82: in a full cache the victim leaves; without a victim nothing does (R87). -/
def Hierarchy.evict (c : Config) (h : Hierarchy) : Hierarchy :=
  if c.cacheCapacity ≤ h.cache.length then
    match h.order with
    | [] => h
    | victim :: _ => h.leave c victim
  else h

/-- `Insert(a, v)` (R82): evict if full, then place a clean entry and record it in the bookkeeping. -/
def Hierarchy.insert (c : Config) (a : Nat) (v : Word) (h : Hierarchy) : Hierarchy :=
  let w := h.evict c
  { w with
    cache := putCell w.cache a { data := v, valid := true, dirty := false }
    order := orderToEnd a w.order }

/-- `cache[a].data <- v; cache[a].dirty <- true; policy.touch(a)` (R84). -/
def Hierarchy.store (c : Config) (a : Nat) (v : Word) (h : Hierarchy) : Hierarchy :=
  { h with cache := putCell h.cache a { data := v, valid := true, dirty := true } }.touch c a

/-! ## Counters (R80, R84, R344, R345) -/

/-- A read begins: `mem_accesses_total += 1; mem_reads += 1`. -/
def Counters.countRead (k : Counters) : Counters :=
  { k with memAccessesTotal := k.memAccessesTotal + 1, memReads := k.memReads + 1 }

/-- A write begins: `mem_accesses_total += 1; mem_writes += 1`. -/
def Counters.countWrite (k : Counters) : Counters :=
  { k with memAccessesTotal := k.memAccessesTotal + 1, memWrites := k.memWrites + 1 }

/-- A hit: `cache_hits += 1; memory_cycles += W_CACHE`. -/
def Counters.countHit (weight : Nat) (k : Counters) : Counters :=
  { k with cacheHits := k.cacheHits + 1, memoryCycles := k.memoryCycles + weight }

/-- A miss filled from a tier: `cache_misses += 1`, the tier's count, and the tier's weight alone (R81). -/
def Counters.countMiss (t : Tier) (wPrimary wSecondary : Nat) (k : Counters) : Counters :=
  match t with
  | .primary =>
    { k with
      cacheMisses := k.cacheMisses + 1
      primaryAccesses := k.primaryAccesses + 1
      memoryCycles := k.memoryCycles + wPrimary }
  | .secondary =>
    { k with
      cacheMisses := k.cacheMisses + 1
      secondaryAccesses := k.secondaryAccesses + 1
      memoryCycles := k.memoryCycles + wSecondary }

/-! ## Memory accesses of the process in hand -/

/-- `MemRead(a)` (R80): the word and the state after it; none when the address is out of range, with nothing changed (R73). -/
def State.memRead (a : Word) (s : State) : Option (Word × State) :=
  match resolve s.config a.toNat with
  | none => none
  | some (t, i) =>
    match s.hier.entry a.toNat with
    | some e =>
      some (e.data, (s.onCounters (fun k => k.countRead.countHit s.pcb.wCache)).onHier (·.touch s.config a.toNat))
    | none =>
      let v := s.hier.tierRead t i
      some (v, (s.onCounters (fun k => k.countRead.countMiss t s.pcb.wPrimary s.pcb.wSecondary)).onHier
        (·.insert s.config a.toNat v))

/-- The write-allocate of R84: an address not in the cache is read first. -/
def State.allocate (a : Word) (s : State) : State :=
  match s.hier.entry a.toNat with
  | some _ => s
  | none =>
    match s.memRead a with
    | some (_, t) => t
    | none => s

/-- `MemWrite(a, v)` (R84); none when the address is out of range, with nothing changed (R73). -/
def State.memWrite (a v : Word) (s : State) : Option State :=
  match resolve s.config a.toNat with
  | none => none
  | some _ =>
    let t := (s.onCounters Counters.countWrite).allocate a
    some ((t.onCounters (·.countHit t.pcb.wCache)).onHier (·.store t.config a.toNat v))

/-! ## Invalidation (R91, R92) -/

/-- The addresses in the cache. -/
def Hierarchy.present (h : Hierarchy) : List Nat := h.cache.map (·.1)

/-- The addresses leave one after another. -/
def Hierarchy.leaveAll (c : Config) (as : List Nat) (h : Hierarchy) : Hierarchy :=
  as.foldl (fun g a => g.leave c a) h

/-- Full invalidate (R91): every entry leaves and the bookkeeping is cleared. -/
def Hierarchy.fullInvalidate (c : Config) (h : Hierarchy) : Hierarchy :=
  { h.leaveAll c h.present with order := [] }

/-- The `floor(f * E)` addresses a partial invalidate removes: the ones present that `pick` names come first, then the others, so that every set of that many entries is the answer for some `pick` (R92, log 11). -/
def Hierarchy.victims (c : Config) (pick : List Nat) (h : Hierarchy) : List Nat :=
  (h.present.filter (fun a => pick.contains a) ++ h.present.filter (fun a => !pick.contains a)).take
    (c.pollutionNum * h.cache.length / c.pollutionDen)

/-- Partial invalidate (R92). -/
def Hierarchy.partialInvalidate (c : Config) (pick : List Nat) (h : Hierarchy) : Hierarchy :=
  h.leaveAll c (h.victims c pick)

/-! ## The turn and its ends -/

/-- The turn ends with outcome `o` and leaves status `st` in the PCB; the per-turn state is discarded (R48, R53, R175). -/
def State.endTurn (o : TurnOutcome) (st : ProcStatus) (s : State) : State :=
  { s with
    pcb := { s.pcb with status := st }
    turn := { Turn.fresh with outcome := some o } }

/-- `raise f` (R331): the cycle and the turn end here with `Faulted` and the record in the PCB; everything written before stays.
This machine's whole way of taking an exception: there is no handler to go to (R330), no status saved and no return. -/
def State.raise (f : Fault) (s : State) : State := s.endTurn .faulted (.faulted f)

/-- A turn starts for the PCB in hand (R177). -/
def State.startTurn (s : State) : State :=
  { s with
    pcb := { s.pcb with status := .running }
    turn := Turn.fresh }

/-- `emit` (R312): the request goes to the tail of the shared queue. -/
def State.emit (q : Request) (s : State) : State := { s with queue := s.queue ++ [q] }

/-- `RaiseOutput(v)` (R313). -/
def State.raiseOutput (v : Word) (s : State) : State :=
  let e := s.emit { pid := s.pcb.pid, value := v }
  if s.config.printBlocking then e.onTurn (fun t => { t with blockPending := true }) else e

/-! ## What a stage's action answers -/

/-- EX: the slot goes on with the fields its tag needs, or a fault is raised at the state reached. -/
inductive ExResult where
  | done (ea sdata : Option Word) (s : State)
  | raised (f : Fault) (s : State)
  deriving DecidableEq, Repr

/-- MEM: the slot goes on with what was read, or a fault is raised at the state reached. -/
inductive MemResult where
  | done (ldata : Option Word) (s : State)
  | raised (f : Fault) (s : State)
  deriving DecidableEq, Repr

/-- The result of an ALU operation written to a register in EX (R166), or its fault with nothing written (R332). -/
def writeResult (rd : RegIdx) (r : Except Fault Word) (s : State) : ExResult :=
  match r with
  | .ok v => .done none none (s.setReg rd v)
  | .error f => .raised f s

/-- `Redirect(t)` (R171 to R173): pc, the discarded slot of `FD`, the cancelled drain, and the re-prime of `mar` and `ir` by a
counted read, which can raise. -/
def redirect (t : Word) (s : State) : ExResult :=
  let a := s.phys t
  let s' := s.onPcb (fun p => { p with pc := t, fd := none, draining := false, mar := a })
  match s'.memRead a with
  | none => .raised (.memoryOutOfRange a) s'
  | some (v, s'') => .done none none (s''.onPcb (fun p => { p with ir := v }))

/-! ## A slot's way through the stages (R162) -/

/-- The end of EX: the slot leaves `DE` for `EM`; a slot that raised is in no latch any more. -/
def endEx (slot : DeSlot) (d : Decoded) (r : ExResult) : State :=
  match r with
  | .done ea sdata s =>
    (s.onPcb (fun p => { p with de := none, em := some { ipc := slot.ipc, d := d, ea := ea, sdata := sdata } })).toStage .id
  | .raised f s => (s.onPcb (fun p => { p with de := none })).raise f

/-- The end of MEM's access: the slot leaves `EM` for `MW`; a slot that raised is in no latch any more. -/
def endMem (slot : EmSlot) (d : Decoded) (r : MemResult) : State :=
  match r with
  | .done ldata s =>
    (s.onPcb (fun p => { p with em := none, mw := some { ipc := slot.ipc, d := d, ldata := ldata } })).toStage .memEmit
  | .raised f s => (s.onPcb (fun p => { p with em := none })).raise f

/-- The end of WB: the slot retires and is counted (R164). -/
def retire (s : State) : State :=
  (s.onPcb (fun p => { p with mw := none, counters := { p.counters with instructions := p.counters.instructions + 1 } })).toStage .mem

/-- What an instruction does in the stages it has an action in; each default is 'nothing'. -/
structure Actions where
  ex : State → ExResult := fun s => .done none none s
  mem : EmSlot → State → MemResult := fun _ s => .done none s
  memEmit : MwSlot → State → State := fun _ s => s
  wb : MwSlot → State → State := fun _ s => s

/-- The record `d` performs the stage the machine is in, on the slot of that stage's latch (R162); an empty latch leaves the stage
with nothing to do. `start`, `id`, `fetch` and `check` are the machine's own parts of a cycle and hold no action of an instruction
that has passed Fetch: there the state stays as it is (log 16). -/
def perform (d : Decoded) (a : Actions) (s : State) : State :=
  match s.turn.stage with
  | .wb =>
    match s.pcb.mw with
    | none => s.toStage .mem
    | some slot => retire (a.wb slot s)
  | .mem =>
    match s.pcb.em with
    | none => s.toStage .memEmit
    | some slot => endMem slot d (a.mem slot s)
  | .memEmit =>
    match s.pcb.mw with
    | none => s.toStage .ex
    | some slot => (a.memEmit slot s).toStage .ex
  | .ex =>
    match s.pcb.de with
    | none => s.toStage .id
    | some slot => endEx slot d (a.ex s)
  | .start | .id | .fetch | .check => s

end Sys2Proof.Machine
end

