-- ==== Sys2Proof/Machine/Operands.lean ====
section
/-! DEFINITION. The operand forms (spec/30_encoding.md R125 to R128): registers, the sign-extended immediate as it stands, LUI's
immediate in the upper half, and the one memory operand `imm(rs)` (spec/45_load_store.md R290). -/

namespace Sys2Proof.Machine

/-- LUI's operand: `w[15:0] || 0x0000` (R127, R253). -/
def upperImmediate (imm : Word) : Word := imm.extractLsb' 0 16 ++ 0#16

/-- The effective process address of `imm(rs)`: `x[rs] + imm`, wrapping (R290). -/
def effectiveAddress (rs : RegIdx) (imm : Word) (s : State) : Word := s.reg rs + imm

end Sys2Proof.Machine
end

