-- ==== Sys2Proof/Machine/ControlTransfer.lean ====
section
/-! DEFINITION. Control transfer (spec/44_control_transfer.md R270 to R276): the target is the decoded field itself, an absolute
process address; a taken transfer performs the redirect in EX, a branch not taken changes nothing (R174). -/

namespace Sys2Proof.Machine

/-- A branch: taken when the comparison's result is 1 (R271 to R274). -/
def branchOn (result target : Word) (s : State) : ExResult :=
  if result = 1#32 then redirect target s else .done none none s

/-- BEQ (R271). -/
def execBeq (rs rt : RegIdx) (imm : Word) (s : State) : Host.Outcome State Fault Refusal :=
  .next (perform (.instr (.beq rs rt imm)) { ex := fun s => branchOn (cmpEq (s.reg rs) (s.reg rt)) imm s } s)

/-- BNE (R272). -/
def execBne (rs rt : RegIdx) (imm : Word) (s : State) : Host.Outcome State Fault Refusal :=
  .next (perform (.instr (.bne rs rt imm)) { ex := fun s => branchOn (cmpNe (s.reg rs) (s.reg rt)) imm s } s)

/-- BLT (R273). -/
def execBlt (rs rt : RegIdx) (imm : Word) (s : State) : Host.Outcome State Fault Refusal :=
  .next (perform (.instr (.blt rs rt imm)) { ex := fun s => branchOn (cmpLt (s.reg rs) (s.reg rt)) imm s } s)

/-- BGT (R274). -/
def execBgt (rs rt : RegIdx) (imm : Word) (s : State) : Host.Outcome State Fault Refusal :=
  .next (perform (.instr (.bgt rs rt imm)) { ex := fun s => branchOn (cmpGt (s.reg rs) (s.reg rt)) imm s } s)

/-- J (R275): always taken. -/
def execJ (target : Word) (s : State) : Host.Outcome State Fault Refusal :=
  .next (perform (.instr (.j target)) { ex := fun s => redirect target s } s)

end Sys2Proof.Machine
end

