-- ==== Sys2Proof/Machine/Alu.lean ====
section
/-! DEFINITION. The integer ALU (spec/41_alu.md R210 to R217): a function of a selector and two words read as signed integers.
Results are computed exactly and narrowed at the end. -/

namespace Sys2Proof.Machine

/-- The operation selector (R210). -/
inductive AluOp where
  | add
  | sub
  | mul
  | div
  | eq
  | ne
  | lt
  | gt
  deriving DecidableEq, Repr

/-- `wrap(n)`: the word whose unsigned value is `n mod 2^32` (R13). -/
def wrap (n : Int) : Word := BitVec.ofInt 32 n

/-- `ALU(DIV, a, b)` (R214): a zero divisor raises; the quotient is rounded toward zero, and `-2^31 / -1` wraps to 0x80000000. -/
def aluDiv (a b : Word) : Except Fault Word :=
  if b.toInt = 0 then .error (.divideByZero a)
  else if a.toInt = -2147483648 ∧ b.toInt = -1 then .ok 0x80000000#32
  else .ok (wrap (a.toInt.tdiv b.toInt))

/-- `ALU(sel, a, b)` (R210 to R216). -/
def alu (sel : AluOp) (a b : Word) : Except Fault Word :=
  match sel with
  | .add => .ok (wrap (a.toInt + b.toInt))
  | .sub => .ok (wrap (a.toInt - b.toInt))
  | .mul => .ok (wrap (a.toInt * b.toInt))
  | .div => aluDiv a b
  | .eq => .ok (cmpEq a b)
  | .ne => .ok (cmpNe a b)
  | .lt => .ok (cmpLt a b)
  | .gt => .ok (cmpGt a b)

end Sys2Proof.Machine
end

