-- ==== Sys2Proof/Machine/ImmediateArith.lean ====
section
/-! DEFINITION. Immediate arithmetic (spec/43_immediate_arith.md R250 to R255): the destination `rt` is written in EX; none of the
family can fault. -/

namespace Sys2Proof.Machine

/-- ADDI (R250): `x[rt] <- ALU(ADD, x[rs], imm)`; overflow wraps. -/
def execAddi (rt rs : RegIdx) (imm : Word) (s : State) : Host.Outcome State Fault Refusal :=
  .next (perform (.instr (.addi rt rs imm)) { ex := fun s => writeResult rt (alu .add (s.reg rs) imm) s } s)

/-- ADDIU (R251): `x[rt] <- ALU(ADD, x[rs], imm)`, the immediate sign-extended as for ADDI. -/
def execAddiu (rt rs : RegIdx) (imm : Word) (s : State) : Host.Outcome State Fault Refusal :=
  .next (perform (.instr (.addiu rt rs imm)) { ex := fun s => writeResult rt (alu .add (s.reg rs) imm) s } s)

/-- SLTI (R252): `x[rt] <- ALU(LT, x[rs], imm)`. -/
def execSlti (rt rs : RegIdx) (imm : Word) (s : State) : Host.Outcome State Fault Refusal :=
  .next (perform (.instr (.slti rt rs imm)) { ex := fun s => writeResult rt (alu .lt (s.reg rs) imm) s } s)

/-- LUI (R253): `x[rt] <- imm16 || 0x0000`; reads no register. -/
def execLui (rt : RegIdx) (imm : Word) (s : State) : Host.Outcome State Fault Refusal :=
  .next (perform (.instr (.lui rt imm)) { ex := fun s => .done none none (s.setReg rt (upperImmediate imm)) } s)

/-- LI (R254): `x[rt] <- imm`; reads no register. -/
def execLi (rt : RegIdx) (imm : Word) (s : State) : Host.Outcome State Fault Refusal :=
  .next (perform (.instr (.li rt imm)) { ex := fun s => .done none none (s.setReg rt imm) } s)

end Sys2Proof.Machine
end

