-- ==== Sys2Proof/Machine/LoadStore.lean ====
section
/-! DEFINITION. Loads and stores (spec/45_load_store.md R290 to R293): the effective address and the store data in EX, the access
in MEM, LW's register in WB. A slot without the address or the data its EX left there does not arise (log 15) and accesses
nothing. -/

namespace Sys2Proof.Machine

/-- LW in MEM: `s.ldata <- MemRead(phys(s.ea))`, or MemoryOutOfRange (R291). -/
def loadWord (slot : EmSlot) (s : State) : MemResult :=
  match slot.ea with
  | none => .done none s
  | some ea =>
    match s.memRead (s.phys ea) with
    | none => .raised (.memoryOutOfRange (s.phys ea)) s
    | some (v, t) => .done (some v) t

/-- SW in MEM: `MemWrite(phys(s.ea), s.sdata)`, or MemoryOutOfRange (R292). -/
def storeWord (slot : EmSlot) (s : State) : MemResult :=
  match slot.ea, slot.sdata with
  | some ea, some v =>
    match s.memWrite (s.phys ea) v with
    | none => .raised (.memoryOutOfRange (s.phys ea)) s
    | some t => .done none t
  | _, _ => .done none s

/-- LW in WB: `x[rt] <- s.ldata` (R164, R291). -/
def commitLoad (rt : RegIdx) (slot : MwSlot) (s : State) : State :=
  match slot.ldata with
  | none => s
  | some v => s.setReg rt v

/-- LW (R291). -/
def execLw (rt rs : RegIdx) (imm : Word) (s : State) : Host.Outcome State Fault Refusal :=
  .next (perform (.instr (.lw rt rs imm))
    { ex := fun s => .done (some (effectiveAddress rs imm s)) none s
      mem := loadWord
      wb := commitLoad rt } s)

/-- SW (R292). -/
def execSw (rt rs : RegIdx) (imm : Word) (s : State) : Host.Outcome State Fault Refusal :=
  .next (perform (.instr (.sw rt rs imm))
    { ex := fun s => .done (some (effectiveAddress rs imm s)) (some (s.reg rt)) s
      mem := storeWord } s)

end Sys2Proof.Machine
end

