-- ==== Sys2Proof/Machine/Output.lean ====
section
/-! DEFINITION. Output requests, the end of program and the empty tag (spec/46_output_and_end.md R310 to R315). -/

namespace Sys2Proof.Machine

/-- PRINT_MEM's second half of MEM: `RaiseOutput(v)` of the word read, which the slot then no longer carries (R311, log 1). -/
def emitLoaded (slot : MwSlot) (s : State) : State :=
  match slot.ldata with
  | none => s
  | some v => (s.raiseOutput v).onPcb (fun p => { p with mw := some { slot with ldata := none } })

/-- PRINT_REG (R310): `EX: RaiseOutput(x[rt])`. -/
def execPrintReg (rt : RegIdx) (s : State) : Host.Outcome State Fault Refusal :=
  .next (perform (.instr (.printReg rt)) { ex := fun s => .done none none (s.raiseOutput (s.reg rt)) } s)

/-- PRINT_MEM (R311): the address in EX, the read and the request in MEM; a read out of range raises before anything is
emitted. -/
def execPrintMem (rs : RegIdx) (imm : Word) (s : State) : Host.Outcome State Fault Refusal :=
  .next (perform (.instr (.printMem rs imm))
    { ex := fun s => .done (some (effectiveAddress rs imm s)) none s
      mem := loadWord
      memEmit := emitLoaded } s)

/-- END (R314, R168): recognised by Fetch, it starts the drain, leaves `pc` and puts nothing in `FD`. It never is in a later stage;
were it there it would do nothing (R169, log 17). -/
def execEndOfProgram (s : State) : Host.Outcome State Fault Refusal :=
  match s.turn.stage with
  | .fetch => .next ((s.onPcb (fun p => { p with draining := true })).toStage .check)
  | _ => .next (perform (.instr .endOfProgram) {} s)

/-- NOP, the empty tag (R315): nothing in EX, MEM and WB but the slot's passage and its count. -/
def execNop (s : State) : Host.Outcome State Fault Refusal :=
  .next (perform .nop {} s)

end Sys2Proof.Machine
end

