-- ==== Sys2Proof/Machine/RegisterArith.lean ====
section
/-! DEFINITION. Register arithmetic (spec/42_register_arith.md R230 to R234): both sources are read and the destination written in
EX; MEM and WB only pass the slot on. -/

namespace Sys2Proof.Machine

/-- ADD (R230): `x[rd] <- ALU(ADD, x[rs], x[rt])`. -/
def execAdd (rd rs rt : RegIdx) (s : State) : Host.Outcome State Fault Refusal :=
  .next (perform (.instr (.add rd rs rt)) { ex := fun s => writeResult rd (alu .add (s.reg rs) (s.reg rt)) s } s)

/-- SUB (R231): `x[rd] <- ALU(SUB, x[rs], x[rt])`. -/
def execSub (rd rs rt : RegIdx) (s : State) : Host.Outcome State Fault Refusal :=
  .next (perform (.instr (.sub rd rs rt)) { ex := fun s => writeResult rd (alu .sub (s.reg rs) (s.reg rt)) s } s)

/-- MUL (R232): `x[rd] <- ALU(MUL, x[rs], x[rt])`. -/
def execMul (rd rs rt : RegIdx) (s : State) : Host.Outcome State Fault Refusal :=
  .next (perform (.instr (.mul rd rs rt)) { ex := fun s => writeResult rd (alu .mul (s.reg rs) (s.reg rt)) s } s)

/-- DIV (R233): `x[rd] <- ALU(DIV, x[rs], x[rt])`; a zero divisor raises DivideByZero and `x[rd]` is not written (R332). -/
def execDiv (rd rs rt : RegIdx) (s : State) : Host.Outcome State Fault Refusal :=
  .next (perform (.instr (.div rd rs rt)) { ex := fun s => writeResult rd (alu .div (s.reg rs) (s.reg rt)) s } s)

end Sys2Proof.Machine
end

