-- ==== Sys2Proof/Machine/Dispatch.lean ====
section
/-! DEFINITION. One arm per instruction: `exec i s` is the instruction `i` performing, on the slot it occupies, the stage of the
cycle the machine is in (spec/40_pipeline_sequencer.md R162 to R168). -/

namespace Sys2Proof.Machine

def exec (i : Instr) (s : State) : Host.Outcome State Fault Refusal :=
  match i with
  | .add rd rs rt => Sys2Proof.Machine.execAdd rd rs rt s
  | .sub rd rs rt => Sys2Proof.Machine.execSub rd rs rt s
  | .mul rd rs rt => Sys2Proof.Machine.execMul rd rs rt s
  | .div rd rs rt => Sys2Proof.Machine.execDiv rd rs rt s
  | .addi rt rs imm => Sys2Proof.Machine.execAddi rt rs imm s
  | .addiu rt rs imm => Sys2Proof.Machine.execAddiu rt rs imm s
  | .slti rt rs imm => Sys2Proof.Machine.execSlti rt rs imm s
  | .lui rt imm => Sys2Proof.Machine.execLui rt imm s
  | .li rt imm => Sys2Proof.Machine.execLi rt imm s
  | .beq rs rt imm => Sys2Proof.Machine.execBeq rs rt imm s
  | .bne rs rt imm => Sys2Proof.Machine.execBne rs rt imm s
  | .blt rs rt imm => Sys2Proof.Machine.execBlt rs rt imm s
  | .bgt rs rt imm => Sys2Proof.Machine.execBgt rs rt imm s
  | .j target => Sys2Proof.Machine.execJ target s
  | .lw rt rs imm => Sys2Proof.Machine.execLw rt rs imm s
  | .sw rt rs imm => Sys2Proof.Machine.execSw rt rs imm s
  | .printReg rt => Sys2Proof.Machine.execPrintReg rt s
  | .printMem rs imm => Sys2Proof.Machine.execPrintMem rs imm s
  | .endOfProgram => Sys2Proof.Machine.execEndOfProgram s

end Sys2Proof.Machine
end

