-- ==== Sys2Proof/Machine/Sequencer.lean ====
section
/-! DEFINITION. The pipeline sequencer (spec/40_pipeline_sequencer.md R160 to R183): the parts of one cycle in their order, each a
step of its own (log 1), and what the core does when no turn runs (log 9). -/

namespace Sys2Proof.Machine

/-- The pipeline is empty when all four latches are (R46). -/
def Pcb.pipelineEmpty (p : Pcb) : Bool := p.fd.isNone && p.de.isNone && p.em.isNone && p.mw.isNone

/-- The drain is over: draining with an empty pipeline (R170). -/
def State.drained (s : State) : Bool := s.pcb.draining && s.pcb.pipelineEmpty

/-- The start of a cycle (R177): a process already drained finishes without a cycle, else the cycle is counted. -/
def beginCycle (s : State) : State :=
  if s.drained then s.endTurn .finished .finished
  else
    { s with
      pcb := { s.pcb with counters := { s.pcb.counters with pipelineCycles := s.pcb.counters.pipelineCycles + 1 } }
      turn := { s.turn with cycles := s.turn.cycles + 1, stage := .wb } }

/-- The record in a latch performs its stage: an instruction by `exec`, the empty tag by its own meaning. -/
def execDecoded (d : Decoded) (s : State) : Host.Outcome State Fault Refusal :=
  match d with
  | .instr i => exec i s
  | .nop => execNop s

/-- ID (R167): the word in `FD` is decoded into `DE`. -/
def decodeStage (s : State) : State :=
  match s.pcb.fd with
  | none => s.toStage .fetch
  | some slot =>
    (s.onPcb (fun p => { p with fd := none, de := some { ipc := slot.ipc, d := decode slot.word } })).toStage .fetch

/-- IF (R168), performed only while not draining: the sentinel goes to END's meaning, any other word enters `FD` and `pc`
advances by 4. -/
def fetchStage (s : State) : Host.Outcome State Fault Refusal :=
  if s.pcb.draining then .next (s.toStage .check)
  else
    let a := s.phys s.pcb.pc
    let s' := s.onPcb (fun p => { p with mar := a })
    match s'.memRead a with
    | none => .next (s'.raise (.memoryOutOfRange a))
    | some (w, t) =>
      let t' := t.onPcb (fun p => { p with ir := w })
      if w = sentinel then exec .endOfProgram t'
      else
        .next ((t'.onPcb (fun p => { p with fd := some { word := w, ipc := p.pc }, pc := p.pc + 4#32 })).toStage .check)

/-- The end-of-cycle tests, in their order (R177, R178): blocked, quantum expired, finished, else the next cycle. A process whose
quantum expired remains Running (R53). -/
def endCycle (s : State) : State :=
  if s.turn.blockPending then s.endTurn .blocked .blocked
  else if s.pcb.quantum ≤ s.turn.cycles then s.endTurn .quantumExpired .running
  else if s.drained then s.endTurn .finished .finished
  else s.toStage .start

/-- The next part of the running turn's cycle (R161, R162, R177). DEDUCED (log 23): MEM comes before EX, so an instruction that faults
in MEM leaves the next one in `DE`, as R162 and R335 have it by the decisions D11 and D32, whatever R336 says of an earlier EX. -/
def runStage (s : State) : Host.Outcome State Fault Refusal :=
  match s.turn.stage with
  | .start => .next (beginCycle s)
  | .wb =>
    match s.pcb.mw with
    | none => .next (s.toStage .mem)
    | some slot => execDecoded slot.d s
  | .mem =>
    match s.pcb.em with
    | none => .next (s.toStage .memEmit)
    | some slot => execDecoded slot.d s
  | .memEmit =>
    match s.pcb.mw with
    | none => .next (s.toStage .ex)
    | some slot => execDecoded slot.d s
  | .ex =>
    match s.pcb.de with
    | none => .next (s.toStage .id)
    | some slot => execDecoded slot.d s
  | .id => .next (decodeStage s)
  | .fetch => fetchStage s
  | .check => .next (endCycle s)

/-- What the active core does: while its turn runs, the next part of the cycle. When its turn is over: a Faulted process is the
fault recorded (R331); a process requeued or unblocked is handed back for its next turn; a Blocked or Finished one leaves the core
with nothing to do (R179, R180, log 9), and so does having no PCB (R348, R349). -/
def coreStep (s : State) : Host.Outcome State Fault Refusal :=
  match s.turn.outcome with
  | none => runStage s
  | some .idle => .next s
  | some _ =>
    match s.pcb.status with
    | .ready => .next s.startTurn
    | .running => .next s.startTurn
    | .blocked => .next s
    | .finished => .next s
    | .faulted f => .fault f

end Sys2Proof.Machine
end

