-- ==== Sys2Proof/Machine/Agents.lean ====
section
/-! DEFINITION. What the agents outside the active core do to the machine (spec/60_exceptions.md R350 to R352): the other cores'
turn to move, the coordinator, the loader and the I/O manager. Each event is one indivisible action (R77, R350). An action R352
says the agent never takes is refused by name (log 10). -/

namespace Sys2Proof.Machine

/-- The active core's context. -/
def State.core (s : State) : CoreCtx := { id := s.coreId, pcb := s.pcb, turn := s.turn }

/-- The `k`-th of the other cores becomes the active one; the one that was takes its place (R350). -/
def switchCore (k : Nat) (s : State) : Host.Outcome State Fault Refusal :=
  match s.others[k]? with
  | none => .refused (.noSuchCore k)
  | some c => .next { s with coreId := c.id, pcb := c.pcb, turn := c.turn, others := s.others.set k s.core }

/-- The PCB a core gives back: a process whose quantum expired is requeued as Ready (R53, R178). -/
def Pcb.givenBack (p : Pcb) : Pcb :=
  match p.status with
  | .running => { p with status := .ready }
  | _ => p

/-- The PCBs no core holds after the `k`-th of them is handed to the active core: the one the core still held comes in its place
(log 9). -/
def State.parkedAfterHand (k : Nat) (s : State) : List Pcb :=
  if s.turn.outcome = some .idle then s.parked.eraseIdx k else s.parked.set k s.pcb.givenBack

/-- The coordinator hands a Ready parked PCB to the active core, on which no turn runs; one that it still held is parked (R175,
R338, R351, log 9). -/
def handPcb (k : Nat) (s : State) : Host.Outcome State Fault Refusal :=
  match s.turn.outcome with
  | none => .refused .turnInProgress
  | some _ =>
    match s.parked[k]? with
    | none => .refused (.noSuchPcb k)
    | some p =>
      if p.status = .ready then
        .next { s with pcb := p, parked := s.parkedAfterHand k }.startTurn
      else .refused (.pcbNotReady p.pid)

/-- The coordinator takes the PCB of the turn that has ended and routes it back by its status: Ready to the scheduler, Blocked to the
blocked list, Finished and Faulted out of scheduling (R175, R179, R180). The core owns none then (R349). -/
def takePcb (s : State) : Host.Outcome State Fault Refusal :=
  match s.turn.outcome with
  | none => .refused .turnInProgress
  | some .idle => .refused (.noPcbHeld s.coreId)
  | some _ => .next { s with pcb := Pcb.absent, turn := Turn.idle, parked := s.parked ++ [s.pcb.givenBack] }

/-- The coordinator's invalidations, which it requests between turns (R91, R92, R352): on the active core none runs. That turns of
other cores may be running then is the model's reading, DESIGN CHOICE (log 8). -/
def invalidate (f : Hierarchy → Hierarchy) (s : State) : Host.Outcome State Fault Refusal :=
  match s.turn.outcome with
  | none => .refused .turnInProgress
  | some _ => .next (s.onHier f)

/-- The loader's MemWrite (R99): through the cache; no process's counters at launch show it (log 19). -/
def loaderWrite (a v : Word) (s : State) : Host.Outcome State Fault Refusal :=
  match s.memWrite a v with
  | none => .refused (.loadOutOfRange a)
  | some t => .next { t with pcb := s.pcb }

/-- The process id of the PCB a core owns, if it owns one. -/
def CoreCtx.pids (c : CoreCtx) : List Nat := if c.turn.outcome = some .idle then [] else [c.pcb.pid]

/-- The process ids of all PCBs. -/
def State.pids (s : State) : List Nat := s.core.pids ++ s.others.flatMap CoreCtx.pids ++ s.parked.map (·.pid)

/-- The numbers of all cores (R349); `N_CORES` is how many there are (log 12). -/
def State.coreIds (s : State) : List Nat := s.coreId :: s.others.map (·.id)

/-- The loader creates a PCB with the reset state (R352, R361, R363). `QUANTUM` is at least 1 (R10). That a process id in use, a
Finished process's among them, is refused is the model's choice, DESIGN CHOICE (log 25): the spec does not say that ids are unique. -/
def launchPcb (p : Pcb) (s : State) : Host.Outcome State Fault Refusal :=
  if p.quantum = 0 ∨ p.pid ∈ s.pids then .refused (.badLaunch p.pid)
  else .next { s with parked := s.parked ++ [p] }

/-- The I/O manager removes a request, in any order it likes (R312, R352). -/
def takeRequest (k : Nat) (s : State) : Host.Outcome State Fault Refusal :=
  if k < s.queue.length then .next { s with queue := s.queue.eraseIdx k } else .refused (.noSuchRequest k)

/-- The PCB after the I/O manager has moved the process `pid` from Blocked to Ready (R179). A PCB of another process, or one that is
not Blocked, stays as it is: that unblocking such a process does nothing is the model's choice, DESIGN CHOICE (log 24). -/
def Pcb.unblock (pid : Nat) (p : Pcb) : Pcb :=
  if p.pid = pid ∧ p.status = .blocked then { p with status := .ready } else p

/-- The I/O manager unblocks a process, wherever its PCB is (R179, R352); with no PCB of that id nothing changes (log 24). -/
def State.unblock (pid : Nat) (s : State) : State :=
  { s with
    pcb := s.pcb.unblock pid
    others := s.others.map (fun c => { c with pcb := c.pcb.unblock pid })
    parked := s.parked.map (·.unblock pid) }

/-- One event. -/
def performEvent (e : Event) (s : State) : Host.Outcome State Fault Refusal :=
  match e with
  | .run => coreStep s
  | .switchCore k => switchCore k s
  | .handPcb k => handPcb k s
  | .takePcb => takePcb s
  | .fullInvalidate => invalidate (·.fullInvalidate s.config) s
  | .partialInvalidate pick => invalidate (·.partialInvalidate s.config pick) s
  | .loadWord a v => loaderWrite a v s
  | .launch pid base quantum wCache wPrimary wSecondary =>
    launchPcb (Pcb.created pid base quantum wCache wPrimary wSecondary) s
  | .takeRequest k => takeRequest k s
  | .unblock pid => .next (s.unblock pid)

/-- The machine's next action: the first event of the agenda, or with an empty one the active core's own (log 8). -/
def nextAction (s : State) : Host.Outcome State Fault Refusal :=
  match s.agenda with
  | [] => coreStep s
  | e :: rest => performEvent e { s with agenda := rest }

end Sys2Proof.Machine
end

