-- ==== Sys2Proof/Machine/Placement.lean ====
section
/-! DEFINITION. Placing one instruction word so that the very next step runs it, for `State.withFetchWord` (log 7). In this pipeline
an instruction is fetched three steps and more before its EX (spec/40_pipeline_sequencer.md R162), so a word other than the sentinel
is placed where Fetch and Decode leave it, in `DE` at the EX stage; the sentinel is recognised by Fetch itself (R168, R169), so it
is placed in memory at `phys(pc)` at the Fetch stage. -/

namespace Sys2Proof.Machine

/-- The word stored at a physical address of the tiers, with no cache entry for it and no counter changed. -/
def Hierarchy.place (c : Config) (a : Nat) (w : Word) (h : Hierarchy) : Hierarchy :=
  match resolve c a with
  | none => h
  | some (t, i) =>
    { h.tierWrite t i w with cache := dropCell h.cache a, order := h.order.filter (fun b => b != a) }

/-- The word at `phys(pc)`, and the turn running at the part of the cycle that runs it next. -/
def placeWord (w : Word) (s : State) : State :=
  let m := s.onHier (·.place s.config (s.phys s.pcb.pc).toNat w)
  match decode w with
  | .instr .endOfProgram =>
    { m with
      pcb := { m.pcb with draining := false }
      turn := { m.turn with stage := .fetch, outcome := none }
      agenda := [] }
  | d =>
    { m with
      pcb := { m.pcb with de := some { ipc := m.pcb.pc, d := d } }
      turn := { m.turn with stage := .ex, outcome := none }
      agenda := [] }

end Sys2Proof.Machine
end

