-- ==== Sys2Proof/Machine/Step.lean ====
section
/-! DEFINITION. The step function, and where an instruction is put so that the very next step runs it (log 7). -/

namespace Sys2Proof.Machine

/-- One step: one indivisible action of the machine (log 1, log 8). -/
def step (s : State) : Host.Outcome State Fault Refusal := nextAction s

/-- `s` with the instruction whose low `nbits` bits are those of `w`, the others zero, placed so that the next step runs it. -/
def State.withFetchWord (s : State) (nbits w : Nat) : State := placeWord (BitVec.ofNat 32 (w % 2 ^ nbits)) s

end Sys2Proof.Machine
end

