-- ==== Sys2Proof/Safety.lean ====
section
/-! DEFINITION. The terms claims are made in: the invariants of a good state, which register and which word an in-flight
instruction is about to write, what a stage leaves alone, and when two states show a program the same values. -/

namespace Sys2Proof.Machine

/-! ## Invariants -/

/-- Canonical form of the shared memory: both tiers (no cell that reads as an unlisted one), and the entry map sorted by address
with one entry per address (R79). -/
abbrev Hierarchy.canonical (h : Hierarchy) : Prop :=
  h.primary.wf ∧ h.secondary.wf ∧ h.cache.Pairwise (fun x y => x.1 < y.1)

/-- The bookkeeping holds exactly the addresses present, each once, and there are at most K of them (R79, R88, R89). -/
abbrev Hierarchy.bookkept (c : Config) (h : Hierarchy) : Prop :=
  h.order.Nodup ∧ (∀ a ∈ h.order, a ∈ h.present) ∧ (∀ a ∈ h.present, a ∈ h.order) ∧ h.cache.length ≤ c.cacheCapacity

/-- Every entry is valid, its address is in range, and a clean one holds the word of its tier (R79, R84, R86). -/
abbrev Hierarchy.coherent (c : Config) (h : Hierarchy) : Prop :=
  ∀ x ∈ h.cache, x.2.valid = true ∧ (resolve c x.1).isSome = true ∧
    (x.2.dirty = false → h.tierWord c x.1 = some x.2.data)

/-- The invariant of the memory hierarchy. -/
abbrev Hierarchy.Inv (c : Config) (h : Hierarchy) : Prop :=
  c.wf ∧ h.canonical ∧ h.bookkept c ∧ h.coherent c

/-- The memory hierarchy of the machine is in a good state. -/
abbrev State.HierInv (s : State) : Prop := s.hier.Inv s.config

/-- The counter laws of R344 and R345 for one process. -/
abbrev Pcb.countersLawful (p : Pcb) : Prop :=
  p.counters.cacheHits + p.counters.cacheMisses = p.counters.memAccessesTotal ∧
  p.counters.memAccessesTotal = p.counters.memReads + p.counters.memWrites ∧
  p.counters.cacheMisses = p.counters.primaryAccesses + p.counters.secondaryAccesses ∧
  p.counters.memoryCycles = p.wCache * p.counters.cacheHits + p.wPrimary * p.counters.primaryAccesses +
    p.wSecondary * p.counters.secondaryAccesses

/-- A property of the PCB of every process, wherever it is. -/
abbrev State.everyPcb (P : Pcb → Prop) (s : State) : Prop :=
  P s.pcb ∧ (∀ c ∈ s.others, P c.pcb) ∧ ∀ p ∈ s.parked, P p

/-- The counter laws for every process (R344, R345). -/
abbrev State.CountersInv (s : State) : Prop := s.everyPcb Pcb.countersLawful

/-- A record in flight: a well-formed instruction other than END, or the empty tag (R133, R169). -/
def inFlight : Decoded → Bool
  | .instr i => wellFormed i && i != .endOfProgram
  | .nop => true

/-- `EM` carries what its record's tag needs (R45). -/
def EmSlot.fits (e : EmSlot) : Bool :=
  match e.d with
  | .instr (.lw _ _ _) => e.ea.isSome
  | .instr (.sw _ _ _) => e.ea.isSome && e.sdata.isSome
  | .instr (.printMem _ _) => e.ea.isSome
  | _ => true

/-- `MW` carries what its record's tag needs (R45). -/
def MwSlot.fits (m : MwSlot) : Bool :=
  match m.d with
  | .instr (.lw _ _ _) => m.ldata.isSome
  | _ => true

/-- The latches of a process hold what R45 says: no sentinel, no END, and the fields the tags need. -/
abbrev Pcb.latchesOk (p : Pcb) : Prop :=
  (∀ f ∈ p.fd, f.word ≠ sentinel) ∧
  (∀ d ∈ p.de, inFlight d.d = true) ∧
  (∀ e ∈ p.em, inFlight e.d = true ∧ e.fits = true) ∧
  (∀ m ∈ p.mw, inFlight m.d = true ∧ m.fits = true)

/-- The latches of every process (R45, R169). -/
abbrev State.LatchInv (s : State) : Prop := s.everyPcb Pcb.latchesOk

/-- The status a PCB can have beside a turn's outcome (R53, R179, R331). -/
def statusFits : Option TurnOutcome → ProcStatus → Bool
  | none, .running => true
  | some .blocked, .blocked => true
  | some .blocked, .ready => true
  | some .quantumExpired, .running => true
  | some .finished, .finished => true
  | some .faulted, .faulted _ => true
  | some .idle, .ready => true
  | _, _ => false

/-- A core's turn (R48, R176): while it runs the cycle in progress is within the quantum and a new one starts only below it; once
it has ended, the per-turn state is discarded; a core that owns no PCB has none in its place (R349). -/
abbrev turnOk (p : Pcb) (t : Turn) : Prop :=
  1 ≤ p.quantum ∧ statusFits t.outcome p.status = true ∧
  (t.outcome = none → if t.stage = .start then t.cycles < p.quantum else t.cycles ≤ p.quantum) ∧
  (t.outcome ≠ none → t.stage = .start ∧ t.cycles = 0 ∧ t.blockPending = false) ∧
  (t.outcome = some .idle → p = Pcb.absent)

/-- Every core's turn is within its quantum, and a PCB no core holds is not Running (R176, R351). -/
abbrev State.TurnInv (s : State) : Prop :=
  turnOk s.pcb s.turn ∧ (∀ c ∈ s.others, turnOk c.pcb c.turn) ∧
  ∀ p ∈ s.parked, 1 ≤ p.quantum ∧ p.status ≠ .running

/-- The cores are numbered 0 to `N_CORES` - 1, each with a number of its own (R349). -/
abbrev State.CoresInv (s : State) : Prop := s.coreIds.Nodup ∧ ∀ i ∈ s.coreIds, i < s.coreIds.length

/-! ## What an instruction in flight is about to write -/

/-- The general register a record writes in EX (R34, R166). -/
def exDestination : Decoded → Option RegIdx
  | .instr (.add rd _ _) => some rd
  | .instr (.sub rd _ _) => some rd
  | .instr (.mul rd _ _) => some rd
  | .instr (.div rd _ _) => some rd
  | .instr (.addi rt _ _) => some rt
  | .instr (.addiu rt _ _) => some rt
  | .instr (.slti rt _ _) => some rt
  | .instr (.lui rt _) => some rt
  | .instr (.li rt _) => some rt
  | _ => none

/-- The general register a record writes in WB: a load's (R34, R164). -/
def wbDestination : Decoded → Option RegIdx
  | .instr (.lw rt _ _) => some rt
  | _ => none

/-- The general register the next step of the running turn may write. -/
def State.registerAtStake (s : State) : Option RegIdx :=
  match s.turn.outcome, s.turn.stage with
  | none, .ex => s.pcb.de.bind (fun slot => exDestination slot.d)
  | none, .wb => s.pcb.mw.bind (fun slot => wbDestination slot.d)
  | _, _ => none

/-- The process address and the word a slot stores in MEM: SW's (R292). -/
def EmSlot.stores (e : EmSlot) : Option (Word × Word) :=
  match e.d, e.ea, e.sdata with
  | .instr (.sw _ _ _), some ea, some v => some (ea, v)
  | _, _, _ => none

/-- The physical address and the word the next step of the running turn stores (R292). -/
def State.storeAtStake (s : State) : Option (Word × Word) :=
  match s.turn.outcome, s.turn.stage with
  | none, .mem => (s.pcb.em.bind EmSlot.stores).map (fun x => (s.phys x.1, x.2))
  | _, _ => none

/-- The part of the cycle after a given one (R161, R177). -/
def Stage.following : Stage → Stage
  | .start => .wb
  | .wb => .mem
  | .mem => .memEmit
  | .memEmit => .ex
  | .ex => .id
  | .id => .fetch
  | .fetch => .check
  | .check => .start

/-! ## What a stage leaves alone -/

/-- Unchanged: the configuration, the other cores and PCBs, the agenda, the turn's cycle count and outcome, and of the process in
hand its id, the fields the loader set and its status. -/
abbrev sameOutside (s t : State) : Prop :=
  t.config = s.config ∧ t.coreId = s.coreId ∧ t.others = s.others ∧ t.parked = s.parked ∧ t.agenda = s.agenda ∧
  t.turn.cycles = s.turn.cycles ∧ t.turn.outcome = s.turn.outcome ∧
  t.pcb.pid = s.pcb.pid ∧ t.pcb.base = s.pcb.base ∧ t.pcb.quantum = s.pcb.quantum ∧
  t.pcb.wCache = s.pcb.wCache ∧ t.pcb.wPrimary = s.pcb.wPrimary ∧ t.pcb.wSecondary = s.pcb.wSecondary ∧
  t.pcb.status = s.pcb.status

/-- `pc`, `mar`, `ir`, `FD` and the drain are unchanged: what only Fetch, Decode and a redirect write (R37, R38, R40, R41). -/
abbrev sameFetch (s t : State) : Prop :=
  t.pcb.pc = s.pcb.pc ∧ t.pcb.mar = s.pcb.mar ∧ t.pcb.ir = s.pcb.ir ∧ t.pcb.fd = s.pcb.fd ∧
  t.pcb.draining = s.pcb.draining

/-- Every word of memory reads as before. -/
abbrev sameMemory (s t : State) : Prop := ∀ a : Word, t.wordAt a = s.wordAt a

/-- The passage of a slot from `DE` to `EM` in EX, with the fields its tag needs (R162). -/
abbrev passedEx (slot : DeSlot) (i : Instr) (ea sdata : Option Word) (s t : State) : Prop :=
  t.pcb.de = none ∧ t.pcb.em = some { ipc := slot.ipc, d := .instr i, ea := ea, sdata := sdata } ∧
  t.pcb.mw = s.pcb.mw ∧ t.turn.stage = .id

/-- The passage of a slot from `EM` to `MW` in MEM (R162). -/
abbrev passedMem (slot : EmSlot) (i : Instr) (ldata : Option Word) (s t : State) : Prop :=
  t.pcb.em = none ∧ t.pcb.mw = some { ipc := slot.ipc, d := .instr i, ldata := ldata } ∧
  t.pcb.de = s.pcb.de ∧ t.turn.stage = .memEmit

/-- The retirement of a slot from `MW` in WB, counted (R162, R164). -/
abbrev passedWb (s t : State) : Prop :=
  t.pcb.mw = none ∧ t.pcb.de = s.pcb.de ∧ t.pcb.em = s.pcb.em ∧ t.turn.stage = .mem ∧
  t.pcb.counters = { s.pcb.counters with instructions := s.pcb.counters.instructions + 1 }

/-- What an instruction that works on registers alone leaves alone in EX: all but its destination register and the passage of its
slot. -/
abbrev registerFrame (rd : RegIdx) (s t : State) : Prop :=
  (∀ r, r ≠ rd → t.reg r = s.reg r) ∧ sameOutside s t ∧ sameFetch s t ∧ sameMemory s t ∧ t.hier = s.hier ∧
  t.queue = s.queue ∧ t.pcb.counters = s.pcb.counters ∧ t.turn.blockPending = s.turn.blockPending

/-- What a stage that writes no register and makes no memory access leaves alone: all but the passage of its slot. -/
abbrev quietFrame (s t : State) : Prop :=
  (∀ r, t.reg r = s.reg r) ∧ sameOutside s t ∧ sameFetch s t ∧ sameMemory s t ∧ t.hier = s.hier ∧
  t.queue = s.queue ∧ t.pcb.counters = s.pcb.counters ∧ t.turn.blockPending = s.turn.blockPending

/-- A slot retires with no other effect than being counted (R164). -/
abbrev retiredQuietly (s t : State) : Prop :=
  (∀ r, t.reg r = s.reg r) ∧ sameOutside s t ∧ sameFetch s t ∧ sameMemory s t ∧ t.hier = s.hier ∧ t.queue = s.queue ∧
  t.turn.blockPending = s.turn.blockPending ∧ passedWb s t

/-- What a raise leaves (R331): the record in the PCB, the turn over with Faulted, its per-turn state discarded; registers, queue
and every word of memory as they were at the raise, and nothing outside the process changed. -/
abbrev faultedWith (f : Fault) (s t : State) : Prop :=
  t.pcb.status = .faulted f ∧ t.turn.outcome = some .faulted ∧ t.turn.cycles = 0 ∧ t.turn.blockPending = false ∧
  (∀ r, t.reg r = s.reg r) ∧ sameMemory s t ∧ t.hier = s.hier ∧ t.queue = s.queue ∧ t.pcb.counters = s.pcb.counters ∧
  t.config = s.config ∧ t.coreId = s.coreId ∧ t.others = s.others ∧ t.parked = s.parked ∧ t.agenda = s.agenda

/-- From `s` to `t` the hierarchy and the counters change as by the one `MemRead(a)`, which answers `v` (R80). -/
abbrev readsBy (a v : Word) (s t : State) : Prop :=
  ∃ u, s.memRead a = some (v, u) ∧ t.hier = u.hier ∧ t.pcb.counters = u.pcb.counters

/-- From `s` to `t` the hierarchy and the counters change as by the one `MemWrite(a, v)` (R84). -/
abbrev writesBy (a v : Word) (s t : State) : Prop :=
  ∃ u, s.memWrite a v = some u ∧ t.hier = u.hier ∧ t.pcb.counters = u.pcb.counters

/-- What a taken transfer to `target` does (R171, R172), but for the passage of its slot: `pc`, the discarded `FD`, the cancelled
drain, `mar` and the re-primed `ir`; the one MemRead of its address; nothing else. -/
abbrev redirectedTo (target : Word) (s t : State) : Prop :=
  t.pcb.pc = target ∧ t.pcb.fd = none ∧ t.pcb.draining = false ∧ t.pcb.mar = s.phys target ∧
  s.wordAt (s.phys target) = some t.pcb.ir ∧
  (∀ r, t.reg r = s.reg r) ∧ sameOutside s t ∧ sameMemory s t ∧ t.queue = s.queue ∧
  t.turn.blockPending = s.turn.blockPending ∧
  t.pcb.counters.memReads = s.pcb.counters.memReads + 1 ∧ t.pcb.counters.memWrites = s.pcb.counters.memWrites ∧
  t.pcb.counters.instructions = s.pcb.counters.instructions ∧
  t.pcb.counters.pipelineCycles = s.pcb.counters.pipelineCycles ∧
  readsBy (s.phys target) t.pcb.ir s t

/-- What a taken transfer in EX does (R171, R172, R276): with its target in range the redirect and the passage of its slot; out of
range MemoryOutOfRange, raised after `pc`, `FD`, the drain and `mar` were written (R331, R333), the slot in no latch any more. -/
abbrev transferred (slot : DeSlot) (i : Instr) (target : Word) (s t : State) : Prop :=
  if s.wordAt (s.phys target) ≠ none then redirectedTo target s t ∧ passedEx slot i none none s t
  else
    faultedWith (.memoryOutOfRange (s.phys target)) s t ∧ t.pcb.pc = target ∧ t.pcb.fd = none ∧ t.pcb.draining = false ∧
    t.pcb.mar = s.phys target ∧ t.pcb.ir = s.pcb.ir ∧ t.pcb.de = none ∧ t.pcb.em = s.pcb.em ∧ t.pcb.mw = s.pcb.mw

/-- What a memory access of the MEM stage leaves alone beside the memory itself: every register, what Fetch writes, the queue, the
pending flag and everything outside the process. -/
abbrev accessFrame (s t : State) : Prop :=
  (∀ r, t.reg r = s.reg r) ∧ sameOutside s t ∧ sameFetch s t ∧ t.queue = s.queue ∧
  t.turn.blockPending = s.turn.blockPending ∧
  t.pcb.counters.instructions = s.pcb.counters.instructions ∧
  t.pcb.counters.pipelineCycles = s.pcb.counters.pipelineCycles

/-- What raising an output request of the word `v` does (R313), but for the passage of its slot: the request at the queue's tail and,
when output blocks, the pending flag; nothing else. -/
abbrev requested (v : Word) (s t : State) : Prop :=
  t.queue = s.queue ++ [{ pid := s.pcb.pid, value := v }] ∧
  t.turn.blockPending = (s.turn.blockPending || s.config.printBlocking) ∧
  (∀ r, t.reg r = s.reg r) ∧ sameOutside s t ∧ sameFetch s t ∧ sameMemory s t ∧ t.hier = s.hier ∧
  t.pcb.counters = s.pcb.counters

/-- What the step from `s` to `t` that performs EX of the record in `slot` shows when the record's source registers hold the values
`x` gives: the register it writes, the transfer it makes, the address and the store data it leaves in `EM`, the request it emits
(R166, R230 to R233, R250 to R254, R271 to R275, R291, R292, R310, R311). -/
def executedWith (x : RegIdx → Word) (slot : DeSlot) (s t : State) : Prop :=
  match slot.d with
  | .instr (.add rd rs rt) => t.reg rd = x rs + x rt
  | .instr (.sub rd rs rt) => t.reg rd = x rs - x rt
  | .instr (.mul rd rs rt) => t.reg rd = x rs * x rt
  | .instr (.div rd rs rt) =>
    if x rt = 0#32 then t.pcb.status = .faulted (.divideByZero (x rs)) else alu .div (x rs) (x rt) = .ok (t.reg rd)
  | .instr (.addi rt rs imm) => t.reg rt = x rs + imm
  | .instr (.addiu rt rs imm) => t.reg rt = x rs + imm
  | .instr (.slti rt rs imm) => t.reg rt = if (x rs).toInt < imm.toInt then 1#32 else 0#32
  | .instr (.lui rt imm) => t.reg rt = (imm.extractLsb' 0 16 ++ 0#16 : Word)
  | .instr (.li rt imm) => t.reg rt = imm
  | .instr (.beq rs rt imm) => t.pcb.pc = if x rs = x rt then imm else s.pcb.pc
  | .instr (.bne rs rt imm) => t.pcb.pc = if x rs ≠ x rt then imm else s.pcb.pc
  | .instr (.blt rs rt imm) => t.pcb.pc = if (x rs).toInt < (x rt).toInt then imm else s.pcb.pc
  | .instr (.bgt rs rt imm) => t.pcb.pc = if (x rs).toInt > (x rt).toInt then imm else s.pcb.pc
  | .instr (.j target) => t.pcb.pc = target
  | .instr (.lw _ rs imm) => t.pcb.em = some { ipc := slot.ipc, d := slot.d, ea := some (x rs + imm), sdata := none }
  | .instr (.sw rt rs imm) => t.pcb.em = some { ipc := slot.ipc, d := slot.d, ea := some (x rs + imm), sdata := some (x rt) }
  | .instr (.printReg rt) => t.queue = s.queue ++ [{ pid := s.pcb.pid, value := x rt }]
  | .instr (.printMem rs imm) => t.pcb.em = some { ipc := slot.ipc, d := slot.d, ea := some (x rs + imm), sdata := none }
  | .instr .endOfProgram => quietFrame s t
  | .nop => quietFrame s t

/-- The instructions that access memory in MEM (R165). -/
def accessesMemory : Instr → Bool
  | .lw _ _ _ => true
  | .sw _ _ _ => true
  | .printMem _ _ => true
  | _ => false

/-! ## What a program can see -/

/-- The PCB without its counters and weights, which no program reads (R43, R49). -/
def Pcb.visible (p : Pcb) : Pcb :=
  { p with counters := Counters.zero, wCache := 0, wPrimary := 0, wSecondary := 0 }

/-- Two states show a program the same values: the same process but for counters and weights, the same turn and queue, and the same
word at every address, whatever the cache, the policy and the split of the tiers (R90). -/
abbrev sameValues (s t : State) : Prop :=
  s.pcb.visible = t.pcb.visible ∧ s.turn = t.turn ∧ s.queue = t.queue ∧
  s.config.printBlocking = t.config.printBlocking ∧ ∀ a : Word, s.wordAt a = t.wordAt a

/-- The two outcomes are alike: both next states with the same values, or the same fault. -/
def sameOutcome : Host.Outcome State Fault Refusal → Host.Outcome State Fault Refusal → Prop
  | .next s, .next t => sameValues s t
  | .fault f, .fault g => f = g
  | _, _ => False

end Sys2Proof.Machine
end

