-- ==== Sys2Proof/Certificates/Slice0/Obligations.lean ====
section
/-! DEFINITION. The statements for the provers. Each docstring cites the rules of spec/ its statement formalises. "In EX with its
slot" stands for the two hypotheses `s.turn.stage = .ex` and `s.pcb.de = some slot`, and likewise for the other stages. -/

open Sys2Proof Sys2Proof.Machine

/-! ## Encoding -/

/-- Decoding the encoding of a well-formed instruction gives it back, with every operand at every value (R121 to R124, R130). -/
def Obligations.DecodeOfEncode : Prop :=
  ∀ i : Instr, wellFormed i = true → decode (encode i) = .instr i

/-- R135: re-encoding the record of a word that is not a NOP and decoding the result gives the same record; the word itself need not
come back, since ignored bits are not recovered. -/
def Obligations.ReencodedRecordDecodesAlike : Prop :=
  (∀ (w : Word) (i : Instr), decode w = .instr i → decode (encode i) = .instr i) ∧
  ∃ (w : Word) (i : Instr), decode w = .instr i ∧ encode i ≠ w

/-- The decoder outputs only sign-extended immediates and 26-bit targets (R125, R126, R133). -/
def Obligations.DecodedRecordsAreWellFormed : Prop :=
  ∀ (w : Word) (i : Instr), decode w = .instr i → wellFormed i = true

/-- R132: exactly the words that are not the sentinel and whose opcode, or function field when the opcode is zero, is not in the
opcode map are NOP. -/
def Obligations.UnassignedWordsAreNop : Prop :=
  ∀ w : Word, decode w = .nop ↔
    w ≠ 0xFFFFFFFF#32 ∧
    ((opField w = 0x00#6 ∧ functField w ∉ [0x20#6, 0x22#6, 0x18#6, 0x1A#6]) ∨
      opField w ∉ [0x00#6, 0x02#6, 0x04#6, 0x05#6, 0x06#6, 0x07#6, 0x08#6, 0x09#6, 0x0A#6, 0x0F#6, 0x18#6, 0x19#6, 0x1A#6,
        0x23#6, 0x2B#6])

/-- The opcode map (R131) with every field at every value, the ignored ones among them, which change nothing (R134): `shamt` of the R
format, `rs` of LUI and LI, `rs` and `imm16` of PRINT_REG, `rt` of PRINT_MEM. -/
def Obligations.EveryRowDecodesWithAnyFields : Prop :=
  ∀ (rs rt rd sh : RegIdx) (imm16 : BitVec 16) (target26 : BitVec 26),
    decode (0#6 ++ rs ++ rt ++ rd ++ sh ++ 0x20#6 : Word) = .instr (.add rd rs rt) ∧
    decode (0#6 ++ rs ++ rt ++ rd ++ sh ++ 0x22#6 : Word) = .instr (.sub rd rs rt) ∧
    decode (0#6 ++ rs ++ rt ++ rd ++ sh ++ 0x18#6 : Word) = .instr (.mul rd rs rt) ∧
    decode (0#6 ++ rs ++ rt ++ rd ++ sh ++ 0x1A#6 : Word) = .instr (.div rd rs rt) ∧
    decode (0x02#6 ++ target26 : Word) = .instr (.j (target26.setWidth 32)) ∧
    decode (0x04#6 ++ rs ++ rt ++ imm16 : Word) = .instr (.beq rs rt (imm16.signExtend 32)) ∧
    decode (0x05#6 ++ rs ++ rt ++ imm16 : Word) = .instr (.bne rs rt (imm16.signExtend 32)) ∧
    decode (0x06#6 ++ rs ++ rt ++ imm16 : Word) = .instr (.blt rs rt (imm16.signExtend 32)) ∧
    decode (0x07#6 ++ rs ++ rt ++ imm16 : Word) = .instr (.bgt rs rt (imm16.signExtend 32)) ∧
    decode (0x08#6 ++ rs ++ rt ++ imm16 : Word) = .instr (.addi rt rs (imm16.signExtend 32)) ∧
    decode (0x09#6 ++ rs ++ rt ++ imm16 : Word) = .instr (.addiu rt rs (imm16.signExtend 32)) ∧
    decode (0x0A#6 ++ rs ++ rt ++ imm16 : Word) = .instr (.slti rt rs (imm16.signExtend 32)) ∧
    decode (0x0F#6 ++ rs ++ rt ++ imm16 : Word) = .instr (.lui rt (imm16.signExtend 32)) ∧
    decode (0x18#6 ++ rs ++ rt ++ imm16 : Word) = .instr (.li rt (imm16.signExtend 32)) ∧
    decode (0x19#6 ++ rs ++ rt ++ imm16 : Word) = .instr (.printReg rt) ∧
    decode (0x1A#6 ++ rs ++ rt ++ imm16 : Word) = .instr (.printMem rs (imm16.signExtend 32)) ∧
    decode (0x23#6 ++ rs ++ rt ++ imm16 : Word) = .instr (.lw rt rs (imm16.signExtend 32)) ∧
    decode (0x2B#6 ++ rs ++ rt ++ imm16 : Word) = .instr (.sw rt rs (imm16.signExtend 32)) ∧
    decode 0xFFFFFFFF#32 = .instr .endOfProgram

/-- Words of the spec's decoder vectors, one or more of every family (T-DEC-4 to T-DEC-25, R250, R254, R275). -/
def Obligations.WordsOfTheSpecDecode : Prop :=
  decode 0x012A4060#32 = .instr (.add 8#5 9#5 10#5) ∧
  decode 0x03E0F81A#32 = .instr (.div 31#5 31#5 0#5) ∧
  decode 0x2008FFFB#32 = .instr (.addi 8#5 0#5 0xFFFFFFFB#32) ∧
  decode 0x3C281234#32 = .instr (.lui 8#5 0x1234#32) ∧
  decode 0x10228000#32 = .instr (.beq 1#5 2#5 0xFFFF8000#32) ∧
  decode 0x0BFFFFFF#32 = .instr (.j 0x03FFFFFF#32) ∧
  decode 0x8D28FFFC#32 = .instr (.lw 8#5 9#5 0xFFFFFFFC#32) ∧
  decode 0xAD280008#32 = .instr (.sw 8#5 9#5 8#32) ∧
  decode 0x64A8FFFF#32 = .instr (.printReg 8#5) ∧
  decode 0x69280004#32 = .instr (.printMem 9#5 4#32) ∧
  decode 0xFFFFFFFF#32 = .instr .endOfProgram ∧
  decode 0xFFFFFFFE#32 = .nop

/-! ## ALU -/

/-- R214: a zero divisor raises with the dividend; `-2^31 / -1` is 0x80000000; every other quotient is the exact one rounded toward
zero, which fits the word. -/
def Obligations.DivisionIsTruncatedQuotient : Prop :=
  ∀ a b : Word,
    (b = 0#32 → alu .div a b = .error (.divideByZero a)) ∧
    (a = 0x80000000#32 → b = 0xFFFFFFFF#32 → alu .div a b = .ok 0x80000000#32) ∧
    (b ≠ 0#32 → ¬ (a = 0x80000000#32 ∧ b = 0xFFFFFFFF#32) →
      ∃ q : Word, alu .div a b = .ok q ∧ q.toInt = a.toInt.tdiv b.toInt)

/-- R217: the laws of the ALU. -/
def Obligations.AluLaws : Prop :=
  ∀ a b c : Word,
    alu .add a b = alu .add b a ∧ alu .mul a b = alu .mul b a ∧
    (∀ ab bc, alu .add a b = .ok ab → alu .add b c = .ok bc → alu .add ab c = alu .add a bc) ∧
    (∀ ab bc, alu .mul a b = .ok ab → alu .mul b c = .ok bc → alu .mul ab c = alu .mul a bc) ∧
    alu .sub a b = alu .add a (wrap (-b.toInt)) ∧
    (∀ e n, alu .eq a b = .ok e → alu .ne a b = .ok n → e = 1#32 - n) ∧
    alu .lt a b = alu .gt b a ∧
    ((alu .lt a b = .ok 1#32 ∧ alu .eq a b = .ok 0#32 ∧ alu .gt a b = .ok 0#32) ∨
      (alu .lt a b = .ok 0#32 ∧ alu .eq a b = .ok 1#32 ∧ alu .gt a b = .ok 0#32) ∨
      (alu .lt a b = .ok 0#32 ∧ alu .eq a b = .ok 0#32 ∧ alu .gt a b = .ok 1#32)) ∧
    (∀ q, b ≠ 0#32 → ¬ (a = 0x80000000#32 ∧ b = 0xFFFFFFFF#32) → alu .div a b = .ok q →
      (q.toInt * b.toInt).natAbs ≤ a.toInt.natAbs ∧ (q = 0#32 ∨ q.toInt.sign = (a.toInt * b.toInt).sign))

/-- R211 to R213: the low 32 bits of sum, difference and product are also those of the operands read unsigned, so each is the word
operation that wraps. -/
def Obligations.ArithmeticWrapsModulo : Prop :=
  ∀ a b : Word,
    alu .add a b = .ok (a + b) ∧ alu .sub a b = .ok (a - b) ∧ alu .mul a b = .ok (a * b)

/-! ## Registers -/

/-- R33: a register reads what was last written to it, register 0 like any other. -/
def Obligations.RegisterReadsLastWrite : Prop :=
  ∀ (s : State) (i j : RegIdx) (v : Word), (s.setReg i v).reg j = if j = i then v else s.reg j

/-! ## Register and immediate arithmetic -/

/-- ADD, SUB, MUL (R230 to R232): the encoding with any `shamt`, and in EX with its slot `x[rd]` gets the wrapped result of the two
sources as they were, nothing else changing but the passage of the slot. -/
def Obligations.RegisterArithmeticWritesResult : Prop :=
  ∀ (rd rs rt sh : RegIdx),
    decode (0#6 ++ rs ++ rt ++ rd ++ sh ++ 0x20#6 : Word) = .instr (.add rd rs rt) ∧
    decode (0#6 ++ rs ++ rt ++ rd ++ sh ++ 0x22#6 : Word) = .instr (.sub rd rs rt) ∧
    decode (0#6 ++ rs ++ rt ++ rd ++ sh ++ 0x18#6 : Word) = .instr (.mul rd rs rt) ∧
    ∀ (s : State) (slot : DeSlot), s.turn.stage = .ex → s.pcb.de = some slot →
      (∃ t, exec (.add rd rs rt) s = .next t ∧ t.reg rd = wrap ((s.reg rs).toInt + (s.reg rt).toInt) ∧
        registerFrame rd s t ∧ passedEx slot (.add rd rs rt) none none s t) ∧
      (∃ t, exec (.sub rd rs rt) s = .next t ∧ t.reg rd = wrap ((s.reg rs).toInt - (s.reg rt).toInt) ∧
        registerFrame rd s t ∧ passedEx slot (.sub rd rs rt) none none s t) ∧
      (∃ t, exec (.mul rd rs rt) s = .next t ∧ t.reg rd = wrap ((s.reg rs).toInt * (s.reg rt).toInt) ∧
        registerFrame rd s t ∧ passedEx slot (.mul rd rs rt) none none s t)

/-- DIV (R233): the encoding with any `shamt`; in EX with its slot and a divisor that is not zero, `x[rd]` gets the quotient rounded
toward zero, or 0x80000000 for `-2^31 / -1`; with a zero divisor DivideByZero of the dividend is raised and no register is
written. -/
def Obligations.DivWritesQuotientOrFaults : Prop :=
  ∀ (rd rs rt sh : RegIdx),
    decode (0#6 ++ rs ++ rt ++ rd ++ sh ++ 0x1A#6 : Word) = .instr (.div rd rs rt) ∧
    ∀ (s : State) (slot : DeSlot), s.turn.stage = .ex → s.pcb.de = some slot →
      (s.reg rt ≠ 0#32 → ∃ t, exec (.div rd rs rt) s = .next t ∧
        (if s.reg rs = 0x80000000#32 ∧ s.reg rt = 0xFFFFFFFF#32 then t.reg rd = 0x80000000#32
          else (t.reg rd).toInt = (s.reg rs).toInt.tdiv (s.reg rt).toInt) ∧
        registerFrame rd s t ∧ passedEx slot (.div rd rs rt) none none s t) ∧
      (s.reg rt = 0#32 → ∃ t, exec (.div rd rs rt) s = .next t ∧
        faultedWith (.divideByZero (s.reg rs)) s t ∧ sameFetch s t ∧
        t.pcb.de = none ∧ t.pcb.em = s.pcb.em ∧ t.pcb.mw = s.pcb.mw)

/-- ADDI, ADDIU, SLTI (R250 to R252): the encoding with the immediate sign-extended, and in EX with its slot `x[rt]` gets the wrapped
sum, or 1 or 0 for the signed comparison, nothing else changing but the passage of the slot. -/
def Obligations.ImmediateArithmeticWritesResult : Prop :=
  ∀ (rt rs : RegIdx),
    (∀ imm16 : BitVec 16,
      decode (0x08#6 ++ rs ++ rt ++ imm16 : Word) = .instr (.addi rt rs (imm16.signExtend 32)) ∧
      decode (0x09#6 ++ rs ++ rt ++ imm16 : Word) = .instr (.addiu rt rs (imm16.signExtend 32)) ∧
      decode (0x0A#6 ++ rs ++ rt ++ imm16 : Word) = .instr (.slti rt rs (imm16.signExtend 32))) ∧
    ∀ (s : State) (slot : DeSlot) (imm : Word), s.turn.stage = .ex → s.pcb.de = some slot →
      (∃ t, exec (.addi rt rs imm) s = .next t ∧ t.reg rt = wrap ((s.reg rs).toInt + imm.toInt) ∧
        registerFrame rt s t ∧ passedEx slot (.addi rt rs imm) none none s t) ∧
      (∃ t, exec (.addiu rt rs imm) s = .next t ∧ t.reg rt = wrap ((s.reg rs).toInt + imm.toInt) ∧
        registerFrame rt s t ∧ passedEx slot (.addiu rt rs imm) none none s t) ∧
      (∃ t, exec (.slti rt rs imm) s = .next t ∧ t.reg rt = (if (s.reg rs).toInt < imm.toInt then 1#32 else 0#32) ∧
        registerFrame rt s t ∧ passedEx slot (.slti rt rs imm) none none s t)

/-- LUI and LI (R253, R254): the encoding with any `rs`, and in EX with its slot `x[rt]` gets the 16 bits over a zero low half, or the
sign-extended immediate, nothing else changing but the passage of the slot. -/
def Obligations.LoadImmediatesWriteResult : Prop :=
  ∀ (rt rs : RegIdx) (imm16 : BitVec 16),
    decode (0x0F#6 ++ rs ++ rt ++ imm16 : Word) = .instr (.lui rt (imm16.signExtend 32)) ∧
    decode (0x18#6 ++ rs ++ rt ++ imm16 : Word) = .instr (.li rt (imm16.signExtend 32)) ∧
    ∀ (s : State) (slot : DeSlot), s.turn.stage = .ex → s.pcb.de = some slot →
      (∃ t, exec (.lui rt (imm16.signExtend 32)) s = .next t ∧ t.reg rt = (imm16 ++ 0#16 : Word) ∧
        registerFrame rt s t ∧ passedEx slot (.lui rt (imm16.signExtend 32)) none none s t) ∧
      (∃ t, exec (.li rt (imm16.signExtend 32)) s = .next t ∧ t.reg rt = imm16.signExtend 32 ∧
        registerFrame rt s t ∧ passedEx slot (.li rt (imm16.signExtend 32)) none none s t)

/-! ## Control transfer -/

/-- BEQ, BNE, BLT, BGT (R271 to R274, R276, R174): the encodings; in EX with its slot a branch whose comparison holds transfers to
the immediate, with the re-prime's MemRead (R172), one whose comparison fails changes nothing but the passage of its slot, wherever
its target is. -/
def Obligations.BranchesTransferWhenTaken : Prop :=
  ∀ (rs rt : RegIdx),
    (∀ imm16 : BitVec 16,
      decode (0x04#6 ++ rs ++ rt ++ imm16 : Word) = .instr (.beq rs rt (imm16.signExtend 32)) ∧
      decode (0x05#6 ++ rs ++ rt ++ imm16 : Word) = .instr (.bne rs rt (imm16.signExtend 32)) ∧
      decode (0x06#6 ++ rs ++ rt ++ imm16 : Word) = .instr (.blt rs rt (imm16.signExtend 32)) ∧
      decode (0x07#6 ++ rs ++ rt ++ imm16 : Word) = .instr (.bgt rs rt (imm16.signExtend 32))) ∧
    ∀ (s : State) (slot : DeSlot) (imm : Word), s.HierInv → s.turn.stage = .ex → s.pcb.de = some slot →
      (∃ t, exec (.beq rs rt imm) s = .next t ∧
        if s.reg rs = s.reg rt then transferred slot (.beq rs rt imm) imm s t
        else quietFrame s t ∧ passedEx slot (.beq rs rt imm) none none s t) ∧
      (∃ t, exec (.bne rs rt imm) s = .next t ∧
        if s.reg rs ≠ s.reg rt then transferred slot (.bne rs rt imm) imm s t
        else quietFrame s t ∧ passedEx slot (.bne rs rt imm) none none s t) ∧
      (∃ t, exec (.blt rs rt imm) s = .next t ∧
        if (s.reg rs).toInt < (s.reg rt).toInt then transferred slot (.blt rs rt imm) imm s t
        else quietFrame s t ∧ passedEx slot (.blt rs rt imm) none none s t) ∧
      (∃ t, exec (.bgt rs rt imm) s = .next t ∧
        if (s.reg rs).toInt > (s.reg rt).toInt then transferred slot (.bgt rs rt imm) imm s t
        else quietFrame s t ∧ passedEx slot (.bgt rs rt imm) none none s t)

/-- J (R275, R276, R126): the encoding with the target zero-extended; in EX with its slot it always transfers, with the
re-prime's MemRead (R172). -/
def Obligations.JumpTransfers : Prop :=
  (∀ target26 : BitVec 26, decode (0x02#6 ++ target26 : Word) = .instr (.j (target26.setWidth 32))) ∧
  ∀ (s : State) (slot : DeSlot) (target : Word), s.HierInv → s.turn.stage = .ex → s.pcb.de = some slot →
    ∃ t, exec (.j target) s = .next t ∧ transferred slot (.j target) target s t

/-! ## Loads, stores and output -/

/-- LW (R291, R290): the encoding; EX leaves `x[rs] + imm` in the slot; MEM performs the MemRead of its relocated address, changing
no word of memory, or raises MemoryOutOfRange with nothing written; WB writes `x[rt]` and retires the slot. -/
def Obligations.LoadWordStages : Prop :=
  ∀ (rt rs : RegIdx) (imm : Word),
    (∀ imm16 : BitVec 16, decode (0x23#6 ++ rs ++ rt ++ imm16 : Word) = .instr (.lw rt rs (imm16.signExtend 32))) ∧
    (∀ (s : State) (slot : DeSlot), s.turn.stage = .ex → s.pcb.de = some slot →
      ∃ t, exec (.lw rt rs imm) s = .next t ∧ quietFrame s t ∧
        passedEx slot (.lw rt rs imm) (some (s.reg rs + imm)) none s t) ∧
    (∀ (s : State) (slot : EmSlot) (ea v : Word), s.HierInv → s.turn.stage = .mem → s.pcb.em = some slot →
      slot.ea = some ea → s.wordAt (s.phys ea) = some v →
      ∃ t, exec (.lw rt rs imm) s = .next t ∧ accessFrame s t ∧ sameMemory s t ∧
        t.pcb.counters.memReads = s.pcb.counters.memReads + 1 ∧ t.pcb.counters.memWrites = s.pcb.counters.memWrites ∧
        readsBy (s.phys ea) v s t ∧ passedMem slot (.lw rt rs imm) (some v) s t) ∧
    (∀ (s : State) (slot : EmSlot) (ea : Word), s.turn.stage = .mem → s.pcb.em = some slot →
      slot.ea = some ea → s.wordAt (s.phys ea) = none →
      ∃ t, exec (.lw rt rs imm) s = .next t ∧ faultedWith (.memoryOutOfRange (s.phys ea)) s t ∧ sameFetch s t ∧
        t.pcb.de = s.pcb.de ∧ t.pcb.em = none ∧ t.pcb.mw = s.pcb.mw) ∧
    (∀ (s : State) (slot : MwSlot) (v : Word), s.turn.stage = .wb → s.pcb.mw = some slot → slot.ldata = some v →
      ∃ t, exec (.lw rt rs imm) s = .next t ∧ t.reg rt = v ∧ (∀ r, r ≠ rt → t.reg r = s.reg r) ∧ sameOutside s t ∧
        sameFetch s t ∧ sameMemory s t ∧ t.hier = s.hier ∧ t.queue = s.queue ∧
        t.turn.blockPending = s.turn.blockPending ∧ passedWb s t)

/-- SW (R292, R290): the encoding; EX leaves `x[rs] + imm` and `x[rt]` in the slot; MEM performs the MemWrite of the store data at the
relocated address, leaving every other word as it was, or raises MemoryOutOfRange with nothing changed; WB only retires the slot. -/
def Obligations.StoreWordStages : Prop :=
  ∀ (rt rs : RegIdx) (imm : Word),
    (∀ imm16 : BitVec 16, decode (0x2B#6 ++ rs ++ rt ++ imm16 : Word) = .instr (.sw rt rs (imm16.signExtend 32))) ∧
    (∀ (s : State) (slot : DeSlot), s.turn.stage = .ex → s.pcb.de = some slot →
      ∃ t, exec (.sw rt rs imm) s = .next t ∧ quietFrame s t ∧
        passedEx slot (.sw rt rs imm) (some (s.reg rs + imm)) (some (s.reg rt)) s t) ∧
    (∀ (s : State) (slot : EmSlot) (ea v : Word), s.HierInv → s.turn.stage = .mem → s.pcb.em = some slot →
      slot.ea = some ea → slot.sdata = some v → s.wordAt (s.phys ea) ≠ none →
      ∃ t, exec (.sw rt rs imm) s = .next t ∧ accessFrame s t ∧
        (∀ a : Word, t.wordAt a = if a = s.phys ea then some v else s.wordAt a) ∧
        t.pcb.counters.memWrites = s.pcb.counters.memWrites + 1 ∧ writesBy (s.phys ea) v s t ∧
        passedMem slot (.sw rt rs imm) none s t) ∧
    (∀ (s : State) (slot : EmSlot) (ea v : Word), s.turn.stage = .mem → s.pcb.em = some slot →
      slot.ea = some ea → slot.sdata = some v → s.wordAt (s.phys ea) = none →
      ∃ t, exec (.sw rt rs imm) s = .next t ∧ faultedWith (.memoryOutOfRange (s.phys ea)) s t ∧ sameFetch s t ∧
        t.pcb.de = s.pcb.de ∧ t.pcb.em = none ∧ t.pcb.mw = s.pcb.mw) ∧
    (∀ (s : State) (slot : MwSlot), s.turn.stage = .wb → s.pcb.mw = some slot →
      ∃ t, exec (.sw rt rs imm) s = .next t ∧ retiredQuietly s t)

/-- PRINT_REG (R310, R313): the encoding with any `rs` and `imm16`; in EX with its slot the request `{pid, x[rt]}` goes to the
queue's tail and, when output blocks, the turn is marked to end; nothing else changes but the passage of the slot, and MEM and WB
only pass it on and retire it. -/
def Obligations.PrintRegEmits : Prop :=
  ∀ (rt : RegIdx),
    (∀ (rs : RegIdx) (imm16 : BitVec 16), decode (0x19#6 ++ rs ++ rt ++ imm16 : Word) = .instr (.printReg rt)) ∧
    (∀ (s : State) (slot : DeSlot), s.turn.stage = .ex → s.pcb.de = some slot →
      ∃ t, exec (.printReg rt) s = .next t ∧ requested (s.reg rt) s t ∧ passedEx slot (.printReg rt) none none s t) ∧
    (∀ (s : State) (slot : EmSlot), s.turn.stage = .mem → s.pcb.em = some slot →
      ∃ t, exec (.printReg rt) s = .next t ∧ quietFrame s t ∧ passedMem slot (.printReg rt) none s t) ∧
    (∀ (s : State) (slot : MwSlot), s.turn.stage = .wb → s.pcb.mw = some slot →
      ∃ t, exec (.printReg rt) s = .next t ∧ retiredQuietly s t)

/-- PRINT_MEM (R311, R313, R165): the encoding with any `rt`; EX leaves `x[rs] + imm` in the slot; MEM performs the MemRead of the
relocated address, or raises MemoryOutOfRange before anything is emitted, and emits `{pid, v}`; WB only retires the slot. That MEM has
two halves, a read that leaves the word in the slot's `ldata` and an emission that empties it, is the model's choice (log 1, DEDUCED): R311 has one
MEM, and R45 gives `ldata` to LW alone. -/
def Obligations.PrintMemStages : Prop :=
  ∀ (rs : RegIdx) (imm : Word),
    (∀ (rt : RegIdx) (imm16 : BitVec 16),
      decode (0x1A#6 ++ rs ++ rt ++ imm16 : Word) = .instr (.printMem rs (imm16.signExtend 32))) ∧
    (∀ (s : State) (slot : DeSlot), s.turn.stage = .ex → s.pcb.de = some slot →
      ∃ t, exec (.printMem rs imm) s = .next t ∧ quietFrame s t ∧
        passedEx slot (.printMem rs imm) (some (s.reg rs + imm)) none s t) ∧
    (∀ (s : State) (slot : EmSlot) (ea v : Word), s.HierInv → s.turn.stage = .mem → s.pcb.em = some slot →
      slot.ea = some ea → s.wordAt (s.phys ea) = some v →
      ∃ t, exec (.printMem rs imm) s = .next t ∧ accessFrame s t ∧ sameMemory s t ∧
        t.pcb.counters.memReads = s.pcb.counters.memReads + 1 ∧ t.pcb.counters.memWrites = s.pcb.counters.memWrites ∧
        readsBy (s.phys ea) v s t ∧ passedMem slot (.printMem rs imm) (some v) s t) ∧
    (∀ (s : State) (slot : EmSlot) (ea : Word), s.turn.stage = .mem → s.pcb.em = some slot →
      slot.ea = some ea → s.wordAt (s.phys ea) = none →
      ∃ t, exec (.printMem rs imm) s = .next t ∧ faultedWith (.memoryOutOfRange (s.phys ea)) s t ∧ sameFetch s t ∧
        t.pcb.de = s.pcb.de ∧ t.pcb.em = none ∧ t.pcb.mw = s.pcb.mw) ∧
    (∀ (s : State) (slot : MwSlot) (v : Word), s.turn.stage = .memEmit → s.pcb.mw = some slot → slot.ldata = some v →
      ∃ t, exec (.printMem rs imm) s = .next t ∧ requested v s t ∧ t.pcb.de = s.pcb.de ∧ t.pcb.em = s.pcb.em ∧
        t.pcb.mw = some { slot with ldata := none } ∧ t.turn.stage = .ex) ∧
    (∀ (s : State) (slot : MwSlot), s.turn.stage = .wb → s.pcb.mw = some slot →
      ∃ t, exec (.printMem rs imm) s = .next t ∧ retiredQuietly s t)

/-- END (R314): its word; in Fetch it sets `draining` and changes nothing else of the state the Fetch leaves, `pc` and `FD` among
it. -/
def Obligations.EndStartsTheDrain : Prop :=
  decode 0xFFFFFFFF#32 = .instr .endOfProgram ∧
  ∀ s : State, s.turn.stage = .fetch →
    ∃ t, exec .endOfProgram s = .next t ∧ t.pcb.draining = true ∧ t.pcb.pc = s.pcb.pc ∧ t.pcb.fd = s.pcb.fd ∧
      t.pcb.mar = s.pcb.mar ∧ t.pcb.ir = s.pcb.ir ∧ t.pcb.de = s.pcb.de ∧ t.pcb.em = s.pcb.em ∧ t.pcb.mw = s.pcb.mw ∧
      (∀ r, t.reg r = s.reg r) ∧ sameOutside s t ∧ sameMemory s t ∧ t.hier = s.hier ∧ t.queue = s.queue ∧
      t.pcb.counters = s.pcb.counters ∧ t.turn.blockPending = s.turn.blockPending ∧ t.turn.stage = .check

/-- NOP (R315): in EX, MEM and WB the empty tag does nothing but pass its slot on; at WB it is counted. The third clause, that it does
nothing in the second half of MEM, is about the model's own split of MEM (log 1, DEDUCED), which R315 does not have. -/
def Obligations.NopOnlyPasses : Prop :=
  (∀ (s : State) (slot : DeSlot), s.turn.stage = .ex → s.pcb.de = some slot →
    ∃ t, execNop s = .next t ∧ quietFrame s t ∧ t.pcb.de = none ∧
      t.pcb.em = some { ipc := slot.ipc, d := .nop, ea := none, sdata := none } ∧ t.pcb.mw = s.pcb.mw ∧ t.turn.stage = .id) ∧
  (∀ (s : State) (slot : EmSlot), s.turn.stage = .mem → s.pcb.em = some slot →
    ∃ t, execNop s = .next t ∧ quietFrame s t ∧ t.pcb.em = none ∧
      t.pcb.mw = some { ipc := slot.ipc, d := .nop, ldata := none } ∧ t.pcb.de = s.pcb.de ∧ t.turn.stage = .memEmit) ∧
  (∀ (s : State) (slot : MwSlot), s.turn.stage = .memEmit → s.pcb.mw = some slot →
    execNop s = .next { s with turn := { s.turn with stage := .ex } }) ∧
  (∀ (s : State) (slot : MwSlot), s.turn.stage = .wb → s.pcb.mw = some slot →
    ∃ t, execNop s = .next t ∧ retiredQuietly s t)

/-- R164: WB writes `x[rt]` with the loaded word for LW and nothing for any other tag; for every tag the slot retires and
`instructions` increases by 1. That an LW whose slot holds no loaded word, which no run reaches, writes nothing is the model's choice
(log 15, DESIGN CHOICE), which R164 does not have. -/
def Obligations.WriteBackRetiresEverySlot : Prop :=
  ∀ (d : Decoded) (s : State) (slot : MwSlot), s.turn.stage = .wb → s.pcb.mw = some slot →
    ∃ t, execDecoded d s = .next t ∧
      (∀ r, t.reg r = match d, slot.ldata with
        | .instr (.lw rt _ _), some v => if r = rt then v else s.reg r
        | _, _ => s.reg r) ∧
      sameOutside s t ∧ sameFetch s t ∧ sameMemory s t ∧ t.hier = s.hier ∧ t.queue = s.queue ∧
      t.turn.blockPending = s.turn.blockPending ∧ passedWb s t

/-- R165: in MEM every tag but LW, SW and PRINT_MEM does nothing but pass its slot on. The second clause, that in the second half of
MEM every tag but PRINT_MEM does nothing at all, is about the model's own split of MEM (log 1, DEDUCED), which R165 does not have. -/
def Obligations.OthersDoNothingInMem : Prop :=
  (∀ (i : Instr) (s : State) (slot : EmSlot), accessesMemory i = false → s.turn.stage = .mem → s.pcb.em = some slot →
    ∃ t, exec i s = .next t ∧ quietFrame s t ∧ passedMem slot i none s t) ∧
  (∀ (i : Instr) (s : State) (slot : MwSlot), (∀ rs imm, i ≠ .printMem rs imm) → s.turn.stage = .memEmit →
    s.pcb.mw = some slot → exec i s = .next { s with turn := { s.turn with stage := .ex } })

/-! ## Memory hierarchy -/

/-- R72, R73: an address below `LIMIT` is in the primary tier at itself, one at or above it in the secondary tier at its distance from
`LIMIT`, and out of range exactly when that index is not below `SECONDARY_SIZE`. -/
def Obligations.TierResolution : Prop :=
  ∀ (c : Config) (a : Nat), c.wf →
    (a < c.limit → resolve c a = some (.primary, a)) ∧
    (c.limit ≤ a → a - c.limit < c.secondarySize → resolve c a = some (.secondary, a - c.limit)) ∧
    (c.limit ≤ a → c.secondarySize ≤ a - c.limit → resolve c a = none)

/-- R80, R82, R90: a read returns the word at its address and changes no word; a miss inserts it into the cache, a hit changes neither
the entries nor a tier; out of range it raises with nothing changed. -/
def Obligations.ReadReturnsTheWord : Prop :=
  ∀ (s : State) (a : Word), s.HierInv →
    (s.wordAt a = none → s.memRead a = none) ∧
    (∀ v, s.wordAt a = some v → ∃ t, s.memRead a = some (v, t) ∧ t.HierInv ∧ (∀ b, t.wordAt b = s.wordAt b) ∧
      t = { s with hier := t.hier, pcb := { s.pcb with counters := t.pcb.counters } } ∧
      (s.hier.entry a.toNat = none → t.hier = s.hier.insert s.config a.toNat v ∧
        t.hier.entry a.toNat = some { data := v, valid := true, dirty := false }) ∧
      (∀ e, s.hier.entry a.toNat = some e →
        t.hier.cache = s.hier.cache ∧ t.hier.primary = s.hier.primary ∧ t.hier.secondary = s.hier.secondary))

/-- R84, R90: a write makes the word at its address the value written and leaves every other word as it was, whatever it evicts; a
read right after returns it. Its entry is dirty and the tier keeps its old word (write-back); on a hit nothing else of the entries and
no tier changes, on a miss the word is first inserted as a read does (write-allocate), and only that insert's eviction changes a tier. -/
def Obligations.WriteThenReadReturnsValue : Prop :=
  ∀ (s : State) (a v : Word), s.HierInv →
    (s.wordAt a = none → s.memWrite a v = none) ∧
    (∀ w, s.wordAt a = some w → ∃ t, s.memWrite a v = some t ∧ t.HierInv ∧
      (∀ b, t.wordAt b = if b = a then some v else s.wordAt b) ∧
      t = { s with hier := t.hier, pcb := { s.pcb with counters := t.pcb.counters } } ∧
      (∃ u, t.memRead a = some (v, u)) ∧
      t.hier.entry a.toNat = some { data := v, valid := true, dirty := true } ∧
      t.hier.tierWord s.config a.toNat = s.hier.tierWord s.config a.toNat ∧
      (∀ e, s.hier.entry a.toNat = some e →
        (∀ b, b ≠ a.toNat → t.hier.entry b = s.hier.entry b) ∧
        t.hier.primary = s.hier.primary ∧ t.hier.secondary = s.hier.secondary) ∧
      (s.hier.entry a.toNat = none →
        (∀ b, b ≠ a.toNat → t.hier.entry b = (s.hier.insert s.config a.toNat w).entry b) ∧
        t.hier.order = (s.hier.insert s.config a.toNat w).order ∧
        t.hier.primary = (s.hier.insert s.config a.toNat w).primary ∧
        t.hier.secondary = (s.hier.insert s.config a.toNat w).secondary))

/-- The counters of an access. A read (R80, R81): on a hit the cache's weight, on a miss the tier's alone. A write (R84): it is
counted as a hit with the cache's weight, and on a miss its write-allocate is a read with the counters of one. -/
def Obligations.AccessCounters : Prop :=
  (∀ (s t : State) (a v : Word), s.memRead a = some (v, t) →
    (∀ e, s.hier.entry a.toNat = some e → t.pcb.counters = { s.pcb.counters with
      memAccessesTotal := s.pcb.counters.memAccessesTotal + 1, memReads := s.pcb.counters.memReads + 1,
      cacheHits := s.pcb.counters.cacheHits + 1, memoryCycles := s.pcb.counters.memoryCycles + s.pcb.wCache }) ∧
    (∀ i, s.hier.entry a.toNat = none → resolve s.config a.toNat = some (.primary, i) →
      t.pcb.counters = { s.pcb.counters with
        memAccessesTotal := s.pcb.counters.memAccessesTotal + 1, memReads := s.pcb.counters.memReads + 1,
        cacheMisses := s.pcb.counters.cacheMisses + 1, primaryAccesses := s.pcb.counters.primaryAccesses + 1,
        memoryCycles := s.pcb.counters.memoryCycles + s.pcb.wPrimary }) ∧
    (∀ i, s.hier.entry a.toNat = none → resolve s.config a.toNat = some (.secondary, i) →
      t.pcb.counters = { s.pcb.counters with
        memAccessesTotal := s.pcb.counters.memAccessesTotal + 1, memReads := s.pcb.counters.memReads + 1,
        cacheMisses := s.pcb.counters.cacheMisses + 1, secondaryAccesses := s.pcb.counters.secondaryAccesses + 1,
        memoryCycles := s.pcb.counters.memoryCycles + s.pcb.wSecondary })) ∧
  (∀ (s t : State) (a v : Word), s.memWrite a v = some t →
    (∀ e, s.hier.entry a.toNat = some e → t.pcb.counters = { s.pcb.counters with
      memAccessesTotal := s.pcb.counters.memAccessesTotal + 1, memWrites := s.pcb.counters.memWrites + 1,
      cacheHits := s.pcb.counters.cacheHits + 1, memoryCycles := s.pcb.counters.memoryCycles + s.pcb.wCache }) ∧
    (∀ i, s.hier.entry a.toNat = none → resolve s.config a.toNat = some (.primary, i) →
      t.pcb.counters = { s.pcb.counters with
        memAccessesTotal := s.pcb.counters.memAccessesTotal + 2, memReads := s.pcb.counters.memReads + 1,
        memWrites := s.pcb.counters.memWrites + 1, cacheMisses := s.pcb.counters.cacheMisses + 1,
        primaryAccesses := s.pcb.counters.primaryAccesses + 1, cacheHits := s.pcb.counters.cacheHits + 1,
        memoryCycles := s.pcb.counters.memoryCycles + s.pcb.wPrimary + s.pcb.wCache }) ∧
    (∀ i, s.hier.entry a.toNat = none → resolve s.config a.toNat = some (.secondary, i) →
      t.pcb.counters = { s.pcb.counters with
        memAccessesTotal := s.pcb.counters.memAccessesTotal + 2, memReads := s.pcb.counters.memReads + 1,
        memWrites := s.pcb.counters.memWrites + 1, cacheMisses := s.pcb.counters.cacheMisses + 1,
        secondaryAccesses := s.pcb.counters.secondaryAccesses + 1, cacheHits := s.pcb.counters.cacheHits + 1,
        memoryCycles := s.pcb.counters.memoryCycles + s.pcb.wSecondary + s.pcb.wCache }))

/-- R82, R83, R85, R86: inserting into a full cache removes exactly the victim; its tier gets its data exactly if it is dirty, no other
word of a tier changes, and the new address is last in the bookkeeping. -/
def Obligations.InsertEvictsTheVictim : Prop :=
  ∀ (c : Config) (h : Hierarchy) (a victim : Nat) (rest : List Nat) (v : Word) (e : CacheEntry), h.Inv c →
    h.entry a = none → c.cacheCapacity ≤ h.cache.length → h.order = victim :: rest → h.entry victim = some e →
    (∀ b, (h.insert c a v).entry b =
      if b = a then some { data := v, valid := true, dirty := false } else if b = victim then none else h.entry b) ∧
    (h.insert c a v).order = rest ++ [a] ∧
    (∀ b, (h.insert c a v).tierWord c b = if b = victim ∧ e.dirty = true then some e.data else h.tierWord c b)

/-- R82, R87, R88, R89: with room in the cache, or with an empty bookkeeping, an insert removes nothing and writes nothing back, and the
new address is last in the bookkeeping, the others keeping their order. -/
def Obligations.InsertWithoutVictim : Prop :=
  ∀ (c : Config) (h : Hierarchy) (a : Nat) (v : Word), h.cache.length < c.cacheCapacity ∨ h.order = [] →
    (∀ b, (h.insert c a v).entry b = if b = a then some { data := v, valid := true, dirty := false } else h.entry b) ∧
    (h.insert c a v).order = h.order.filter (fun b => b != a) ++ [a] ∧
    (h.insert c a v).primary = h.primary ∧ (h.insert c a v).secondary = h.secondary

/-- R88, R89: an access to an address in the cache moves it to the end of LRU's order and leaves FIFO's as it is. -/
def Obligations.TouchFollowsThePolicy : Prop :=
  ∀ (s t : State) (a v w : Word) (e : CacheEntry), s.hier.entry a.toNat = some e →
    s.memRead a = some (v, t) ∨ s.memWrite a w = some t →
    (s.config.replacement = .lru → t.hier.order = s.hier.order.filter (fun b => b != a.toNat) ++ [a.toNat]) ∧
    (s.config.replacement = .fifo → t.hier.order = s.hier.order)

/-! ## Sequencer -/

/-- A step runs the decoded record: while the turn runs and no event is due, the record in a stage's latch performs that stage, an
instruction by `exec` and the empty tag by NOP's meaning, with nothing added around it (R162, R164 to R166, R315); and where the word
at `phys(pc)` is the sentinel, Fetch runs END on the state its MemRead leaves, with the word in `ir` (R168). That one step is one part
of a cycle, done by `exec` on that stage's latch, and that MEM has a second half, `memEmit`, are the model's choice (log 1, DEDUCED):
these rules give whole cycles and one MEM. -/
def Obligations.StepRunsTheInstructionInItsStage : Prop :=
  (∀ (s : State) (i : Instr), s.agenda = [] → s.turn.outcome = none →
    (s.turn.stage = .ex → ∀ slot, s.pcb.de = some slot → slot.d = .instr i → step s = exec i s) ∧
    (s.turn.stage = .mem → ∀ slot, s.pcb.em = some slot → slot.d = .instr i → step s = exec i s) ∧
    (s.turn.stage = .memEmit → ∀ slot, s.pcb.mw = some slot → slot.d = .instr i → step s = exec i s) ∧
    (s.turn.stage = .wb → ∀ slot, s.pcb.mw = some slot → slot.d = .instr i → step s = exec i s)) ∧
  (∀ s : State, s.agenda = [] → s.turn.outcome = none →
    (s.turn.stage = .ex → ∀ slot, s.pcb.de = some slot → slot.d = .nop → step s = execNop s) ∧
    (s.turn.stage = .mem → ∀ slot, s.pcb.em = some slot → slot.d = .nop → step s = execNop s) ∧
    (s.turn.stage = .memEmit → ∀ slot, s.pcb.mw = some slot → slot.d = .nop → step s = execNop s) ∧
    (s.turn.stage = .wb → ∀ slot, s.pcb.mw = some slot → slot.d = .nop → step s = execNop s)) ∧
  (∀ (s : State) (w : Word), s.agenda = [] → s.turn.outcome = none → s.turn.stage = .fetch → s.pcb.draining = false →
    s.wordAt (s.phys s.pcb.pc) = some w → decode w = .instr .endOfProgram →
    ∃ u, { s with pcb := { s.pcb with mar := s.phys s.pcb.pc } }.memRead (s.phys s.pcb.pc) = some (w, u) ∧
      step s = exec .endOfProgram { u with pcb := { u.pcb with ir := w } })

/-- R167: ID puts the decoded record of the word in `FD` into `DE`, reading and writing nothing else. -/
def Obligations.DecodeStageFillsDE : Prop :=
  ∀ (s : State), s.agenda = [] → s.turn.outcome = none → s.turn.stage = .id →
    (∀ slot, s.pcb.fd = some slot → step s = .next { s with
      pcb := { s.pcb with fd := none, de := some { ipc := slot.ipc, d := decode slot.word } }
      turn := { s.turn with stage := .fetch } }) ∧
    (s.pcb.fd = none → step s = .next { s with turn := { s.turn with stage := .fetch } })

/-- R168, R37, R40, R41: Fetch performs the MemRead of `phys(pc)` into `ir` with its address in `mar`; the sentinel starts the drain and
leaves `pc` and `FD`; any other word enters `FD` and `pc` advances by 4; out of range raises, with `pc`,
`ir`, the drain and every latch as they were (R331); while draining nothing is read. -/
def Obligations.FetchReadsTheNextWord : Prop :=
  ∀ (s : State), s.HierInv → s.agenda = [] → s.turn.outcome = none → s.turn.stage = .fetch →
    (s.pcb.draining = true → step s = .next { s with turn := { s.turn with stage := .check } }) ∧
    (∀ w, s.pcb.draining = false → s.wordAt (s.phys s.pcb.pc) = some w →
      ∃ t, step s = .next t ∧ t.pcb.mar = s.phys s.pcb.pc ∧ t.pcb.ir = w ∧
        (if w = 0xFFFFFFFF#32 then t.pcb.draining = true ∧ t.pcb.pc = s.pcb.pc ∧ t.pcb.fd = s.pcb.fd
          else t.pcb.draining = false ∧ t.pcb.pc = s.pcb.pc + 4#32 ∧ t.pcb.fd = some { word := w, ipc := s.pcb.pc }) ∧
        t.pcb.de = s.pcb.de ∧ t.pcb.em = s.pcb.em ∧ t.pcb.mw = s.pcb.mw ∧ (∀ r, t.reg r = s.reg r) ∧
        sameOutside s t ∧ sameMemory s t ∧ t.queue = s.queue ∧ t.turn.blockPending = s.turn.blockPending ∧
        t.pcb.counters.memReads = s.pcb.counters.memReads + 1 ∧ readsBy (s.phys s.pcb.pc) w s t ∧ t.turn.stage = .check) ∧
    (s.pcb.draining = false → s.wordAt (s.phys s.pcb.pc) = none →
      ∃ t, step s = .next t ∧ faultedWith (.memoryOutOfRange (s.phys s.pcb.pc)) s t ∧ t.pcb.mar = s.phys s.pcb.pc ∧
        t.pcb.pc = s.pcb.pc ∧ t.pcb.ir = s.pcb.ir ∧ t.pcb.draining = s.pcb.draining ∧ t.pcb.fd = s.pcb.fd ∧
        t.pcb.de = s.pcb.de ∧ t.pcb.em = s.pcb.em ∧ t.pcb.mw = s.pcb.mw)

/-- A word in range fetched into an otherwise empty pipeline is, one cycle later at the end of ID, the decoded record in `DE`, with
the cycle counted and every register and word of memory as it was (R160, R167, R168, R341). The count of steps is
the model's (log 1). -/
def Obligations.FetchedWordIsDecodedNextCycle : Prop :=
  ∀ (s : State) (w : Word), s.HierInv → s.agenda = [] → s.turn.outcome = none → s.turn.stage = .fetch →
    s.turn.blockPending = false → s.turn.cycles < s.pcb.quantum → s.pcb.draining = false →
    s.pcb.fd = none → s.pcb.de = none → s.pcb.em = none → s.pcb.mw = none →
    s.wordAt (s.phys s.pcb.pc) = some w → w ≠ 0xFFFFFFFF#32 →
    ∃ t, Host.Core.run Sys2Proof.core 8 s = .next t ∧ t.turn.stage = .fetch ∧ t.turn.outcome = none ∧
      t.pcb.de = some { ipc := s.pcb.pc, d := decode w } ∧ t.pcb.fd = none ∧ t.pcb.em = none ∧ t.pcb.mw = none ∧
      t.pcb.pc = s.pcb.pc + 4#32 ∧ (∀ r, t.reg r = s.reg r) ∧ sameMemory s t ∧ t.queue = s.queue ∧
      t.pcb.counters.pipelineCycles = s.pcb.counters.pipelineCycles + 1 ∧ t.turn.cycles = s.turn.cycles + 1

/-- R177, R341: at the start of a cycle a process draining with an empty pipeline finishes with no cycle counted; any other has the
cycle counted in `turn_cycles` and `pipeline_cycles`. -/
def Obligations.CycleStartCountsOrFinishes : Prop :=
  ∀ (s : State), s.agenda = [] → s.turn.outcome = none → s.turn.stage = .start →
    (s.drained = true → step s = .next { s with
      pcb := { s.pcb with status := .finished }
      turn := { stage := .start, cycles := 0, blockPending := false, outcome := some .finished } }) ∧
    (s.drained = false → step s = .next { s with
      pcb := { s.pcb with counters := { s.pcb.counters with
        pipelineCycles := s.pcb.counters.pipelineCycles + 1 } }
      turn := { s.turn with cycles := s.turn.cycles + 1, stage := .wb } })

/-- R178, R176: the end-of-cycle tests in their order: blocked, quantum expired (the process stays Running), finished, else the next
cycle. -/
def Obligations.EndOfCycleTests : Prop :=
  ∀ (s : State), s.agenda = [] → s.turn.outcome = none → s.turn.stage = .check →
    step s =
      if s.turn.blockPending = true then .next { s with
        pcb := { s.pcb with status := .blocked }
        turn := { stage := .start, cycles := 0, blockPending := false, outcome := some .blocked } }
      else if s.pcb.quantum ≤ s.turn.cycles then .next { s with
        pcb := { s.pcb with status := .running }
        turn := { stage := .start, cycles := 0, blockPending := false, outcome := some .quantumExpired } }
      else if s.pcb.draining = true ∧ s.pcb.fd = none ∧ s.pcb.de = none ∧ s.pcb.em = none ∧ s.pcb.mw = none then .next { s with
        pcb := { s.pcb with status := .finished }
        turn := { stage := .start, cycles := 0, blockPending := false, outcome := some .finished } }
      else .next { s with turn := { s.turn with stage := .start } }

/-- R161, R177: the parts of a cycle follow one another, oldest instruction's stage first, until the turn ends. That a step is one part,
and that MEM is two of them, `memEmit` coming between MEM and EX, is the model's split (log 1, DEDUCED), which these rules do not have. -/
def Obligations.StagesRunInOrder : Prop :=
  ∀ (s t : State), s.agenda = [] → s.turn.outcome = none → step s = .next t → t.turn.outcome = none →
    t.turn.stage = s.turn.stage.following

/-- R331, R180, R179: with no event due the core that still owns a Faulted, Finished or Blocked process does not run it: every step is
the fault recorded for a Faulted one, and changes nothing for the others; and no core is handed a process that is not Ready. That a
faulted core's steps are the fault, that the others wait, and that handing them out is refused are the model's form of it (log 2,
DEDUCED; log 9, DESIGN CHOICE; log 10, DEDUCED). -/
def Obligations.OnlyReadyProcessesRun : Prop :=
  (∀ (s : State) (f : Fault) (o : TurnOutcome), s.agenda = [] → s.turn.outcome = some o → o ≠ .idle →
    s.pcb.status = .faulted f → step s = .fault f) ∧
  (∀ (s : State) (o : TurnOutcome), s.agenda = [] → s.turn.outcome = some o →
    s.pcb.status = .finished ∨ s.pcb.status = .blocked → step s = .next s) ∧
  (∀ (s : State) (k : Nat) (p : Pcb) (o : TurnOutcome) (rest : List Event), s.agenda = .handPcb k :: rest →
    s.turn.outcome = some o → s.parked[k]? = some p → p.status ≠ .ready → step s = .refused (.pcbNotReady p.pid))

/-! ## Hazards -/

/-- R364, R366: the record right after an LW, whatever it is, reads in EX the registers' values from before the load, SW's store data
among them, in the very cycle whose MEM has read the word; the record two after it reads the loaded value, since WB runs first,
whatever record between them its MEM takes on, if that raises nothing. The counts of steps are the model's (log 1). -/
def Obligations.LoadUseHazard : Prop :=
  (∀ (s : State) (l : EmSlot) (r : DeSlot) (rt rs : RegIdx) (imm ea v : Word), s.HierInv → s.agenda = [] →
    s.turn.outcome = none → s.turn.stage = .mem → s.pcb.em = some l → l.d = .instr (.lw rt rs imm) → l.ea = some ea →
    s.wordAt (s.phys ea) = some v → s.pcb.de = some r →
    ∃ m t, Host.Core.run Sys2Proof.core 2 s = .next m ∧ Host.Core.run Sys2Proof.core 3 s = .next t ∧
      m.pcb.mw = some { ipc := l.ipc, d := l.d, ldata := some v } ∧ executedWith s.reg r m t) ∧
  (∀ (s : State) (l : MwSlot) (e : EmSlot) (r : DeSlot) (rt rs : RegIdx) (imm v : Word), s.agenda = [] →
    s.turn.outcome = none → s.turn.stage = .wb → s.pcb.mw = some l → l.d = .instr (.lw rt rs imm) → l.ldata = some v →
    s.pcb.em = some e → (∀ ea, e.ea = some ea → s.wordAt (s.phys ea) ≠ none) → s.pcb.de = some r →
    ∃ m t, Host.Core.run Sys2Proof.core 3 s = .next m ∧ Host.Core.run Sys2Proof.core 4 s = .next t ∧
      executedWith (fun j => if j = rt then v else s.reg j) r m t)

/-- R365: when the record right after an LW writes the same register in EX (register arithmetic, immediate arithmetic, LUI, LI), it
writes first and the LW's WB in the next cycle overwrites it. The hypotheses: a DIV there has a divisor, and nothing ends the turn in
between: a Fetch, if one is due, is in range, no block is pending, the quantum is not over. The counts of
steps are the model's (log 1). -/
def Obligations.LoadWriteAfterWriteHazard : Prop :=
  ∀ (s : State) (l : EmSlot) (r : DeSlot) (rt rs : RegIdx) (imm ea v : Word), s.HierInv → s.agenda = [] →
    s.turn.outcome = none → s.turn.stage = .mem → s.pcb.em = some l → l.d = .instr (.lw rt rs imm) → l.ea = some ea →
    s.wordAt (s.phys ea) = some v → s.pcb.de = some r → exDestination r.d = some rt →
    (∀ rd a b, r.d = .instr (.div rd a b) → s.reg b ≠ 0#32) →
    (s.pcb.draining = true ∨ s.wordAt (s.phys s.pcb.pc) ≠ none) → s.turn.blockPending = false →
    s.turn.cycles < s.pcb.quantum →
    (∃ m t, Host.Core.run Sys2Proof.core 2 s = .next m ∧ Host.Core.run Sys2Proof.core 3 s = .next t ∧
      executedWith s.reg r m t) ∧
    (∃ t, Host.Core.run Sys2Proof.core 8 s = .next t ∧ t.reg rt = v)

/-! ## External agents -/

/-- R91, R352: between turns a full invalidate empties the cache and the bookkeeping and changes no word of memory and nothing else.
That 'between turns' is about the active core, and that it is refused while that core's turn runs, are the model's choice (log 8,
DESIGN CHOICE). -/
def Obligations.FullInvalidateKeepsMemory : Prop :=
  ∀ (s : State) (rest : List Event), s.HierInv → s.agenda = .fullInvalidate :: rest →
    (∀ o, s.turn.outcome = some o →
      ∃ t, step s = .next t ∧ t.hier.cache = [] ∧ t.hier.order = [] ∧ sameMemory s t ∧
        t = { s with hier := t.hier, agenda := rest }) ∧
    (s.turn.outcome = none → step s = .refused .turnInProgress)

/-- R92, R352: between turns a partial invalidate removes exactly `floor(f * E)` of the E entries, changes no word of memory and nothing
else, and the remaining addresses keep their order; whichever set of that many addresses present is asked for, that set is the one
removed. That 'between turns' is about the active core, and that it is refused while that core's turn runs, are the model's choice
(log 8, DESIGN CHOICE). -/
def Obligations.PartialInvalidateRemovesTheFraction : Prop :=
  ∀ (s : State) (pick : List Nat) (rest : List Event), s.HierInv → s.agenda = .partialInvalidate pick :: rest →
    (∀ o, s.turn.outcome = some o →
      ∃ t, step s = .next t ∧ sameMemory s t ∧ t = { s with hier := t.hier, agenda := rest } ∧
        t.hier.cache.length + s.config.pollutionNum * s.hier.cache.length / s.config.pollutionDen = s.hier.cache.length ∧
        t.hier.order = s.hier.order.filter (fun a => t.hier.present.contains a) ∧
        (pick.Nodup → (∀ a ∈ pick, a ∈ s.hier.present) →
          pick.length = s.config.pollutionNum * s.hier.cache.length / s.config.pollutionDen →
          ∀ a, a ∈ t.hier.present ↔ a ∈ s.hier.present ∧ a ∉ pick)) ∧
    (s.turn.outcome = none → step s = .refused .turnInProgress)

/-- R99, R352: a loader write makes the word at its address the value written and leaves every other word as it was. That it changes no
process's counters is the model's choice (log 19, DEDUCED): R99 says only that its counters are no part of a process's at launch, and
R101 names the loaded process's counters as the ones it updates. -/
def Obligations.LoaderWritesOneWord : Prop :=
  ∀ (s : State) (a v : Word) (rest : List Event), s.HierInv → s.agenda = .loadWord a v :: rest → s.wordAt a ≠ none →
    ∃ t, step s = .next t ∧ (∀ b, t.wordAt b = if b = a then some v else s.wordAt b) ∧
      t = { s with hier := t.hier, agenda := rest }

/-- The turn interface (R175, R338, R351, R349): a Ready parked PCB handed to a core on which no turn runs starts a turn with it,
resumed exactly as it stands; the coordinator takes back the PCB of a turn that has ended and the core owns none; so a process whose
quantum expired on one core goes on, exactly as it stood, on another. The coordinator is outside the block (R7): that one who hands a
PCB to a core still holding one parks that one in its place, and the order of the parked PCBs, are the model's choice (log 9, DESIGN
CHOICE). -/
def Obligations.HandedPcbStartsItsTurn : Prop :=
  (∀ (s : State) (k : Nat) (p : Pcb) (o : TurnOutcome) (rest : List Event), s.agenda = .handPcb k :: rest →
    s.turn.outcome = some o → s.parked[k]? = some p → p.status = .ready →
    step s = .next { s with
      pcb := { p with status := .running }
      turn := { stage := .start, cycles := 0, blockPending := false, outcome := none }
      parked := if o = .idle then s.parked.eraseIdx k
        else s.parked.set k (if s.pcb.status = .running then { s.pcb with status := .ready } else s.pcb)
      agenda := rest }) ∧
  (∀ (s : State) (o : TurnOutcome) (rest : List Event), s.agenda = .takePcb :: rest → s.turn.outcome = some o → o ≠ .idle →
    step s = .next { s with
      pcb := Pcb.absent
      turn := Turn.idle
      parked := s.parked ++ [if s.pcb.status = .running then { s.pcb with status := .ready } else s.pcb]
      agenda := rest }) ∧
  (∀ (s : State) (k : Nat) (c : CoreCtx) (o : TurnOutcome) (rest : List Event),
    s.agenda = .takePcb :: .switchCore k :: .handPcb s.parked.length :: rest → s.turn.outcome = some o → o ≠ .idle →
    s.pcb.status = .running ∨ s.pcb.status = .ready → s.others[k]? = some c → c.turn.outcome = some .idle →
    Host.Core.run Sys2Proof.core 3 s = .next { s with
      coreId := c.id
      pcb := { s.pcb with status := .running }
      turn := { stage := .start, cycles := 0, blockPending := false, outcome := none }
      others := s.others.set k (CoreCtx.idle s.coreId)
      agenda := rest })

/-- R361, R363, R51: the loader creates the PCB of a process whose id is not in use in the reset state, with the fields it sets. Its
status, Ready, is the model's choice (log 6, DESIGN CHOICE): these rules give none. -/
def Obligations.LaunchCreatesAResetProcess : Prop :=
  ∀ (s : State) (pid : Nat) (base : Word) (quantum wCache wPrimary wSecondary : Nat) (rest : List Event),
    s.agenda = .launch pid base quantum wCache wPrimary wSecondary :: rest → 1 ≤ quantum → pid ∉ s.pids →
    ∃ p, step s = .next { s with parked := s.parked ++ [p], agenda := rest } ∧
      p.pid = pid ∧ p.base = base ∧ p.quantum = quantum ∧ p.wCache = wCache ∧ p.wPrimary = wPrimary ∧
      p.wSecondary = wSecondary ∧ (∀ r, p.reg r = 0#32) ∧ p.pc = 0#32 ∧ p.mar = 0#32 ∧ p.ir = 0#32 ∧ p.fd = none ∧
      p.de = none ∧ p.em = none ∧ p.mw = none ∧ p.draining = false ∧ p.counters = ⟨0, 0, 0, 0, 0, 0, 0, 0, 0, 0⟩ ∧
      p.status = .ready

/-- R93, R94: memory is shared and sequentially consistent: the word an SW of one core stores in its MEM is the word an LW of another
core, next in the order, reads from the same physical address. That each MEM is one step is the
model's (log 1). -/
def Obligations.OtherCoreLoadsTheStoredWord : Prop :=
  ∀ (s : State) (k : Nat) (c : CoreCtx) (l r : EmSlot) (rt rs rt' rs' : RegIdx) (imm imm' ea ea' v : Word)
    (rest : List Event), s.HierInv → s.agenda = .run :: .switchCore k :: .run :: rest →
    s.turn.outcome = none → s.turn.stage = .mem → s.pcb.em = some l → l.d = .instr (.sw rt rs imm) → l.ea = some ea →
    l.sdata = some v → s.wordAt (s.phys ea) ≠ none →
    s.others[k]? = some c → c.turn.outcome = none → c.turn.stage = .mem → c.pcb.em = some r →
    r.d = .instr (.lw rt' rs' imm') → r.ea = some ea' → c.pcb.base + ea' = s.phys ea →
    ∃ t, Host.Core.run Sys2Proof.core 3 s = .next t ∧ t.coreId = c.id ∧
      t.pcb.mw = some { ipc := r.ipc, d := r.d, ldata := some v }

/-- R312, R179, R352: the I/O manager removes any request the queue holds, and changes nothing else; it moves the process it unblocks
from Blocked to Ready wherever its PCB is, and changes nothing else. That unblocking a process that is not Blocked, or none, changes
nothing at all is the model's choice (log 24, DESIGN CHOICE). -/
def Obligations.IoManagerTakesRequestsAndUnblocks : Prop :=
  (∀ (s : State) (k : Nat) (q : Request) (rest : List Event), s.agenda = .takeRequest k :: rest → s.queue[k]? = some q →
    ∃ t, step s = .next t ∧ t = { s with queue := t.queue, agenda := rest } ∧ t.queue.length + 1 = s.queue.length ∧
      (∀ j, t.queue[j]? = if j < k then s.queue[j]? else s.queue[j + 1]?)) ∧
  (∀ (s : State) (pid : Nat) (rest : List Event), s.agenda = .unblock pid :: rest →
    ∃ (t : State) (wake : Pcb → Pcb), step s = .next t ∧
      (∀ p : Pcb, wake p = if p.pid = pid ∧ p.status = .blocked then { p with status := .ready } else p) ∧
      t = { s with
        pcb := wake s.pcb
        others := s.others.map (fun c => { c with pcb := wake c.pcb })
        parked := s.parked.map wake
        agenda := rest })

/-! ## Invariants and whole-machine rules -/

/-- The canonical form of memory, the bookkeeping and the coherence of the cache are kept by every step, of whatever agent (R79, R82,
R84, R85, R91, R92). -/
def Obligations.StepKeepsHierarchy : Prop :=
  ∀ s t : State, s.HierInv → step s = .next t → t.HierInv

/-- R344, R345: every step keeps the counter laws of every process. -/
def Obligations.StepKeepsCounterLaws : Prop :=
  ∀ s t : State, s.CountersInv → step s = .next t → t.CountersInv

/-- R45, R133, R169: every step keeps the latches: no sentinel and no END in flight, every record well formed, and the fields its tag
needs present. -/
def Obligations.StepKeepsLatches : Prop :=
  ∀ s t : State, s.LatchInv → step s = .next t → t.LatchInv

/-- R176, R48, R351: every step keeps each turn within its quantum, the per-turn state discarded at its end, and no parked PCB
Running. -/
def Obligations.StepKeepsTurnsWithinQuantum : Prop :=
  ∀ s t : State, s.TurnInv → step s = .next t → t.TurnInv

/-- The invariants hold right after reset. -/
def Obligations.ResetMeetsTheInvariants : Prop :=
  State.reset.HierInv ∧ State.reset.CountersInv ∧ State.reset.LatchInv ∧ State.reset.TurnInv ∧ State.reset.CoresInv ∧
  State.reset.pids.Nodup

/-- R51: the process right after reset. -/
def Obligations.ResetIsTheLaunchState : Prop :=
  (∀ r, State.reset.reg r = 0#32) ∧ State.reset.pcb.pc = 0#32 ∧ State.reset.pcb.mar = 0#32 ∧ State.reset.pcb.ir = 0#32 ∧
  State.reset.pcb.fd = none ∧ State.reset.pcb.de = none ∧ State.reset.pcb.em = none ∧ State.reset.pcb.mw = none ∧
  State.reset.pcb.draining = false ∧ State.reset.pcb.counters = ⟨0, 0, 0, 0, 0, 0, 0, 0, 0, 0⟩ ∧
  State.reset.turn.cycles = 0 ∧ State.reset.turn.blockPending = false

/-- R34, R164, R166: no step of the core changes a general register but the destination of the record in EX, or of the load in WB. -/
def Obligations.RegistersChangeOnlyAsDestinations : Prop :=
  ∀ (s t : State) (r : RegIdx), s.agenda = [] → step s = .next t → t.reg r ≠ s.reg r → s.registerAtStake = some r

/-- R90, R165: no step of the core changes a word of memory but the one an SW in MEM stores, which becomes its store data. -/
def Obligations.MemoryChangesOnlyByStores : Prop :=
  ∀ (s t : State), s.HierInv → s.agenda = [] → step s = .next t →
    ∀ a : Word, t.wordAt a = match s.storeAtStake with
      | some (b, v) => if a = b ∧ s.wordAt b ≠ none then some v else s.wordAt a
      | none => s.wordAt a

/-- R90: the cache is transparent. Two machines that show a program the same values, whatever their caches, replacement policies,
tier splits and weights, take the same step: the same values again, or the same fault. -/
def Obligations.CacheIsTransparent : Prop :=
  ∀ s t : State, s.HierInv → t.HierInv → s.agenda = [] → t.agenda = [] → sameValues s t → sameOutcome (step s) (step t)

/-- R43, R349, R350: a step of the core changes no configuration, no field the loader set, no other core and no parked PCB; it is the
same step whatever other events follow it; and when another core is the next to move, the two contexts change places, each as it
stood, and nothing else changes. That the outside brings its events, the core's own steps among them, one by one in an agenda is the
model's (log 8, DESIGN CHOICE). -/
def Obligations.CoresActOnTheirOwnContext : Prop :=
  (∀ s t : State, s.agenda = [] → step s = .next t →
    t.config = s.config ∧ t.coreId = s.coreId ∧ t.others = s.others ∧ t.parked = s.parked ∧ t.agenda = [] ∧
    t.pcb.pid = s.pcb.pid ∧ t.pcb.base = s.pcb.base ∧ t.pcb.quantum = s.pcb.quantum ∧
    t.pcb.wCache = s.pcb.wCache ∧ t.pcb.wPrimary = s.pcb.wPrimary ∧ t.pcb.wSecondary = s.pcb.wSecondary) ∧
  (∀ (s : State) (rest : List Event), s.agenda = .run :: rest →
    step s = match step { s with agenda := [] } with
      | .next t => .next { t with agenda := rest }
      | .fault f => .fault f
      | .refused r => .refused r) ∧
  (∀ (s : State) (k : Nat) (c : CoreCtx) (rest : List Event), s.agenda = .switchCore k :: rest → s.others[k]? = some c →
    step s = .next { s with
      coreId := c.id
      pcb := c.pcb
      turn := c.turn
      others := s.others.set k { id := s.coreId, pcb := s.pcb, turn := s.turn }
      agenda := rest })

/-- R312, R310, R311: a step of the core leaves the output queue as it is, or appends the one request of a PRINT_REG in EX or of a
PRINT_MEM in MEM. That PRINT_MEM emits in a second half of MEM, the word it read standing in the slot's `ldata`, is the model's choice
(log 1, DEDUCED): R311 has one MEM, and R45 gives `ldata` to LW alone. -/
def Obligations.OnlyPrintsAppendRequests : Prop :=
  ∀ s t : State, s.agenda = [] → step s = .next t →
    t.queue = s.queue ∨
    ∃ v, t.queue = s.queue ++ [{ pid := s.pcb.pid, value := v }] ∧
      ((s.turn.stage = .ex ∧ ∃ slot rt, s.pcb.de = some slot ∧ slot.d = .instr (.printReg rt) ∧ v = s.reg rt) ∨
        (s.turn.stage = .memEmit ∧ ∃ slot rs imm, s.pcb.mw = some slot ∧ slot.d = .instr (.printMem rs imm) ∧
          slot.ldata = some v))

/-- R349: the numbers of the cores stay 0 to `N_CORES` - 1, each once, at every step. Process ids that are distinct stay distinct: that no
step puts one PCB in two places follows R351 (at most one core runs it), but that a new process never takes an id in use is the model's
choice, since `launchPcb` refuses it (log 25, DESIGN CHOICE): the spec does not say that ids are unique. -/
def Obligations.StepKeepsProcessAndCoreIdsDistinct : Prop :=
  ∀ s t : State, step s = .next t → (s.pids.Nodup → t.pids.Nodup) ∧ (s.CoresInv → t.CoresInv)
end

