-- ==== Sys2Proof/Laws/State.lean ====
section
/-! SUPPORT. One lemma per field of the state and update of it, so that no later proof unfolds a record update; reading a register
after a write. -/

namespace Sys2Proof.Machine

/-! ## onPcb -/

@[simp] theorem State.onPcb_config (f : Pcb → Pcb) (s : State) : (s.onPcb f).config = s.config := rfl
@[simp] theorem State.onPcb_hier (f : Pcb → Pcb) (s : State) : (s.onPcb f).hier = s.hier := rfl
@[simp] theorem State.onPcb_queue (f : Pcb → Pcb) (s : State) : (s.onPcb f).queue = s.queue := rfl
@[simp] theorem State.onPcb_coreId (f : Pcb → Pcb) (s : State) : (s.onPcb f).coreId = s.coreId := rfl
@[simp] theorem State.onPcb_pcb (f : Pcb → Pcb) (s : State) : (s.onPcb f).pcb = f s.pcb := rfl
@[simp] theorem State.onPcb_turn (f : Pcb → Pcb) (s : State) : (s.onPcb f).turn = s.turn := rfl
@[simp] theorem State.onPcb_others (f : Pcb → Pcb) (s : State) : (s.onPcb f).others = s.others := rfl
@[simp] theorem State.onPcb_parked (f : Pcb → Pcb) (s : State) : (s.onPcb f).parked = s.parked := rfl
@[simp] theorem State.onPcb_agenda (f : Pcb → Pcb) (s : State) : (s.onPcb f).agenda = s.agenda := rfl

/-! ## onTurn -/

@[simp] theorem State.onTurn_config (f : Turn → Turn) (s : State) : (s.onTurn f).config = s.config := rfl
@[simp] theorem State.onTurn_hier (f : Turn → Turn) (s : State) : (s.onTurn f).hier = s.hier := rfl
@[simp] theorem State.onTurn_queue (f : Turn → Turn) (s : State) : (s.onTurn f).queue = s.queue := rfl
@[simp] theorem State.onTurn_coreId (f : Turn → Turn) (s : State) : (s.onTurn f).coreId = s.coreId := rfl
@[simp] theorem State.onTurn_pcb (f : Turn → Turn) (s : State) : (s.onTurn f).pcb = s.pcb := rfl
@[simp] theorem State.onTurn_turn (f : Turn → Turn) (s : State) : (s.onTurn f).turn = f s.turn := rfl
@[simp] theorem State.onTurn_others (f : Turn → Turn) (s : State) : (s.onTurn f).others = s.others := rfl
@[simp] theorem State.onTurn_parked (f : Turn → Turn) (s : State) : (s.onTurn f).parked = s.parked := rfl
@[simp] theorem State.onTurn_agenda (f : Turn → Turn) (s : State) : (s.onTurn f).agenda = s.agenda := rfl

/-! ## onHier -/

@[simp] theorem State.onHier_config (f : Hierarchy → Hierarchy) (s : State) : (s.onHier f).config = s.config := rfl
@[simp] theorem State.onHier_hier (f : Hierarchy → Hierarchy) (s : State) : (s.onHier f).hier = f s.hier := rfl
@[simp] theorem State.onHier_queue (f : Hierarchy → Hierarchy) (s : State) : (s.onHier f).queue = s.queue := rfl
@[simp] theorem State.onHier_coreId (f : Hierarchy → Hierarchy) (s : State) : (s.onHier f).coreId = s.coreId := rfl
@[simp] theorem State.onHier_pcb (f : Hierarchy → Hierarchy) (s : State) : (s.onHier f).pcb = s.pcb := rfl
@[simp] theorem State.onHier_turn (f : Hierarchy → Hierarchy) (s : State) : (s.onHier f).turn = s.turn := rfl
@[simp] theorem State.onHier_others (f : Hierarchy → Hierarchy) (s : State) : (s.onHier f).others = s.others := rfl
@[simp] theorem State.onHier_parked (f : Hierarchy → Hierarchy) (s : State) : (s.onHier f).parked = s.parked := rfl
@[simp] theorem State.onHier_agenda (f : Hierarchy → Hierarchy) (s : State) : (s.onHier f).agenda = s.agenda := rfl

/-! ## toStage -/

@[simp] theorem State.toStage_config (g : Stage) (s : State) : (s.toStage g).config = s.config := rfl
@[simp] theorem State.toStage_hier (g : Stage) (s : State) : (s.toStage g).hier = s.hier := rfl
@[simp] theorem State.toStage_queue (g : Stage) (s : State) : (s.toStage g).queue = s.queue := rfl
@[simp] theorem State.toStage_coreId (g : Stage) (s : State) : (s.toStage g).coreId = s.coreId := rfl
@[simp] theorem State.toStage_pcb (g : Stage) (s : State) : (s.toStage g).pcb = s.pcb := rfl
@[simp] theorem State.toStage_turn (g : Stage) (s : State) : (s.toStage g).turn = { s.turn with stage := g } := rfl
@[simp] theorem State.toStage_others (g : Stage) (s : State) : (s.toStage g).others = s.others := rfl
@[simp] theorem State.toStage_parked (g : Stage) (s : State) : (s.toStage g).parked = s.parked := rfl
@[simp] theorem State.toStage_agenda (g : Stage) (s : State) : (s.toStage g).agenda = s.agenda := rfl

/-! ## onCounters -/

@[simp] theorem State.onCounters_config (f : Counters → Counters) (s : State) : (s.onCounters f).config = s.config := rfl
@[simp] theorem State.onCounters_hier (f : Counters → Counters) (s : State) : (s.onCounters f).hier = s.hier := rfl
@[simp] theorem State.onCounters_queue (f : Counters → Counters) (s : State) : (s.onCounters f).queue = s.queue := rfl
@[simp] theorem State.onCounters_coreId (f : Counters → Counters) (s : State) : (s.onCounters f).coreId = s.coreId := rfl
@[simp] theorem State.onCounters_pcb (f : Counters → Counters) (s : State) :
    (s.onCounters f).pcb = { s.pcb with counters := f s.pcb.counters } := rfl
@[simp] theorem State.onCounters_turn (f : Counters → Counters) (s : State) : (s.onCounters f).turn = s.turn := rfl
@[simp] theorem State.onCounters_others (f : Counters → Counters) (s : State) : (s.onCounters f).others = s.others := rfl
@[simp] theorem State.onCounters_parked (f : Counters → Counters) (s : State) : (s.onCounters f).parked = s.parked := rfl
@[simp] theorem State.onCounters_agenda (f : Counters → Counters) (s : State) : (s.onCounters f).agenda = s.agenda := rfl

/-! ## setReg -/

@[simp] theorem State.setReg_config (i : RegIdx) (v : Word) (s : State) : (s.setReg i v).config = s.config := rfl
@[simp] theorem State.setReg_hier (i : RegIdx) (v : Word) (s : State) : (s.setReg i v).hier = s.hier := rfl
@[simp] theorem State.setReg_queue (i : RegIdx) (v : Word) (s : State) : (s.setReg i v).queue = s.queue := rfl
@[simp] theorem State.setReg_coreId (i : RegIdx) (v : Word) (s : State) : (s.setReg i v).coreId = s.coreId := rfl
@[simp] theorem State.setReg_pcb (i : RegIdx) (v : Word) (s : State) : (s.setReg i v).pcb = s.pcb.setReg i v := rfl
@[simp] theorem State.setReg_turn (i : RegIdx) (v : Word) (s : State) : (s.setReg i v).turn = s.turn := rfl
@[simp] theorem State.setReg_others (i : RegIdx) (v : Word) (s : State) : (s.setReg i v).others = s.others := rfl
@[simp] theorem State.setReg_parked (i : RegIdx) (v : Word) (s : State) : (s.setReg i v).parked = s.parked := rfl
@[simp] theorem State.setReg_agenda (i : RegIdx) (v : Word) (s : State) : (s.setReg i v).agenda = s.agenda := rfl
@[simp] theorem Pcb.setReg_pid (i : RegIdx) (v : Word) (p : Pcb) : (p.setReg i v).pid = p.pid := rfl
@[simp] theorem Pcb.setReg_base (i : RegIdx) (v : Word) (p : Pcb) : (p.setReg i v).base = p.base := rfl
@[simp] theorem Pcb.setReg_quantum (i : RegIdx) (v : Word) (p : Pcb) : (p.setReg i v).quantum = p.quantum := rfl
@[simp] theorem Pcb.setReg_wCache (i : RegIdx) (v : Word) (p : Pcb) : (p.setReg i v).wCache = p.wCache := rfl
@[simp] theorem Pcb.setReg_wPrimary (i : RegIdx) (v : Word) (p : Pcb) : (p.setReg i v).wPrimary = p.wPrimary := rfl
@[simp] theorem Pcb.setReg_wSecondary (i : RegIdx) (v : Word) (p : Pcb) : (p.setReg i v).wSecondary = p.wSecondary := rfl
@[simp] theorem Pcb.setReg_pc (i : RegIdx) (v : Word) (p : Pcb) : (p.setReg i v).pc = p.pc := rfl
@[simp] theorem Pcb.setReg_mar (i : RegIdx) (v : Word) (p : Pcb) : (p.setReg i v).mar = p.mar := rfl
@[simp] theorem Pcb.setReg_ir (i : RegIdx) (v : Word) (p : Pcb) : (p.setReg i v).ir = p.ir := rfl
@[simp] theorem Pcb.setReg_fd (i : RegIdx) (v : Word) (p : Pcb) : (p.setReg i v).fd = p.fd := rfl
@[simp] theorem Pcb.setReg_de (i : RegIdx) (v : Word) (p : Pcb) : (p.setReg i v).de = p.de := rfl
@[simp] theorem Pcb.setReg_em (i : RegIdx) (v : Word) (p : Pcb) : (p.setReg i v).em = p.em := rfl
@[simp] theorem Pcb.setReg_mw (i : RegIdx) (v : Word) (p : Pcb) : (p.setReg i v).mw = p.mw := rfl
@[simp] theorem Pcb.setReg_draining (i : RegIdx) (v : Word) (p : Pcb) : (p.setReg i v).draining = p.draining := rfl
@[simp] theorem Pcb.setReg_counters (i : RegIdx) (v : Word) (p : Pcb) : (p.setReg i v).counters = p.counters := rfl
@[simp] theorem Pcb.setReg_status (i : RegIdx) (v : Word) (p : Pcb) : (p.setReg i v).status = p.status := rfl

/-! ## endTurn, raise, startTurn -/

@[simp] theorem State.endTurn_config (o : TurnOutcome) (st : ProcStatus) (s : State) : (s.endTurn o st).config = s.config := rfl
@[simp] theorem State.endTurn_hier (o : TurnOutcome) (st : ProcStatus) (s : State) : (s.endTurn o st).hier = s.hier := rfl
@[simp] theorem State.endTurn_queue (o : TurnOutcome) (st : ProcStatus) (s : State) : (s.endTurn o st).queue = s.queue := rfl
@[simp] theorem State.endTurn_coreId (o : TurnOutcome) (st : ProcStatus) (s : State) : (s.endTurn o st).coreId = s.coreId := rfl
@[simp] theorem State.endTurn_pcb (o : TurnOutcome) (st : ProcStatus) (s : State) :
    (s.endTurn o st).pcb = { s.pcb with status := st } := rfl
@[simp] theorem State.endTurn_turn (o : TurnOutcome) (st : ProcStatus) (s : State) :
    (s.endTurn o st).turn = { Turn.fresh with outcome := some o } := rfl
@[simp] theorem State.endTurn_others (o : TurnOutcome) (st : ProcStatus) (s : State) : (s.endTurn o st).others = s.others := rfl
@[simp] theorem State.endTurn_parked (o : TurnOutcome) (st : ProcStatus) (s : State) : (s.endTurn o st).parked = s.parked := rfl
@[simp] theorem State.endTurn_agenda (o : TurnOutcome) (st : ProcStatus) (s : State) : (s.endTurn o st).agenda = s.agenda := rfl
@[simp] theorem State.raise_config (f : Fault) (s : State) : (s.raise f).config = s.config := rfl
@[simp] theorem State.raise_hier (f : Fault) (s : State) : (s.raise f).hier = s.hier := rfl
@[simp] theorem State.raise_queue (f : Fault) (s : State) : (s.raise f).queue = s.queue := rfl
@[simp] theorem State.raise_coreId (f : Fault) (s : State) : (s.raise f).coreId = s.coreId := rfl
@[simp] theorem State.raise_pcb (f : Fault) (s : State) : (s.raise f).pcb = { s.pcb with status := .faulted f } := rfl
@[simp] theorem State.raise_turn (f : Fault) (s : State) : (s.raise f).turn = { Turn.fresh with outcome := some .faulted } := rfl
@[simp] theorem State.raise_others (f : Fault) (s : State) : (s.raise f).others = s.others := rfl
@[simp] theorem State.raise_parked (f : Fault) (s : State) : (s.raise f).parked = s.parked := rfl
@[simp] theorem State.raise_agenda (f : Fault) (s : State) : (s.raise f).agenda = s.agenda := rfl
@[simp] theorem State.startTurn_config (s : State) : s.startTurn.config = s.config := rfl
@[simp] theorem State.startTurn_hier (s : State) : s.startTurn.hier = s.hier := rfl
@[simp] theorem State.startTurn_queue (s : State) : s.startTurn.queue = s.queue := rfl
@[simp] theorem State.startTurn_coreId (s : State) : s.startTurn.coreId = s.coreId := rfl
@[simp] theorem State.startTurn_pcb (s : State) : s.startTurn.pcb = { s.pcb with status := .running } := rfl
@[simp] theorem State.startTurn_turn (s : State) : s.startTurn.turn = Turn.fresh := rfl
@[simp] theorem State.startTurn_others (s : State) : s.startTurn.others = s.others := rfl
@[simp] theorem State.startTurn_parked (s : State) : s.startTurn.parked = s.parked := rfl
@[simp] theorem State.startTurn_agenda (s : State) : s.startTurn.agenda = s.agenda := rfl
@[simp] theorem Turn.fresh_stage : Turn.fresh.stage = .start := rfl
@[simp] theorem Turn.fresh_cycles : Turn.fresh.cycles = 0 := rfl
@[simp] theorem Turn.fresh_blockPending : Turn.fresh.blockPending = false := rfl
@[simp] theorem Turn.fresh_outcome : Turn.fresh.outcome = none := rfl

/-! ## emit, raiseOutput -/

@[simp] theorem State.emit_config (q : Request) (s : State) : (s.emit q).config = s.config := rfl
@[simp] theorem State.emit_hier (q : Request) (s : State) : (s.emit q).hier = s.hier := rfl
@[simp] theorem State.emit_queue (q : Request) (s : State) : (s.emit q).queue = s.queue ++ [q] := rfl
@[simp] theorem State.emit_coreId (q : Request) (s : State) : (s.emit q).coreId = s.coreId := rfl
@[simp] theorem State.emit_pcb (q : Request) (s : State) : (s.emit q).pcb = s.pcb := rfl
@[simp] theorem State.emit_turn (q : Request) (s : State) : (s.emit q).turn = s.turn := rfl
@[simp] theorem State.emit_others (q : Request) (s : State) : (s.emit q).others = s.others := rfl
@[simp] theorem State.emit_parked (q : Request) (s : State) : (s.emit q).parked = s.parked := rfl
@[simp] theorem State.emit_agenda (q : Request) (s : State) : (s.emit q).agenda = s.agenda := rfl
@[simp] theorem State.raiseOutput_config (v : Word) (s : State) :
    (s.raiseOutput v).config = s.config := by
  unfold State.raiseOutput; split <;> rfl
@[simp] theorem State.raiseOutput_hier (v : Word) (s : State) :
    (s.raiseOutput v).hier = s.hier := by
  unfold State.raiseOutput; split <;> rfl
@[simp] theorem State.raiseOutput_queue (v : Word) (s : State) :
    (s.raiseOutput v).queue = s.queue ++ [{ pid := s.pcb.pid, value := v }] := by
  unfold State.raiseOutput; split <;> rfl
@[simp] theorem State.raiseOutput_coreId (v : Word) (s : State) :
    (s.raiseOutput v).coreId = s.coreId := by
  unfold State.raiseOutput; split <;> rfl
@[simp] theorem State.raiseOutput_pcb (v : Word) (s : State) :
    (s.raiseOutput v).pcb = s.pcb := by
  unfold State.raiseOutput; split <;> rfl
@[simp] theorem State.raiseOutput_others (v : Word) (s : State) :
    (s.raiseOutput v).others = s.others := by
  unfold State.raiseOutput; split <;> rfl
@[simp] theorem State.raiseOutput_parked (v : Word) (s : State) :
    (s.raiseOutput v).parked = s.parked := by
  unfold State.raiseOutput; split <;> rfl
@[simp] theorem State.raiseOutput_agenda (v : Word) (s : State) :
    (s.raiseOutput v).agenda = s.agenda := by
  unfold State.raiseOutput; split <;> rfl
@[simp] theorem State.raiseOutput_turn (v : Word) (s : State) :
    (s.raiseOutput v).turn = { s.turn with blockPending := s.turn.blockPending || s.config.printBlocking } := by
  unfold State.raiseOutput; split <;> simp_all

/-! ## retire -/

@[simp] theorem retire_config (s : State) : (retire s).config = s.config := rfl
@[simp] theorem retire_hier (s : State) : (retire s).hier = s.hier := rfl
@[simp] theorem retire_queue (s : State) : (retire s).queue = s.queue := rfl
@[simp] theorem retire_coreId (s : State) : (retire s).coreId = s.coreId := rfl
@[simp] theorem retire_pcb (s : State) :
    (retire s).pcb = { s.pcb with mw := none, counters := { s.pcb.counters with instructions := s.pcb.counters.instructions + 1 } } := rfl
@[simp] theorem retire_turn (s : State) : (retire s).turn = { s.turn with stage := .mem } := rfl
@[simp] theorem retire_others (s : State) : (retire s).others = s.others := rfl
@[simp] theorem retire_parked (s : State) : (retire s).parked = s.parked := rfl
@[simp] theorem retire_agenda (s : State) : (retire s).agenda = s.agenda := rfl

/-! ## Counters -/

@[simp] theorem Counters.countRead_pipelineCycles (k : Counters) : (k.countRead).pipelineCycles = k.pipelineCycles := rfl
@[simp] theorem Counters.countRead_instructions (k : Counters) : (k.countRead).instructions = k.instructions := rfl
@[simp] theorem Counters.countRead_memReads (k : Counters) : (k.countRead).memReads = k.memReads + 1 := rfl
@[simp] theorem Counters.countRead_memWrites (k : Counters) : (k.countRead).memWrites = k.memWrites := rfl
@[simp] theorem Counters.countRead_memAccessesTotal (k : Counters) :
    (k.countRead).memAccessesTotal = k.memAccessesTotal + 1 := rfl
@[simp] theorem Counters.countRead_cacheHits (k : Counters) : (k.countRead).cacheHits = k.cacheHits := rfl
@[simp] theorem Counters.countRead_cacheMisses (k : Counters) : (k.countRead).cacheMisses = k.cacheMisses := rfl
@[simp] theorem Counters.countRead_primaryAccesses (k : Counters) : (k.countRead).primaryAccesses = k.primaryAccesses := rfl
@[simp] theorem Counters.countRead_secondaryAccesses (k : Counters) : (k.countRead).secondaryAccesses = k.secondaryAccesses := rfl
@[simp] theorem Counters.countRead_memoryCycles (k : Counters) : (k.countRead).memoryCycles = k.memoryCycles := rfl
@[simp] theorem Counters.countWrite_pipelineCycles (k : Counters) : (k.countWrite).pipelineCycles = k.pipelineCycles := rfl
@[simp] theorem Counters.countWrite_instructions (k : Counters) : (k.countWrite).instructions = k.instructions := rfl
@[simp] theorem Counters.countWrite_memReads (k : Counters) : (k.countWrite).memReads = k.memReads := rfl
@[simp] theorem Counters.countWrite_memWrites (k : Counters) : (k.countWrite).memWrites = k.memWrites + 1 := rfl
@[simp] theorem Counters.countWrite_memAccessesTotal (k : Counters) :
    (k.countWrite).memAccessesTotal = k.memAccessesTotal + 1 := rfl
@[simp] theorem Counters.countWrite_cacheHits (k : Counters) : (k.countWrite).cacheHits = k.cacheHits := rfl
@[simp] theorem Counters.countWrite_cacheMisses (k : Counters) : (k.countWrite).cacheMisses = k.cacheMisses := rfl
@[simp] theorem Counters.countWrite_primaryAccesses (k : Counters) : (k.countWrite).primaryAccesses = k.primaryAccesses := rfl
@[simp] theorem Counters.countWrite_secondaryAccesses (k : Counters) :
    (k.countWrite).secondaryAccesses = k.secondaryAccesses := rfl
@[simp] theorem Counters.countWrite_memoryCycles (k : Counters) : (k.countWrite).memoryCycles = k.memoryCycles := rfl
@[simp] theorem Counters.countHit_pipelineCycles (w : Nat) (k : Counters) :
    (k.countHit w).pipelineCycles = k.pipelineCycles := rfl
@[simp] theorem Counters.countHit_instructions (w : Nat) (k : Counters) : (k.countHit w).instructions = k.instructions := rfl
@[simp] theorem Counters.countHit_memReads (w : Nat) (k : Counters) : (k.countHit w).memReads = k.memReads := rfl
@[simp] theorem Counters.countHit_memWrites (w : Nat) (k : Counters) : (k.countHit w).memWrites = k.memWrites := rfl
@[simp] theorem Counters.countHit_memAccessesTotal (w : Nat) (k : Counters) :
    (k.countHit w).memAccessesTotal = k.memAccessesTotal := rfl
@[simp] theorem Counters.countHit_cacheHits (w : Nat) (k : Counters) : (k.countHit w).cacheHits = k.cacheHits + 1 := rfl
@[simp] theorem Counters.countHit_cacheMisses (w : Nat) (k : Counters) : (k.countHit w).cacheMisses = k.cacheMisses := rfl
@[simp] theorem Counters.countHit_primaryAccesses (w : Nat) (k : Counters) :
    (k.countHit w).primaryAccesses = k.primaryAccesses := rfl
@[simp] theorem Counters.countHit_secondaryAccesses (w : Nat) (k : Counters) :
    (k.countHit w).secondaryAccesses = k.secondaryAccesses := rfl
@[simp] theorem Counters.countHit_memoryCycles (w : Nat) (k : Counters) : (k.countHit w).memoryCycles = k.memoryCycles + w := rfl
@[simp] theorem Counters.countMiss_primary_pipelineCycles (p q : Nat) (k : Counters) :
    (k.countMiss .primary p q).pipelineCycles = k.pipelineCycles := rfl
@[simp] theorem Counters.countMiss_primary_instructions (p q : Nat) (k : Counters) :
    (k.countMiss .primary p q).instructions = k.instructions := rfl
@[simp] theorem Counters.countMiss_primary_memReads (p q : Nat) (k : Counters) :
    (k.countMiss .primary p q).memReads = k.memReads := rfl
@[simp] theorem Counters.countMiss_primary_memWrites (p q : Nat) (k : Counters) :
    (k.countMiss .primary p q).memWrites = k.memWrites := rfl
@[simp] theorem Counters.countMiss_primary_memAccessesTotal (p q : Nat) (k : Counters) :
    (k.countMiss .primary p q).memAccessesTotal = k.memAccessesTotal := rfl
@[simp] theorem Counters.countMiss_primary_cacheHits (p q : Nat) (k : Counters) :
    (k.countMiss .primary p q).cacheHits = k.cacheHits := rfl
@[simp] theorem Counters.countMiss_primary_cacheMisses (p q : Nat) (k : Counters) :
    (k.countMiss .primary p q).cacheMisses = k.cacheMisses + 1 := rfl
@[simp] theorem Counters.countMiss_primary_primaryAccesses (p q : Nat) (k : Counters) :
    (k.countMiss .primary p q).primaryAccesses = k.primaryAccesses + 1 := rfl
@[simp] theorem Counters.countMiss_primary_secondaryAccesses (p q : Nat) (k : Counters) :
    (k.countMiss .primary p q).secondaryAccesses = k.secondaryAccesses := rfl
@[simp] theorem Counters.countMiss_primary_memoryCycles (p q : Nat) (k : Counters) :
    (k.countMiss .primary p q).memoryCycles = k.memoryCycles + p := rfl
@[simp] theorem Counters.countMiss_secondary_pipelineCycles (p q : Nat) (k : Counters) :
    (k.countMiss .secondary p q).pipelineCycles = k.pipelineCycles := rfl
@[simp] theorem Counters.countMiss_secondary_instructions (p q : Nat) (k : Counters) :
    (k.countMiss .secondary p q).instructions = k.instructions := rfl
@[simp] theorem Counters.countMiss_secondary_memReads (p q : Nat) (k : Counters) :
    (k.countMiss .secondary p q).memReads = k.memReads := rfl
@[simp] theorem Counters.countMiss_secondary_memWrites (p q : Nat) (k : Counters) :
    (k.countMiss .secondary p q).memWrites = k.memWrites := rfl
@[simp] theorem Counters.countMiss_secondary_memAccessesTotal (p q : Nat) (k : Counters) :
    (k.countMiss .secondary p q).memAccessesTotal = k.memAccessesTotal := rfl
@[simp] theorem Counters.countMiss_secondary_cacheHits (p q : Nat) (k : Counters) :
    (k.countMiss .secondary p q).cacheHits = k.cacheHits := rfl
@[simp] theorem Counters.countMiss_secondary_cacheMisses (p q : Nat) (k : Counters) :
    (k.countMiss .secondary p q).cacheMisses = k.cacheMisses + 1 := rfl
@[simp] theorem Counters.countMiss_secondary_primaryAccesses (p q : Nat) (k : Counters) :
    (k.countMiss .secondary p q).primaryAccesses = k.primaryAccesses := rfl
@[simp] theorem Counters.countMiss_secondary_secondaryAccesses (p q : Nat) (k : Counters) :
    (k.countMiss .secondary p q).secondaryAccesses = k.secondaryAccesses + 1 := rfl
@[simp] theorem Counters.countMiss_secondary_memoryCycles (p q : Nat) (k : Counters) :
    (k.countMiss .secondary p q).memoryCycles = k.memoryCycles + q := rfl

/-! ## Registers -/

/-- A register reads what was last written to it, register 0 like any other (R33). -/
theorem Pcb.reg_setReg (p : Pcb) (i j : RegIdx) (v : Word) : (p.setReg i v).reg j = if j = i then v else p.reg j := by
  unfold Pcb.setReg Pcb.reg
  by_cases h : j = i
  · subst h; simp
  · have hn : i.toNat ≠ j.toNat := fun e => h (BitVec.eq_of_toNat_eq e.symm)
    simp [h, Vector.getElem_set_ne _ _ hn]

theorem State.reg_setReg (s : State) (i j : RegIdx) (v : Word) : (s.setReg i v).reg j = if j = i then v else s.reg j :=
  Pcb.reg_setReg s.pcb i j v

@[simp] theorem State.reg_setReg_self (s : State) (i : RegIdx) (v : Word) : (s.setReg i v).reg i = v := by
  simp [State.reg_setReg]

theorem State.reg_setReg_ne (s : State) (i j : RegIdx) (v : Word) (h : j ≠ i) : (s.setReg i v).reg j = s.reg j := by
  simp [State.reg_setReg, h]

/-- Reading a register depends on the register file alone. -/
theorem State.reg_congr {s t : State} (h : t.pcb.regs = s.pcb.regs) (r : RegIdx) : t.reg r = s.reg r := by
  simp [State.reg, Pcb.reg, h]

/-- The word at an address depends on the hierarchy and the configuration alone. -/
theorem State.wordAt_congr {s t : State} (h : t.hier = s.hier) (c : t.config = s.config) (a : Word) :
    t.wordAt a = s.wordAt a := by
  simp [State.wordAt, h, c]

/-- Relocation depends on the base alone. -/
theorem State.phys_congr {s t : State} (h : t.pcb.base = s.pcb.base) (a : Word) : t.phys a = s.phys a := by
  simp [State.phys, h]

end Sys2Proof.Machine
end

