-- ==== Sys2Proof/Laws/Cells.lean ====
section
/-! SUPPORT. Lists of cells: reading after a write or a removal, and that both keep the canonical form (rising keys; no cell that
reads as an unlisted one). -/

namespace Sys2Proof.Machine

variable {α : Type}

/-- Keys strictly rise. -/
abbrev Rising (l : List (Nat × α)) : Prop := l.Pairwise (fun c d => c.1 < d.1)

/-! ## Reading -/

@[simp] theorem cellAt_nil (a : Nat) : cellAt ([] : List (Nat × α)) a = none := rfl

theorem cellAt_cons (k : Nat) (v : α) (l : List (Nat × α)) (a : Nat) :
    cellAt ((k, v) :: l) a = if a = k then some v else cellAt l a := rfl

theorem cellAt_putCell (l : List (Nat × α)) (a b : Nat) (v : α) :
    cellAt (putCell l a v) b = if b = a then some v else cellAt l b := by
  induction l with
  | nil => rfl
  | cons c l ih =>
    obtain ⟨k, w⟩ := c
    unfold putCell
    split
    · simp only [cellAt_cons]
    · split
      · subst_vars
        simp only [cellAt_cons]
        split <;> rfl
      · rename_i hne
        simp only [cellAt_cons, ih]
        by_cases hbk : b = k
        · subst hbk
          have : b ≠ a := fun e => hne e.symm
          simp [this]
        · simp [hbk]

theorem cellAt_dropCell (l : List (Nat × α)) (a b : Nat) :
    cellAt (dropCell l a) b = if b = a then none else cellAt l b := by
  induction l with
  | nil => simp [dropCell]
  | cons c l ih =>
    obtain ⟨k, w⟩ := c
    unfold dropCell at ih ⊢
    by_cases hka : k = a
    · subst hka
      simp only [List.filter_cons, bne_self_eq_false, Bool.false_eq_true, if_false, ih, cellAt_cons]
      split <;> simp_all
    · have : (k != a) = true := by simp [hka]
      simp only [List.filter_cons, this, if_true, cellAt_cons, ih]
      by_cases hbk : b = k
      · subst hbk; simp [hka]
      · simp [hbk]

theorem cellAt_eq_none_iff (l : List (Nat × α)) (a : Nat) : cellAt l a = none ↔ a ∉ l.map (·.1) := by
  induction l with
  | nil => simp
  | cons c l ih =>
    obtain ⟨k, v⟩ := c
    rw [cellAt_cons]
    split
    · simp_all
    · simp_all [eq_comm]

theorem cellAt_isSome_iff (l : List (Nat × α)) (a : Nat) : (cellAt l a).isSome = true ↔ a ∈ l.map (·.1) := by
  have := cellAt_eq_none_iff l a
  cases h : cellAt l a <;> simp_all

theorem mem_of_cellAt {l : List (Nat × α)} {a : Nat} {v : α} (h : cellAt l a = some v) : (a, v) ∈ l := by
  induction l with
  | nil => simp at h
  | cons c l ih =>
    obtain ⟨k, w⟩ := c
    rw [cellAt_cons] at h
    split at h
    · simp_all
    · exact List.mem_cons_of_mem _ (ih h)

theorem cellAt_of_mem {l : List (Nat × α)} (hr : Rising l) {c : Nat × α} (h : c ∈ l) : cellAt l c.1 = some c.2 := by
  induction l with
  | nil => simp at h
  | cons d l ih =>
    obtain ⟨k, w⟩ := d
    rw [cellAt_cons]
    rw [Rising, List.pairwise_cons] at hr
    rcases List.mem_cons.mp h with rfl | hm
    · simp
    · have hlt := hr.1 c hm
      have : c.1 ≠ k := by simp at hlt; omega
      simp [this, ih hr.2 hm]

/-! ## Membership after an update -/

theorem mem_putCell {l : List (Nat × α)} {a : Nat} {v : α} {c : Nat × α} (h : c ∈ putCell l a v) : c = (a, v) ∨ c ∈ l := by
  induction l with
  | nil => simpa [putCell] using h
  | cons d l ih =>
    obtain ⟨k, w⟩ := d
    unfold putCell at h
    split at h
    · simpa using h
    · split at h
      · rcases List.mem_cons.mp h with h | h
        · exact .inl h
        · exact .inr (List.mem_cons_of_mem _ h)
      · rcases List.mem_cons.mp h with h | h
        · exact .inr (by simp [h])
        · rcases ih h with h | h
          · exact .inl h
          · exact .inr (List.mem_cons_of_mem _ h)

theorem mem_dropCell {l : List (Nat × α)} {a : Nat} {c : Nat × α} : c ∈ dropCell l a ↔ c ∈ l ∧ c.1 ≠ a := by
  simp [dropCell]

/-! ## The canonical form -/

theorem putCell_rising {l : List (Nat × α)} (a : Nat) (v : α) (h : Rising l) : Rising (putCell l a v) := by
  induction l with
  | nil => simp [putCell, Rising]
  | cons d l ih =>
    obtain ⟨k, w⟩ := d
    obtain ⟨h1, h2⟩ := List.pairwise_cons.mp h
    unfold putCell
    split
    · rename_i hlt
      refine List.pairwise_cons.mpr ⟨fun c hc => ?_, h⟩
      rcases List.mem_cons.mp hc with rfl | hc
      · exact hlt
      · exact Nat.lt_trans hlt (h1 c hc)
    · split
      · subst_vars
        exact List.pairwise_cons.mpr ⟨h1, h2⟩
      · refine List.pairwise_cons.mpr ⟨fun c hc => ?_, ih h2⟩
        rcases mem_putCell hc with rfl | hc
        · simp only; omega
        · exact h1 c hc

theorem dropCell_rising {l : List (Nat × α)} (a : Nat) (h : Rising l) : Rising (dropCell l a) := h.filter _

theorem length_dropCell_le (l : List (Nat × α)) (a : Nat) : (dropCell l a).length ≤ l.length := List.length_filter_le _ _

theorem length_dropCell {l : List (Nat × α)} {a : Nat} (hr : Rising l) (h : a ∈ l.map (·.1)) :
    (dropCell l a).length + 1 = l.length := by
  induction l with
  | nil => simp at h
  | cons d l ih =>
    obtain ⟨k, w⟩ := d
    obtain ⟨h1, h2⟩ := List.pairwise_cons.mp hr
    by_cases hka : k = a
    · subst hka
      have : dropCell ((k, w) :: l) k = l := by
        unfold dropCell
        simp only [List.filter_cons, bne_self_eq_false, Bool.false_eq_true, if_false, List.filter_eq_self]
        intro c hc
        have := h1 c hc
        simp only [bne_iff_ne]
        omega
      simp [this]
    · have hm : a ∈ l.map (·.1) := by simpa [Ne.symm hka] using h
      have hk : (k != a) = true := by simp [hka]
      have := ih h2 hm
      unfold dropCell at this ⊢
      simp only [List.filter_cons, hk, if_true, List.length_cons]
      omega

theorem length_putCell_le (l : List (Nat × α)) (a : Nat) (v : α) : (putCell l a v).length ≤ l.length + 1 := by
  induction l with
  | nil => simp [putCell]
  | cons d l ih =>
    obtain ⟨k, w⟩ := d
    unfold putCell
    split
    · simp
    · split <;> simp_all

theorem length_putCell_present {l : List (Nat × α)} {a : Nat} (v : α) (hr : Rising l) (h : a ∈ l.map (·.1)) :
    (putCell l a v).length = l.length := by
  induction l with
  | nil => simp at h
  | cons d l ih =>
    obtain ⟨k, w⟩ := d
    obtain ⟨h1, h2⟩ := List.pairwise_cons.mp hr
    unfold putCell
    split
    · rename_i hlt
      exfalso
      rcases List.mem_map.mp h with ⟨c, hc, rfl⟩
      rcases List.mem_cons.mp hc with rfl | hc
      · simp at hlt
      · have := h1 c hc; simp at this; omega
    · split
      · simp
      · rename_i hne
        have hm : a ∈ l.map (·.1) := by simpa [hne] using h
        simp [ih h2 hm]

/-! ## Tiers -/

/-- Reading a tier after a write (R85). -/
theorem Memory.read_write (m : Memory) (i j : Nat) (v : Word) : (m.write i v).read j = if j = i then v else m.read j := by
  unfold Memory.write Memory.read
  split
  · rename_i hv
    rw [cellAt_dropCell]
    split <;> simp_all
  · rw [cellAt_putCell]
    split <;> simp_all

/-- A write keeps the canonical form of a tier. -/
theorem Memory.write_wf {m : Memory} (i : Nat) (v : Word) (h : m.wf) : (m.write i v).wf := by
  unfold Memory.write
  split
  · exact ⟨dropCell_rising i h.1, fun c hc => h.2 c (mem_dropCell.mp hc).1⟩
  · rename_i hv
    refine ⟨putCell_rising i v h.1, fun c hc => ?_⟩
    rcases mem_putCell hc with rfl | hc
    · exact hv
    · exact h.2 c hc

/-- The reset state's tiers are in canonical form. -/
theorem reset_memory_wf : State.reset.hier.primary.wf ∧ State.reset.hier.secondary.wf := by decide

end Sys2Proof.Machine
end

