-- ==== Sys2Proof/Laws/Hierarchy.lean ====
section
/-! SUPPORT. What each operation of the memory hierarchy does to the entry map, to the tiers and to the word every core reads, and
that each keeps the hierarchy's invariant (spec/20_memory.md R79 to R92). -/

namespace Sys2Proof.Machine

/-! ## Tiers and resolution -/

/-- An address has one tier and index, and no other address has them (R72). -/
theorem resolve_injective {c : Config} {a b : Nat} {x : Tier × Nat} (ha : resolve c a = some x) (hb : resolve c b = some x) :
    a = b := by
  simp only [resolve] at ha hb
  split at ha <;> split at hb <;> split at ha <;> split at hb <;> simp_all
  · rw [← ha] at hb; simp at hb; exact hb.symm
  · rw [← ha] at hb; simp at hb
  · rw [← ha] at hb; simp at hb
  · rw [← ha] at hb; simp at hb; omega

@[simp] theorem Hierarchy.tierWrite_cache (t : Tier) (i : Nat) (v : Word) (h : Hierarchy) :
    (h.tierWrite t i v).cache = h.cache := by cases t <;> rfl

@[simp] theorem Hierarchy.tierWrite_order (t : Tier) (i : Nat) (v : Word) (h : Hierarchy) :
    (h.tierWrite t i v).order = h.order := by cases t <;> rfl

theorem Hierarchy.tierRead_tierWrite (h : Hierarchy) (t u : Tier) (i j : Nat) (v : Word) :
    (h.tierWrite t i v).tierRead u j = if (u, j) = (t, i) then v else h.tierRead u j := by
  cases t <;> cases u <;> simp [Hierarchy.tierWrite, Hierarchy.tierRead, Memory.read_write]

theorem Hierarchy.tierWrite_wf {h : Hierarchy} (t : Tier) (i : Nat) (v : Word) (hp : h.primary.wf) (hs : h.secondary.wf) :
    (h.tierWrite t i v).primary.wf ∧ (h.tierWrite t i v).secondary.wf := by
  cases t
  · exact ⟨Memory.write_wf i v hp, hs⟩
  · exact ⟨hp, Memory.write_wf i v hs⟩

/-- The tiers alone decide `tierWord`. -/
theorem Hierarchy.tierWord_congr {c : Config} {g h : Hierarchy} (hp : g.primary = h.primary) (hs : g.secondary = h.secondary)
    (a : Nat) : g.tierWord c a = h.tierWord c a := by
  unfold Hierarchy.tierWord
  congr 1
  funext ti
  obtain ⟨t, i⟩ := ti
  cases t <;> simp [Hierarchy.tierRead, hp, hs]

/-- The word a core reads is the entry's data where there is an entry, else the tier's word (R90). -/
theorem Hierarchy.word_of_entry {c : Config} {h : Hierarchy} {a : Nat} {e : CacheEntry} (he : h.entry a = some e)
    (hr : (resolve c a).isSome = true) : h.word c a = some e.data := by
  obtain ⟨x, hx⟩ := Option.isSome_iff_exists.mp hr
  simp [Hierarchy.word, hx, he]

theorem Hierarchy.word_of_no_entry {c : Config} {h : Hierarchy} {a : Nat} (he : h.entry a = none) :
    h.word c a = h.tierWord c a := by
  simp [Hierarchy.word, Hierarchy.tierWord, he]

theorem Hierarchy.word_isSome (c : Config) (h : Hierarchy) (a : Nat) : (h.word c a).isSome = (resolve c a).isSome := by
  simp [Hierarchy.word]

/-- Entry map and tiers alone decide the word read. -/
theorem Hierarchy.word_congr {c : Config} {g h : Hierarchy} {a : Nat} (he : g.entry a = h.entry a)
    (ht : g.tierWord c a = h.tierWord c a) : g.word c a = h.word c a := by
  unfold Hierarchy.word
  unfold Hierarchy.tierWord at ht
  cases hr : resolve c a with
  | none => rfl
  | some x =>
    rw [hr] at ht
    simp only [Option.map_some, Option.some.injEq] at ht
    simp only [Option.map_some, he, ht]

/-! ## Touch -/

@[simp] theorem Hierarchy.touch_cache (c : Config) (a : Nat) (h : Hierarchy) : (h.touch c a).cache = h.cache := by
  unfold Hierarchy.touch; split <;> rfl

@[simp] theorem Hierarchy.touch_primary (c : Config) (a : Nat) (h : Hierarchy) : (h.touch c a).primary = h.primary := by
  unfold Hierarchy.touch; split <;> rfl

@[simp] theorem Hierarchy.touch_secondary (c : Config) (a : Nat) (h : Hierarchy) : (h.touch c a).secondary = h.secondary := by
  unfold Hierarchy.touch; split <;> rfl

theorem mem_orderToEnd {a b : Nat} {o : List Nat} : b ∈ orderToEnd a o ↔ b = a ∨ b ∈ o := by
  unfold orderToEnd
  by_cases h : b = a <;> simp [h]

theorem orderToEnd_nodup {a : Nat} {o : List Nat} (h : o.Nodup) : (orderToEnd a o).Nodup := by
  unfold orderToEnd
  refine List.nodup_append.mpr ⟨h.filter _, by simp, ?_⟩
  intro x hx y hy
  simp only [List.mem_filter, bne_iff_ne, List.mem_singleton] at hx hy
  subst hy
  exact hx.2

/-- A touch changes the bookkeeping only, and keeps the invariant (R88, R89). -/
theorem Hierarchy.touch_inv {c : Config} {h : Hierarchy} {a : Nat} (hi : h.Inv c) (ha : a ∈ h.present) : (h.touch c a).Inv c := by
  unfold Hierarchy.touch
  cases c.replacement with
  | fifo => exact hi
  | lru =>
    obtain ⟨hc, hcan, ⟨hn, hop, hpo, hl⟩, hco⟩ := hi
    refine ⟨hc, hcan, ⟨orderToEnd_nodup hn, ?_, ?_, hl⟩, hco⟩
    · intro b hb
      rcases mem_orderToEnd.mp hb with rfl | hb
      · exact ha
      · exact hop b hb
    · intro b hb
      exact mem_orderToEnd.mpr (.inr (hpo b hb))

/-- A touch changes no word (R90). -/
theorem Hierarchy.word_touch (c : Config) (a b : Nat) (h : Hierarchy) : (h.touch c a).word c b = h.word c b :=
  Hierarchy.word_congr (by simp [Hierarchy.entry]) (Hierarchy.tierWord_congr (by simp) (by simp) b)

/-! ## Leaving the cache -/

theorem Hierarchy.writeBack_cache (c : Config) (a : Nat) (h : Hierarchy) : (h.writeBack c a).cache = h.cache := by
  unfold Hierarchy.writeBack; split
  · split <;> simp
  · rfl

theorem Hierarchy.writeBack_order (c : Config) (a : Nat) (h : Hierarchy) : (h.writeBack c a).order = h.order := by
  unfold Hierarchy.writeBack; split
  · split <;> simp
  · rfl

/-- The tiers after a write-back: the address of a dirty entry holds its data, every other address what it held (R85, R86). -/
theorem Hierarchy.tierWord_writeBack (c : Config) (a b : Nat) (h : Hierarchy) :
    (h.writeBack c a).tierWord c b =
      match h.entry a with
      | some e => if e.dirty = true ∧ b = a then (resolve c a).map (fun _ => e.data) else h.tierWord c b
      | none => h.tierWord c b := by
  unfold Hierarchy.writeBack
  cases he : h.entry a with
  | none => rfl
  | some e =>
    cases hr : resolve c a with
    | none =>
      simp only [Option.map_none]
      split
      · rename_i hb
        rw [hb.2]
        simp [Hierarchy.tierWord, hr]
      · rfl
    | some x =>
      obtain ⟨t, i⟩ := x
      simp only [Option.map_some]
      by_cases hd : e.dirty = true
      · simp only [hd, if_true, true_and]
        unfold Hierarchy.tierWord
        by_cases hb : b = a
        · subst hb
          simp [hr, Hierarchy.tierRead_tierWrite]
        · simp only [hb, if_false]
          cases hrb : resolve c b with
          | none => rfl
          | some y =>
            have hy : y ≠ (t, i) := fun e => hb (resolve_injective hrb (e ▸ hr))
            obtain ⟨u, j⟩ := y
            simp only [Option.map_some, Hierarchy.tierRead_tierWrite, hy, if_false]
      · simp [hd]

theorem Hierarchy.entry_leave (c : Config) (a b : Nat) (h : Hierarchy) :
    (h.leave c a).entry b = if b = a then none else h.entry b := by
  simp [Hierarchy.leave, Hierarchy.entry, cellAt_dropCell, Hierarchy.writeBack_cache]

theorem Hierarchy.tierWord_leave (c : Config) (a b : Nat) (h : Hierarchy) :
    (h.leave c a).tierWord c b = (h.writeBack c a).tierWord c b :=
  Hierarchy.tierWord_congr rfl rfl b

/-- An address other than the one that leaves keeps its tier's word. -/
theorem Hierarchy.tierWord_leave_ne {c : Config} {a b : Nat} (h : Hierarchy) (hb : b ≠ a) :
    (h.leave c a).tierWord c b = h.tierWord c b := by
  rw [Hierarchy.tierWord_leave, Hierarchy.tierWord_writeBack]
  split <;> simp [hb]

/-- No word changes when an address leaves the cache (R85, R86, R90). -/
theorem Hierarchy.word_leave {c : Config} {h : Hierarchy} (hco : h.coherent c) (a b : Nat) :
    (h.leave c a).word c b = h.word c b := by
  by_cases hb : b = a
  · subst hb
    rw [Hierarchy.word_of_no_entry (by simp [Hierarchy.entry_leave]), Hierarchy.tierWord_leave, Hierarchy.tierWord_writeBack]
    cases he : h.entry b with
    | none => rw [Hierarchy.word_of_no_entry he]
    | some e =>
      obtain ⟨-, hr, hcl⟩ := hco (b, e) (mem_of_cellAt he)
      rw [Hierarchy.word_of_entry he hr]
      obtain ⟨x, hx⟩ := Option.isSome_iff_exists.mp hr
      by_cases hd : e.dirty = true
      · simp [hd, hx]
      · simpa [hd] using hcl (by simpa using hd)
  · exact Hierarchy.word_congr (by simp [Hierarchy.entry_leave, hb]) (Hierarchy.tierWord_leave_ne h hb)

theorem Hierarchy.mem_present_leave {c : Config} {h : Hierarchy} {a b : Nat} :
    b ∈ (h.leave c a).present ↔ b ∈ h.present ∧ b ≠ a := by
  simp [Hierarchy.leave, Hierarchy.present, Hierarchy.writeBack_cache, dropCell]

/-- An address leaving the cache keeps the invariant. -/
theorem Hierarchy.leave_inv {c : Config} {h : Hierarchy} (a : Nat) (hi : h.Inv c) : (h.leave c a).Inv c := by
  obtain ⟨hc, ⟨hp, hs, hk⟩, ⟨hn, hop, hpo, hl⟩, hco⟩ := hi
  have hwb : (h.writeBack c a).primary.wf ∧ (h.writeBack c a).secondary.wf := by
    unfold Hierarchy.writeBack
    split
    · split
      · exact Hierarchy.tierWrite_wf _ _ _ hp hs
      · exact ⟨hp, hs⟩
    · exact ⟨hp, hs⟩
  refine ⟨hc, ⟨hwb.1, hwb.2, ?_⟩, ⟨?_, ?_, ?_, ?_⟩, ?_⟩
  · simpa [Hierarchy.leave, Hierarchy.writeBack_cache] using dropCell_rising a hk
  · simpa [Hierarchy.leave, Hierarchy.writeBack_order] using hn.filter _
  · intro b hb
    have : b ∈ h.order ∧ b ≠ a := by simpa [Hierarchy.leave, Hierarchy.writeBack_order] using hb
    exact Hierarchy.mem_present_leave.mpr ⟨hop b this.1, this.2⟩
  · intro b hb
    obtain ⟨h1, h2⟩ := Hierarchy.mem_present_leave.mp hb
    simpa [Hierarchy.leave, Hierarchy.writeBack_order] using ⟨hpo b h1, h2⟩
  · simp only [Hierarchy.leave, Hierarchy.writeBack_cache]
    exact Nat.le_trans (length_dropCell_le _ _) hl
  · intro x hx
    have hx' : x ∈ h.cache ∧ x.1 ≠ a := by
      simpa [Hierarchy.leave, Hierarchy.writeBack_cache, mem_dropCell] using hx
    obtain ⟨hv, hr, hcl⟩ := hco x hx'.1
    exact ⟨hv, hr, fun hd => by rw [Hierarchy.tierWord_leave_ne h hx'.2]; exact hcl hd⟩

/-- The addresses of a list leaving one after another change no word and keep the invariant. -/
theorem Hierarchy.leaveAll_spec {c : Config} (as : List Nat) {h : Hierarchy} (hi : h.Inv c) :
    (h.leaveAll c as).Inv c ∧ (∀ b, (h.leaveAll c as).word c b = h.word c b) ∧
      ∀ b, b ∈ (h.leaveAll c as).present ↔ b ∈ h.present ∧ b ∉ as := by
  induction as generalizing h with
  | nil => simpa [Hierarchy.leaveAll] using hi
  | cons a as ih =>
    obtain ⟨h1, h2, h3⟩ := ih (Hierarchy.leave_inv a hi)
    refine ⟨h1, fun b => (h2 b).trans (Hierarchy.word_leave hi.2.2.2 a b), fun b => (h3 b).trans ?_⟩
    rw [Hierarchy.mem_present_leave]
    simp [and_assoc]

/-- The bookkeeping after a list of addresses has left: the others, in their order. -/
theorem Hierarchy.leaveAll_order (c : Config) (as : List Nat) (h : Hierarchy) :
    (h.leaveAll c as).order = h.order.filter (fun b => !as.contains b) := by
  induction as generalizing h with
  | nil => simp [Hierarchy.leaveAll]
  | cons a as ih =>
    have hn := ih (h.leave c a)
    unfold Hierarchy.leaveAll at hn ⊢
    rw [List.foldl_cons, hn]
    simp only [Hierarchy.leave, Hierarchy.writeBack_order, List.filter_filter]
    congr 1
    funext b
    by_cases hb : b = a <;> simp [hb]

/-- Distinct addresses present each take one entry with them. -/
theorem Hierarchy.leaveAll_length {c : Config} (as : List Nat) {h : Hierarchy} (hi : h.Inv c) (hn : as.Nodup)
    (hs : ∀ a ∈ as, a ∈ h.present) : (h.leaveAll c as).cache.length + as.length = h.cache.length := by
  induction as generalizing h with
  | nil => simp [Hierarchy.leaveAll]
  | cons a as ih =>
    rw [List.nodup_cons] at hn
    have h1 := ih (Hierarchy.leave_inv a hi) hn.2 (fun b hb => by
      rw [Hierarchy.mem_present_leave]
      exact ⟨hs b (by simp [hb]), fun e => hn.1 (e ▸ hb)⟩)
    have h2 := length_dropCell hi.2.1.2.2 (hs a (by simp))
    unfold Hierarchy.leaveAll at h1 ⊢
    rw [List.foldl_cons]
    simp only [Hierarchy.leave, Hierarchy.writeBack_cache, List.length_cons] at h1 ⊢
    omega

/-- The addresses present are distinct. -/
theorem Hierarchy.present_nodup {h : Hierarchy} (hk : h.cache.Pairwise (fun x y => x.1 < y.1)) : h.present.Nodup := by
  unfold Hierarchy.present
  rw [List.Nodup, List.pairwise_map]
  exact hk.imp Nat.ne_of_lt

/-! ## Insert and store -/

/-- The eviction changes no word and keeps the invariant; after it there is room for one entry more (R82, R83, R87). -/
theorem Hierarchy.evict_spec {c : Config} {h : Hierarchy} (hi : h.Inv c) :
    (h.evict c).Inv c ∧ (∀ b, (h.evict c).word c b = h.word c b) ∧ (h.evict c).cache.length + 1 ≤ c.cacheCapacity ∧
      ∀ b, b ∈ (h.evict c).present → b ∈ h.present := by
  unfold Hierarchy.evict
  split
  · rename_i hfull
    have hK := hi.1.1
    cases ho : h.order with
    | nil =>
      exfalso
      obtain ⟨-, -, ⟨-, -, hpo, -⟩, -⟩ := hi
      have : h.cache = [] := by
        cases hcache : h.cache with
        | nil => rfl
        | cons x l => exact absurd (hpo x.1 (by simp [Hierarchy.present, hcache])) (by simp [ho])
      simp [this] at hfull
      omega
    | cons v rest =>
      refine ⟨Hierarchy.leave_inv v hi, Hierarchy.word_leave hi.2.2.2 v, ?_, fun b hb => (Hierarchy.mem_present_leave.mp hb).1⟩
      obtain ⟨-, ⟨-, -, hk⟩, ⟨-, hop, -, hl⟩, -⟩ := hi
      have hv : v ∈ h.cache.map (·.1) := hop v (by simp [ho])
      have := length_dropCell hk hv
      simp only [Hierarchy.leave, Hierarchy.writeBack_cache]
      omega
  · exact ⟨hi, fun _ => rfl, by omega, fun _ hb => hb⟩

theorem Hierarchy.entry_insert (c : Config) (a b : Nat) (v : Word) (h : Hierarchy) :
    (h.insert c a v).entry b = if b = a then some { data := v, valid := true, dirty := false } else (h.evict c).entry b := by
  simp [Hierarchy.insert, Hierarchy.entry, cellAt_putCell]

theorem Hierarchy.tierWord_insert (c : Config) (a b : Nat) (v : Word) (h : Hierarchy) :
    (h.insert c a v).tierWord c b = (h.evict c).tierWord c b :=
  Hierarchy.tierWord_congr rfl rfl b

theorem Hierarchy.mem_present_putCell {l : List (Nat × CacheEntry)} {a b : Nat} {e : CacheEntry} :
    b ∈ (putCell l a e).map (·.1) ↔ b = a ∨ b ∈ l.map (·.1) := by
  rw [← cellAt_isSome_iff, ← cellAt_isSome_iff, cellAt_putCell]
  split <;> simp_all

/-- Inserting the word the tier holds for an address not in the cache changes no word, keeps the invariant, and leaves the address
present (R82, R90). -/
theorem Hierarchy.insert_spec {c : Config} {h : Hierarchy} {a : Nat} {v : Word} (hi : h.Inv c) (ha : h.entry a = none)
    (hv : h.tierWord c a = some v) :
    (h.insert c a v).Inv c ∧ (∀ b, (h.insert c a v).word c b = h.word c b) ∧ a ∈ (h.insert c a v).present := by
  obtain ⟨hwi, hww, hlen, hsub⟩ := Hierarchy.evict_spec hi
  have hr : (resolve c a).isSome = true := by
    cases hx : resolve c a with
    | none => simp [Hierarchy.tierWord, hx] at hv
    | some _ => rfl
  have hae : (h.evict c).entry a = none := by
    have hnp : a ∉ h.present := (cellAt_eq_none_iff _ _).mp ha
    exact (cellAt_eq_none_iff _ _).mpr (fun hm => hnp (hsub a hm))
  have hte : (h.evict c).tierWord c a = some v := by
    rw [← Hierarchy.word_of_no_entry hae, hww, Hierarchy.word_of_no_entry ha, hv]
  obtain ⟨hc, ⟨hp, hs, hk⟩, ⟨hn, hop, hpo, hl⟩, hco⟩ := hwi
  refine ⟨⟨hc, ⟨hp, hs, putCell_rising a _ hk⟩, ⟨orderToEnd_nodup hn, ?_, ?_, ?_⟩, ?_⟩, ?_, ?_⟩
  · intro b hb
    rcases mem_orderToEnd.mp hb with rfl | hb
    · exact Hierarchy.mem_present_putCell.mpr (.inl rfl)
    · exact Hierarchy.mem_present_putCell.mpr (.inr (hop b hb))
  · intro b hb
    rcases Hierarchy.mem_present_putCell.mp hb with rfl | hb
    · exact mem_orderToEnd.mpr (.inl rfl)
    · exact mem_orderToEnd.mpr (.inr (hpo b hb))
  · exact Nat.le_trans (length_putCell_le _ _ _) hlen
  · intro x hx
    rcases mem_putCell hx with rfl | hx
    · exact ⟨rfl, hr, fun _ => (Hierarchy.tierWord_insert c a a v h).trans hte⟩
    · obtain ⟨h1, h2, h3⟩ := hco x hx
      exact ⟨h1, h2, fun hd => (Hierarchy.tierWord_insert c a x.1 v h).trans (h3 hd)⟩
  · intro b
    by_cases hb : b = a
    · subst hb
      rw [Hierarchy.word_of_entry (e := { data := v, valid := true, dirty := false }) (by simp [Hierarchy.entry_insert]) hr,
        Hierarchy.word_of_no_entry ha, hv]
    · rw [← hww b]
      exact Hierarchy.word_congr (by simp [Hierarchy.entry_insert, hb]) (Hierarchy.tierWord_insert c a b v h)
  · exact Hierarchy.mem_present_putCell.mpr (.inl rfl)

/-- Storing into an address present in the cache changes that word alone and keeps the invariant (R84, R90). -/
theorem Hierarchy.store_spec {c : Config} {h : Hierarchy} {a : Nat} (v : Word) (hi : h.Inv c) (ha : a ∈ h.present) :
    (h.store c a v).Inv c ∧ ∀ b, (h.store c a v).word c b = if b = a then some v else h.word c b := by
  obtain ⟨hc, ⟨hp, hs, hk⟩, ⟨hn, hop, hpo, hl⟩, hco⟩ := hi
  have hr : (resolve c a).isSome = true := by
    obtain ⟨x, hx, rfl⟩ := List.mem_map.mp ha
    exact (hco x hx).2.1
  unfold Hierarchy.store
  constructor
  · refine Hierarchy.touch_inv ⟨hc, ⟨hp, hs, putCell_rising a _ hk⟩, ⟨hn, ?_, ?_, ?_⟩, ?_⟩
      (Hierarchy.mem_present_putCell.mpr (.inl rfl))
    · exact fun b hb => Hierarchy.mem_present_putCell.mpr (.inr (hop b hb))
    · intro b hb
      rcases Hierarchy.mem_present_putCell.mp hb with rfl | hb
      · exact hpo b ha
      · exact hpo b hb
    · simpa [length_putCell_present _ hk ha] using hl
    · intro x hx
      rcases mem_putCell hx with rfl | hx
      · exact ⟨rfl, hr, fun hd => by simp at hd⟩
      · exact hco x hx
  · intro b
    rw [Hierarchy.word_touch]
    split
    · rename_i hb
      subst hb
      exact Hierarchy.word_of_entry (e := { data := v, valid := true, dirty := true })
        (by simp [Hierarchy.entry, cellAt_putCell]) hr
    · rename_i hb
      exact Hierarchy.word_congr (by simp [Hierarchy.entry, cellAt_putCell, hb]) (Hierarchy.tierWord_congr rfl rfl b)

/-- An address without an entry keeps its tier's word at an eviction: a write-back goes to the victim's address alone (R85, R86). -/
theorem Hierarchy.tierWord_evict_of_no_entry {h : Hierarchy} {a : Nat} (c : Config) (ha : h.entry a = none) :
    (h.evict c).tierWord c a = h.tierWord c a := by
  unfold Hierarchy.evict
  split
  · split
    · rfl
    · by_cases hv : a = ‹Nat›
      · subst hv
        rw [Hierarchy.tierWord_leave, Hierarchy.tierWord_writeBack, ha]
      · exact Hierarchy.tierWord_leave_ne h hv
  · rfl

/-- The entries after a store: the one stored to is dirty with the value, the others stay (R84). -/
theorem Hierarchy.entry_store (c : Config) (a b : Nat) (v : Word) (h : Hierarchy) :
    (h.store c a v).entry b = if b = a then some { data := v, valid := true, dirty := true } else h.entry b := by
  simp [Hierarchy.store, Hierarchy.entry, cellAt_putCell]

@[simp] theorem Hierarchy.store_primary (c : Config) (a : Nat) (v : Word) (h : Hierarchy) :
    (h.store c a v).primary = h.primary := by simp [Hierarchy.store]

@[simp] theorem Hierarchy.store_secondary (c : Config) (a : Nat) (v : Word) (h : Hierarchy) :
    (h.store c a v).secondary = h.secondary := by simp [Hierarchy.store]

/-! ## Invalidation -/

/-- A full invalidate empties cache and bookkeeping, changes no word and keeps the invariant (R91). -/
theorem Hierarchy.fullInvalidate_spec {c : Config} {h : Hierarchy} (hi : h.Inv c) :
    (h.fullInvalidate c).Inv c ∧ (h.fullInvalidate c).cache = [] ∧ (h.fullInvalidate c).order = [] ∧
      ∀ b, (h.fullInvalidate c).word c b = h.word c b := by
  obtain ⟨hj, hw, hp⟩ := Hierarchy.leaveAll_spec h.present hi
  have hempty : (h.leaveAll c h.present).cache = [] := by
    cases hcache : (h.leaveAll c h.present).cache with
    | nil => rfl
    | cons x l =>
      have hx : x.1 ∈ (h.leaveAll c h.present).present := by
        unfold Hierarchy.present
        rw [show (h.leaveAll c (h.cache.map (·.1))).cache = x :: l from hcache]
        simp
      have := (hp x.1).mp hx
      exact absurd this.1 this.2
  obtain ⟨hc, hcan, ⟨hn, hop, hpo, hl⟩, hco⟩ := hj
  refine ⟨⟨hc, hcan, ⟨List.nodup_nil, by simp [Hierarchy.fullInvalidate], ?_, hl⟩, hco⟩, hempty, rfl, fun b => ?_⟩
  · intro b hb
    have hb' : b ∈ (h.leaveAll c h.present).cache.map (·.1) := hb
    rw [hempty] at hb'
    simp at hb'
  · rw [← hw b]
    exact Hierarchy.word_congr rfl (Hierarchy.tierWord_congr rfl rfl b)

/-- A partial invalidate changes no word and keeps the invariant, whichever entries leave (R92). -/
theorem Hierarchy.partialInvalidate_spec {c : Config} {h : Hierarchy} (pick : List Nat) (hi : h.Inv c) :
    (h.partialInvalidate c pick).Inv c ∧ (∀ b, (h.partialInvalidate c pick).word c b = h.word c b) ∧
      ∀ b, b ∈ (h.partialInvalidate c pick).present ↔ b ∈ h.present ∧ b ∉ h.victims c pick :=
  Hierarchy.leaveAll_spec _ hi

end Sys2Proof.Machine
end

