-- ==== Sys2Proof/Laws/Access.lean ====
section
/-! SUPPORT. What `MemRead` and `MemWrite` can do, once each: when they raise, what they return, which words they change (only the
one written), that they keep the hierarchy's invariant and the counter laws, and that they touch nothing but the hierarchy and the
counters (spec/20_memory.md R73, R80, R84, R90). -/

namespace Sys2Proof.Machine

/-- `t` differs from `s` in the hierarchy and the counters of the process in hand alone. -/
abbrev onlyAccessed (s t : State) : Prop :=
  t = { s with hier := t.hier, pcb := { s.pcb with counters := t.pcb.counters } }

/-- The same with the new hierarchy and counters named, so that `t` can be replaced. -/
theorem onlyAccessed_exists {s t : State} (h : onlyAccessed s t) :
    ∃ (g : Hierarchy) (k : Counters), t = { s with hier := g, pcb := { s.pcb with counters := k } } :=
  ⟨_, _, h⟩

theorem State.wordAt_isSome (s : State) (a : Word) : (s.wordAt a).isSome = (resolve s.config a.toNat).isSome :=
  Hierarchy.word_isSome _ _ _

/-! ## MemRead -/

/-- A read raises exactly where no word is (R73). -/
theorem State.memRead_eq_none_iff (s : State) (a : Word) : s.memRead a = none ↔ s.wordAt a = none := by
  have h := s.wordAt_isSome a
  unfold State.memRead
  cases hr : resolve s.config a.toNat with
  | none => rw [hr] at h; cases hw : s.wordAt a <;> simp_all
  | some x =>
    obtain ⟨t, i⟩ := x
    rw [hr] at h
    cases he : s.hier.entry a.toNat <;> cases hw : s.wordAt a <;> simp_all

/-- What a read does to the hierarchy: a hit touches, a miss inserts the word read (R80, R82). -/
theorem State.memRead_hier_eq {s t : State} {a v : Word} (h : s.memRead a = some (v, t)) :
    t.hier = match s.hier.entry a.toNat with
      | some _ => s.hier.touch s.config a.toNat
      | none => s.hier.insert s.config a.toNat v := by
  unfold State.memRead at h
  split at h
  · cases h
  · split at h <;> · cases h; simp [*]

/-- A read leaves everything but hierarchy and counters alone. -/
theorem State.memRead_frame {s t : State} {a v : Word} (h : s.memRead a = some (v, t)) : onlyAccessed s t := by
  unfold State.memRead at h
  split at h
  · cases h
  · split at h <;> · cases h; rfl

/-- A read looks at nothing but the configuration, the hierarchy, the counters and the weights: where they are the same it answers
the same word and leaves the same hierarchy and counters. -/
theorem State.memRead_congr {s s' t : State} {a v : Word} (h : s'.memRead a = some (v, t)) (hc : s'.config = s.config)
    (hh : s'.hier = s.hier) (hk : s'.pcb.counters = s.pcb.counters) (h0 : s'.pcb.wCache = s.pcb.wCache)
    (h1 : s'.pcb.wPrimary = s.pcb.wPrimary) (h2 : s'.pcb.wSecondary = s.pcb.wSecondary) :
    ∃ u, s.memRead a = some (v, u) ∧ t.hier = u.hier ∧ t.pcb.counters = u.pcb.counters := by
  unfold State.memRead at h ⊢
  rw [hc, hh, h0, h1, h2] at h
  split at h
  · cases h
  · split at h <;> · cases h; simp [hh, hk]

/-- A read returns the word at its address (R90). -/
theorem State.memRead_value {s t : State} {a v : Word} (h : s.memRead a = some (v, t)) : s.wordAt a = some v := by
  unfold State.memRead at h
  split at h
  · cases h
  · rename_i ti i hr
    split at h
    · rename_i e he
      cases h
      exact Hierarchy.word_of_entry he (by simp [hr])
    · rename_i he
      cases h
      simp [State.wordAt, Hierarchy.word, hr, he]

/-- A read changes no word, keeps the hierarchy's invariant, and leaves its address in the cache (R80, R90). -/
theorem State.memRead_hier {s t : State} {a v : Word} (hi : s.HierInv) (h : s.memRead a = some (v, t)) :
    t.HierInv ∧ (∀ b, t.wordAt b = s.wordAt b) ∧ a.toNat ∈ t.hier.present := by
  unfold State.memRead at h
  split at h
  · cases h
  · rename_i ti i hr
    split at h
    · rename_i e he
      have hp : a.toNat ∈ s.hier.present := (cellAt_isSome_iff _ _).mp (by rw [show cellAt s.hier.cache a.toNat = some e from he]; rfl)
      cases h
      refine ⟨Hierarchy.touch_inv hi hp, fun b => Hierarchy.word_touch _ _ _ _, ?_⟩
      simpa [Hierarchy.present] using hp
    · rename_i he
      cases h
      obtain ⟨h1, h2, h3⟩ := Hierarchy.insert_spec (a := a.toNat) (v := s.hier.tierRead ti i) hi he
        (by simp [Hierarchy.tierWord, hr])
      exact ⟨h1, fun b => h2 b.toNat, h3⟩

/-- A read keeps the counter laws (R344, R345). -/
theorem State.memRead_lawful {s t : State} {a v : Word} (hl : s.pcb.countersLawful) (h : s.memRead a = some (v, t)) :
    t.pcb.countersLawful := by
  obtain ⟨h1, h2, h3, h4⟩ := hl
  unfold State.memRead at h
  split at h
  · cases h
  · rename_i ti i hr
    split at h
    · cases h
      refine ⟨?_, ?_, ?_, ?_⟩ <;> simp [Nat.mul_add] <;> omega
    · cases h
      cases ti <;> refine ⟨?_, ?_, ?_, ?_⟩ <;> simp [Nat.mul_add] <;> omega

/-- A read counts one read and no write. -/
theorem State.memRead_counts {s t : State} {a v : Word} (h : s.memRead a = some (v, t)) :
    t.pcb.counters.memReads = s.pcb.counters.memReads + 1 ∧ t.pcb.counters.memWrites = s.pcb.counters.memWrites := by
  unfold State.memRead at h
  split at h
  · cases h
  · rename_i ti i hr
    split at h
    · cases h; simp
    · cases h; cases ti <;> simp

/-- The counters the sequencer keeps are no memory counters. -/
theorem State.memRead_sequencer_counters {s t : State} {a v : Word} (h : s.memRead a = some (v, t)) :
    t.pcb.counters.pipelineCycles = s.pcb.counters.pipelineCycles ∧
    t.pcb.counters.instructions = s.pcb.counters.instructions := by
  unfold State.memRead at h
  split at h
  · cases h
  · rename_i ti i hr
    split at h
    · cases h; simp
    · cases h; cases ti <;> simp

/-! ## MemWrite -/

/-- A write raises exactly where no word is (R73). -/
theorem State.memWrite_eq_none_iff (s : State) (a v : Word) : s.memWrite a v = none ↔ s.wordAt a = none := by
  have h := s.wordAt_isSome a
  unfold State.memWrite
  cases hr : resolve s.config a.toNat with
  | none => rw [hr] at h; cases hw : s.wordAt a <;> simp_all
  | some x => rw [hr] at h; cases hw : s.wordAt a <;> simp_all

/-- The write-allocate leaves everything but hierarchy and counters alone. -/
theorem State.allocate_frame (s : State) (a : Word) : onlyAccessed s (s.allocate a) := by
  unfold State.allocate
  split
  · rfl
  · split
    · rename_i x t h
      exact State.memRead_frame h
    · rfl

/-- The write-allocate changes no word, keeps the invariant, and leaves an address in range in the cache (R84). -/
theorem State.allocate_hier {s : State} {a : Word} (hi : s.HierInv) (hr : (s.wordAt a).isSome = true) :
    (s.allocate a).HierInv ∧ (∀ b, (s.allocate a).wordAt b = s.wordAt b) ∧ a.toNat ∈ (s.allocate a).hier.present := by
  unfold State.allocate
  split
  · rename_i e he
    exact ⟨hi, fun _ => rfl, (cellAt_isSome_iff _ _).mp (by rw [show cellAt s.hier.cache a.toNat = some e from he]; rfl)⟩
  · split
    · rename_i x t h
      exact State.memRead_hier hi h
    · rename_i h
      rw [(State.memRead_eq_none_iff s a).mp h] at hr
      cases hr

/-- A write leaves everything but hierarchy and counters alone. -/
theorem State.memWrite_frame {s t : State} {a v : Word} (h : s.memWrite a v = some t) : onlyAccessed s t := by
  unfold State.memWrite at h
  split at h
  · cases h
  · cases h
    have hf := State.allocate_frame (s.onCounters Counters.countWrite) a
    generalize (s.onCounters Counters.countWrite).allocate a = u at hf ⊢
    rw [hf]
    rfl

/-- A write changes the word at its address and no other, and keeps the invariant (R84, R90). -/
theorem State.memWrite_hier {s t : State} {a v : Word} (hi : s.HierInv) (h : s.memWrite a v = some t) :
    t.HierInv ∧ ∀ b, t.wordAt b = if b = a then some v else s.wordAt b := by
  have hr : (s.wordAt a).isSome = true := by
    cases hw : s.wordAt a with
    | none => rw [(State.memWrite_eq_none_iff s a v).mpr hw] at h; cases h
    | some _ => rfl
  unfold State.memWrite at h
  split at h
  · cases h
  · cases h
    have hi' : (s.onCounters Counters.countWrite).HierInv := hi
    have hr' : ((s.onCounters Counters.countWrite).wordAt a).isSome = true := hr
    obtain ⟨h1, h2, h3⟩ := State.allocate_hier hi' hr'
    obtain ⟨h4, h5⟩ := Hierarchy.store_spec v h1 h3
    refine ⟨h4, fun b => (h5 b.toNat).trans ?_⟩
    by_cases hb : b = a
    · simp [hb]
    · have : b.toNat ≠ a.toNat := fun e => hb (BitVec.eq_of_toNat_eq e)
      simp only [this, hb, if_false]
      exact h2 b

/-- A write keeps the counter laws (R344, R345): it counts as a hit after its allocate. -/
theorem State.memWrite_lawful {s t : State} {a v : Word} (hl : s.pcb.countersLawful) (h : s.memWrite a v = some t) :
    t.pcb.countersLawful := by
  obtain ⟨h1, h2, h3, h4⟩ := hl
  unfold State.memWrite State.allocate at h
  split at h
  · cases h
  · rename_i x hr
    obtain ⟨ti, i⟩ := x
    cases h
    split
    · refine ⟨?_, ?_, ?_, ?_⟩ <;> simp [Nat.mul_add] <;> omega
    · rename_i he
      simp only [State.onCounters_hier] at he
      simp only [State.memRead, State.onCounters_config, hr, State.onCounters_hier, he]
      cases ti <;> refine ⟨?_, ?_, ?_, ?_⟩ <;> simp [Nat.mul_add] <;> omega

/-- The write-allocate counts no write, and the counters the sequencer keeps are no memory counters. -/
theorem State.allocate_counts (s : State) (a : Word) :
    (s.allocate a).pcb.counters.memWrites = s.pcb.counters.memWrites ∧
    (s.allocate a).pcb.counters.pipelineCycles = s.pcb.counters.pipelineCycles ∧
    (s.allocate a).pcb.counters.instructions = s.pcb.counters.instructions := by
  unfold State.allocate
  split
  · exact ⟨rfl, rfl, rfl⟩
  · split
    · rename_i x t h
      exact ⟨(State.memRead_counts h).2, State.memRead_sequencer_counters h⟩
    · exact ⟨rfl, rfl, rfl⟩

/-- A write counts one write, whether or not its allocate reads. -/
theorem State.memWrite_counts {s t : State} {a v : Word} (h : s.memWrite a v = some t) :
    t.pcb.counters.memWrites = s.pcb.counters.memWrites + 1 ∧
    t.pcb.counters.pipelineCycles = s.pcb.counters.pipelineCycles ∧
    t.pcb.counters.instructions = s.pcb.counters.instructions := by
  unfold State.memWrite at h
  split at h
  · cases h
  · cases h
    exact State.allocate_counts (s.onCounters Counters.countWrite) a

end Sys2Proof.Machine
end

