-- ==== Sys2Proof/Laws/Stages.lean ====
section
/-! SUPPORT. What each shared operation of the pipeline can do, once: the passage of a slot through a stage, the redirect, the
sequencer's own parts of a cycle; and that every instruction's meaning is the passage with its own actions
(spec/40_pipeline_sequencer.md R162 to R171). -/

namespace Sys2Proof.Machine

/-! ## The passage of a slot -/

theorem perform_ex {s : State} (d : Decoded) (a : Actions) (hs : s.turn.stage = .ex) :
    perform d a s = match s.pcb.de with
      | none => s.toStage .id
      | some slot => endEx slot d (a.ex s) := by
  simp only [perform, hs]
  all_goals rfl

theorem perform_mem {s : State} (d : Decoded) (a : Actions) (hs : s.turn.stage = .mem) :
    perform d a s = match s.pcb.em with
      | none => s.toStage .memEmit
      | some slot => endMem slot d (a.mem slot s) := by
  simp only [perform, hs]
  all_goals rfl

theorem perform_memEmit {s : State} (d : Decoded) (a : Actions) (hs : s.turn.stage = .memEmit) :
    perform d a s = match s.pcb.mw with
      | none => s.toStage .ex
      | some slot => (a.memEmit slot s).toStage .ex := by
  simp only [perform, hs]
  all_goals rfl

theorem perform_wb {s : State} (d : Decoded) (a : Actions) (hs : s.turn.stage = .wb) :
    perform d a s = match s.pcb.mw with
      | none => s.toStage .mem
      | some slot => retire (a.wb slot s) := by
  simp only [perform, hs]
  all_goals rfl

@[simp] theorem endEx_done (slot : DeSlot) (d : Decoded) (ea sdata : Option Word) (s : State) :
    endEx slot d (.done ea sdata s) =
      { s with
        pcb := { s.pcb with de := none, em := some { ipc := slot.ipc, d := d, ea := ea, sdata := sdata } }
        turn := { s.turn with stage := .id } } := rfl

@[simp] theorem endEx_raised (slot : DeSlot) (d : Decoded) (f : Fault) (s : State) :
    endEx slot d (.raised f s) =
      { s with
        pcb := { s.pcb with de := none, status := .faulted f }
        turn := { Turn.fresh with outcome := some .faulted } } := rfl

@[simp] theorem endMem_done (slot : EmSlot) (d : Decoded) (ldata : Option Word) (s : State) :
    endMem slot d (.done ldata s) =
      { s with
        pcb := { s.pcb with em := none, mw := some { ipc := slot.ipc, d := d, ldata := ldata } }
        turn := { s.turn with stage := .memEmit } } := rfl

@[simp] theorem endMem_raised (slot : EmSlot) (d : Decoded) (f : Fault) (s : State) :
    endMem slot d (.raised f s) =
      { s with
        pcb := { s.pcb with em := none, status := .faulted f }
        turn := { Turn.fresh with outcome := some .faulted } } := rfl

/-! ## Every meaning is a passage -/

/-- The actions of an instruction's meaning. -/
def actionsOf : Instr → Actions
  | .add rd rs rt => { ex := fun s => writeResult rd (alu .add (s.reg rs) (s.reg rt)) s }
  | .sub rd rs rt => { ex := fun s => writeResult rd (alu .sub (s.reg rs) (s.reg rt)) s }
  | .mul rd rs rt => { ex := fun s => writeResult rd (alu .mul (s.reg rs) (s.reg rt)) s }
  | .div rd rs rt => { ex := fun s => writeResult rd (alu .div (s.reg rs) (s.reg rt)) s }
  | .addi rt rs imm => { ex := fun s => writeResult rt (alu .add (s.reg rs) imm) s }
  | .addiu rt rs imm => { ex := fun s => writeResult rt (alu .add (s.reg rs) imm) s }
  | .slti rt rs imm => { ex := fun s => writeResult rt (alu .lt (s.reg rs) imm) s }
  | .lui rt imm => { ex := fun s => .done none none (s.setReg rt (upperImmediate imm)) }
  | .li rt imm => { ex := fun s => .done none none (s.setReg rt imm) }
  | .beq rs rt imm => { ex := fun s => branchOn (cmpEq (s.reg rs) (s.reg rt)) imm s }
  | .bne rs rt imm => { ex := fun s => branchOn (cmpNe (s.reg rs) (s.reg rt)) imm s }
  | .blt rs rt imm => { ex := fun s => branchOn (cmpLt (s.reg rs) (s.reg rt)) imm s }
  | .bgt rs rt imm => { ex := fun s => branchOn (cmpGt (s.reg rs) (s.reg rt)) imm s }
  | .j target => { ex := fun s => redirect target s }
  | .lw rt rs imm =>
    { ex := fun s => .done (some (effectiveAddress rs imm s)) none s
      mem := loadWord
      wb := commitLoad rt }
  | .sw rt rs imm =>
    { ex := fun s => .done (some (effectiveAddress rs imm s)) (some (s.reg rt)) s
      mem := storeWord }
  | .printReg rt => { ex := fun s => .done none none (s.raiseOutput (s.reg rt)) }
  | .printMem rs imm =>
    { ex := fun s => .done (some (effectiveAddress rs imm s)) none s
      mem := loadWord
      memEmit := emitLoaded }
  | .endOfProgram => {}

/-- The actions of a record. -/
def actionsOfDecoded : Decoded → Actions
  | .instr i => actionsOf i
  | .nop => {}

/-- Outside Fetch, `exec` is the passage with the instruction's actions. -/
theorem exec_eq_perform (i : Instr) {s : State} (hs : s.turn.stage ≠ .fetch) :
    exec i s = .next (perform (.instr i) (actionsOf i) s) := by
  cases i <;> try rfl
  show execEndOfProgram s = _
  unfold execEndOfProgram
  split
  · exact absurd ‹_› hs
  · rfl

/-- The same for the record in a latch. -/
theorem execDecoded_eq_perform (d : Decoded) {s : State} (hs : s.turn.stage ≠ .fetch) :
    execDecoded d s = .next (perform d (actionsOfDecoded d) s) := by
  cases d with
  | instr i => exact exec_eq_perform i hs
  | nop => rfl

/-- END in Fetch starts the drain (R168). -/
theorem exec_end_fetch {s : State} (hs : s.turn.stage = .fetch) :
    exec .endOfProgram s = .next ((s.onPcb (fun p => { p with draining := true })).toStage .check) := by
  simp only [exec, execEndOfProgram, hs]

/-- `exec` always answers a next state: no instruction of this hardware stops the machine by itself. -/
theorem exec_total (i : Instr) (s : State) : ∃ t, exec i s = .next t := by
  cases i <;> try exact ⟨_, rfl⟩
  show ∃ t, execEndOfProgram s = .next t
  unfold execEndOfProgram
  split <;> exact ⟨_, rfl⟩

/-! ## The redirect -/

/-- A redirect to an address out of range raises with `pc`, `FD`, the drain and `mar` already written (R171, R331). -/
theorem redirect_out_of_range {s : State} {t : Word} (h : s.wordAt (s.phys t) = none) :
    redirect t s = .raised (.memoryOutOfRange (s.phys t))
      (s.onPcb (fun p => { p with pc := t, fd := none, draining := false, mar := s.phys t })) := by
  have hn : (s.onPcb (fun p => { p with pc := t, fd := none, draining := false, mar := s.phys t })).memRead (s.phys t) = none :=
    (State.memRead_eq_none_iff _ _).mpr h
  unfold redirect
  simp only [hn]

/-- A redirect in range re-primes `ir` with the word at the target and changes `pc`, `FD`, the drain and `mar` (R171, R172). -/
theorem redirect_in_range {s : State} {t v : Word} (h : s.wordAt (s.phys t) = some v) :
    ∃ u, (s.onPcb (fun p => { p with pc := t, fd := none, draining := false, mar := s.phys t })).memRead (s.phys t) = some (v, u) ∧
      redirect t s = .done none none (u.onPcb (fun p => { p with ir := v })) := by
  have hw : (s.onPcb (fun p => { p with pc := t, fd := none, draining := false, mar := s.phys t })).wordAt (s.phys t) = some v := h
  cases hm : (s.onPcb (fun p => { p with pc := t, fd := none, draining := false, mar := s.phys t })).memRead (s.phys t) with
  | none =>
    rw [(State.memRead_eq_none_iff _ _).mp hm] at hw
    cases hw
  | some x =>
    obtain ⟨w, u⟩ := x
    have := State.memRead_value hm
    rw [hw] at this
    cases this
    refine ⟨u, rfl, ?_⟩
    unfold redirect
    simp only [hm]

/-! ## The output request -/

/-- An output request is appended and, when output blocks, marks the turn; nothing else (R313). -/
theorem State.raiseOutput_eq (v : Word) (s : State) :
    s.raiseOutput v = { s with
      queue := s.queue ++ [{ pid := s.pcb.pid, value := v }]
      turn := { s.turn with blockPending := s.turn.blockPending || s.config.printBlocking } } := by
  unfold State.raiseOutput
  cases s.config.printBlocking <;> simp [State.emit, State.onTurn]

/-! ## The machine's next action -/

/-- With an empty agenda a step is the active core's. -/
theorem step_of_agenda_nil {s : State} (h : s.agenda = []) : step s = coreStep s := by
  unfold step nextAction; rw [h]

/-- With an event due, a step is that event. -/
theorem step_of_agenda_cons {s : State} {e : Event} {rest : List Event} (h : s.agenda = e :: rest) :
    step s = performEvent e { s with agenda := rest } := by
  unfold step nextAction; rw [h]

/-- While its turn runs, the core performs the next part of the cycle. -/
theorem coreStep_of_running {s : State} (h : s.turn.outcome = none) : coreStep s = runStage s := by
  unfold coreStep; rw [h]

theorem runStage_start {s : State} (h : s.turn.stage = .start) : runStage s = .next (beginCycle s) := by
  unfold runStage; rw [h]

theorem runStage_id {s : State} (h : s.turn.stage = .id) : runStage s = .next (decodeStage s) := by
  unfold runStage; rw [h]

theorem runStage_fetch {s : State} (h : s.turn.stage = .fetch) : runStage s = fetchStage s := by
  unfold runStage; rw [h]

theorem runStage_check {s : State} (h : s.turn.stage = .check) : runStage s = .next (endCycle s) := by
  unfold runStage; rw [h]

theorem runStage_wb {s : State} (h : s.turn.stage = .wb) :
    runStage s = match s.pcb.mw with
      | none => .next (s.toStage .mem)
      | some slot => execDecoded slot.d s := by
  unfold runStage; rw [h]
  all_goals rfl

theorem runStage_mem {s : State} (h : s.turn.stage = .mem) :
    runStage s = match s.pcb.em with
      | none => .next (s.toStage .memEmit)
      | some slot => execDecoded slot.d s := by
  unfold runStage; rw [h]
  all_goals rfl

theorem runStage_memEmit {s : State} (h : s.turn.stage = .memEmit) :
    runStage s = match s.pcb.mw with
      | none => .next (s.toStage .ex)
      | some slot => execDecoded slot.d s := by
  unfold runStage; rw [h]
  all_goals rfl

theorem runStage_ex {s : State} (h : s.turn.stage = .ex) :
    runStage s = match s.pcb.de with
      | none => .next (s.toStage .id)
      | some slot => execDecoded slot.d s := by
  unfold runStage; rw [h]
  all_goals rfl

/-- A record in `MW` performs WB. -/
theorem runStage_wb_slot {s : State} {slot : MwSlot} (hs : s.turn.stage = .wb) (hd : s.pcb.mw = some slot) :
    runStage s = .next (retire ((actionsOfDecoded slot.d).wb slot s)) := by
  rw [runStage_wb hs, hd]
  simp only []
  rw [execDecoded_eq_perform _ (by simp [hs]), perform_wb _ _ hs, hd]

/-- A record in `EM` performs MEM. -/
theorem runStage_mem_slot {s : State} {slot : EmSlot} (hs : s.turn.stage = .mem) (hd : s.pcb.em = some slot) :
    runStage s = .next (endMem slot slot.d ((actionsOfDecoded slot.d).mem slot s)) := by
  rw [runStage_mem hs, hd]
  simp only []
  rw [execDecoded_eq_perform _ (by simp [hs]), perform_mem _ _ hs, hd]

/-- A record in `MW` performs the second half of MEM. -/
theorem runStage_memEmit_slot {s : State} {slot : MwSlot} (hs : s.turn.stage = .memEmit) (hd : s.pcb.mw = some slot) :
    runStage s = .next (((actionsOfDecoded slot.d).memEmit slot s).toStage .ex) := by
  rw [runStage_memEmit hs, hd]
  simp only []
  rw [execDecoded_eq_perform _ (by simp [hs]), perform_memEmit _ _ hs, hd]

/-- A record in `DE` performs EX. -/
theorem runStage_ex_slot {s : State} {slot : DeSlot} (hs : s.turn.stage = .ex) (hd : s.pcb.de = some slot) :
    runStage s = .next (endEx slot slot.d ((actionsOfDecoded slot.d).ex s)) := by
  rw [runStage_ex hs, hd]
  simp only []
  rw [execDecoded_eq_perform _ (by simp [hs]), perform_ex _ _ hs, hd]

/-- A running turn's next part with no event due is a step. -/
theorem step_of_runStage {s t : State} (ha : s.agenda = []) (ho : s.turn.outcome = none) (h : runStage s = .next t) :
    step s = .next t := by
  rw [step_of_agenda_nil ha, coreStep_of_running ho, h]

/-! ## Runs of several steps -/

/-- A run goes on from the next state of its first step. -/
theorem run_succ {s t : State} (k : Nat) (h : step s = .next t) :
    Host.Core.run Sys2Proof.core (k + 1) s = Host.Core.run Sys2Proof.core k t := by
  have hc : Sys2Proof.core.step s = .next t := h
  simp only [Host.Core.run, hc]

/-- A run of no steps. -/
theorem run_zero (s : State) : Host.Core.run Sys2Proof.core 0 s = .next s := rfl

end Sys2Proof.Machine
end

