-- ==== Sys2Proof/Laws/Agenda.lean ====
section
/-! SUPPORT. No operation of an instruction looks at the agenda or changes it: with another agenda each does the same
(spec/60_exceptions.md R350: what the outside does next is no part of what a core does now). -/

namespace Sys2Proof.Machine

/-- The state with another agenda. -/
def State.withAgenda (es : List Event) (s : State) : State := { s with agenda := es }

@[simp] theorem State.withAgenda_config (es : List Event) (s : State) : (s.withAgenda es).config = s.config := rfl
@[simp] theorem State.withAgenda_hier (es : List Event) (s : State) : (s.withAgenda es).hier = s.hier := rfl
@[simp] theorem State.withAgenda_pcb (es : List Event) (s : State) : (s.withAgenda es).pcb = s.pcb := rfl
@[simp] theorem State.withAgenda_turn (es : List Event) (s : State) : (s.withAgenda es).turn = s.turn := rfl
@[simp] theorem State.withAgenda_phys (es : List Event) (s : State) (a : Word) : (s.withAgenda es).phys a = s.phys a := rfl

theorem State.withAgenda_onPcb (es : List Event) (f : Pcb → Pcb) (s : State) :
    (s.withAgenda es).onPcb f = (s.onPcb f).withAgenda es := rfl
theorem State.withAgenda_onCounters (es : List Event) (f : Counters → Counters) (s : State) :
    (s.withAgenda es).onCounters f = (s.onCounters f).withAgenda es := rfl
theorem State.withAgenda_onHier (es : List Event) (f : Hierarchy → Hierarchy) (s : State) :
    (s.withAgenda es).onHier f = (s.onHier f).withAgenda es := rfl
theorem State.withAgenda_toStage (es : List Event) (g : Stage) (s : State) :
    (s.withAgenda es).toStage g = (s.toStage g).withAgenda es := rfl

/-! ## Memory accesses and the output request -/

theorem State.memRead_withAgenda (es : List Event) (s : State) (a : Word) :
    (s.withAgenda es).memRead a = (s.memRead a).map (fun x => (x.1, x.2.withAgenda es)) := by
  unfold State.memRead
  simp only [State.withAgenda_config, State.withAgenda_hier, State.withAgenda_pcb, State.withAgenda_onCounters,
    State.withAgenda_onHier]
  cases resolve s.config a.toNat with
  | none => rfl
  | some x => cases h : s.hier.entry a.toNat <;> simp

theorem State.allocate_withAgenda (es : List Event) (s : State) (a : Word) :
    (s.withAgenda es).allocate a = (s.allocate a).withAgenda es := by
  unfold State.allocate
  simp only [State.withAgenda_hier, State.memRead_withAgenda]
  cases s.hier.entry a.toNat with
  | some e => rfl
  | none => cases h : s.memRead a <;> simp

theorem State.memWrite_withAgenda (es : List Event) (s : State) (a v : Word) :
    (s.withAgenda es).memWrite a v = (s.memWrite a v).map (·.withAgenda es) := by
  unfold State.memWrite
  simp only [State.withAgenda_config, State.withAgenda_onCounters, State.allocate_withAgenda]
  cases resolve s.config a.toNat <;> rfl

theorem State.raiseOutput_withAgenda (es : List Event) (v : Word) (s : State) :
    (s.withAgenda es).raiseOutput v = (s.raiseOutput v).withAgenda es := by
  unfold State.raiseOutput
  rw [State.withAgenda_config]
  cases s.config.printBlocking <;> rfl

/-! ## The actions of a stage -/

/-- The answer of EX with another agenda in its state. -/
def ExResult.withAgenda (es : List Event) : ExResult → ExResult
  | .done ea sdata s => .done ea sdata (s.withAgenda es)
  | .raised f s => .raised f (s.withAgenda es)

/-- The answer of MEM with another agenda in its state. -/
def MemResult.withAgenda (es : List Event) : MemResult → MemResult
  | .done ldata s => .done ldata (s.withAgenda es)
  | .raised f s => .raised f (s.withAgenda es)

theorem endEx_withAgenda (es : List Event) (slot : DeSlot) (d : Decoded) (r : ExResult) :
    endEx slot d (r.withAgenda es) = (endEx slot d r).withAgenda es := by cases r <;> rfl

theorem endMem_withAgenda (es : List Event) (slot : EmSlot) (d : Decoded) (r : MemResult) :
    endMem slot d (r.withAgenda es) = (endMem slot d r).withAgenda es := by cases r <;> rfl

theorem writeResult_withAgenda (es : List Event) (rd : RegIdx) (r : Except Fault Word) (s : State) :
    writeResult rd r (s.withAgenda es) = (writeResult rd r s).withAgenda es := by cases r <;> rfl

theorem redirect_withAgenda (es : List Event) (t : Word) (s : State) :
    redirect t (s.withAgenda es) = (redirect t s).withAgenda es := by
  unfold redirect
  simp only [State.withAgenda_phys, State.withAgenda_onPcb, State.memRead_withAgenda]
  cases State.memRead _ _ <;> rfl

theorem branchOn_withAgenda (es : List Event) (result target : Word) (s : State) :
    branchOn result target (s.withAgenda es) = (branchOn result target s).withAgenda es := by
  unfold branchOn
  split
  · exact redirect_withAgenda es target s
  · rfl

theorem loadWord_withAgenda (es : List Event) (slot : EmSlot) (s : State) :
    loadWord slot (s.withAgenda es) = (loadWord slot s).withAgenda es := by
  unfold loadWord
  split
  · rfl
  · rw [State.memRead_withAgenda, State.withAgenda_phys]
    cases State.memRead _ _ <;> rfl

theorem storeWord_withAgenda (es : List Event) (slot : EmSlot) (s : State) :
    storeWord slot (s.withAgenda es) = (storeWord slot s).withAgenda es := by
  unfold storeWord
  split
  · rw [State.memWrite_withAgenda, State.withAgenda_phys]
    cases State.memWrite _ _ _ <;> rfl
  · rfl

theorem commitLoad_withAgenda (es : List Event) (rt : RegIdx) (slot : MwSlot) (s : State) :
    commitLoad rt slot (s.withAgenda es) = (commitLoad rt slot s).withAgenda es := by
  unfold commitLoad
  split <;> rfl

theorem emitLoaded_withAgenda (es : List Event) (slot : MwSlot) (s : State) :
    emitLoaded slot (s.withAgenda es) = (emitLoaded slot s).withAgenda es := by
  unfold emitLoaded
  split
  · rfl
  · rw [State.raiseOutput_withAgenda, State.withAgenda_onPcb]

/-! ## The passage of a slot -/

/-- Actions that do the same with another agenda make a passage that does. -/
theorem perform_withAgenda (es : List Event) (d : Decoded) (a : Actions) (s : State)
    (hex : ∀ s, a.ex (s.withAgenda es) = (a.ex s).withAgenda es)
    (hmem : ∀ slot s, a.mem slot (s.withAgenda es) = (a.mem slot s).withAgenda es)
    (hemit : ∀ slot s, a.memEmit slot (s.withAgenda es) = (a.memEmit slot s).withAgenda es)
    (hwb : ∀ slot s, a.wb slot (s.withAgenda es) = (a.wb slot s).withAgenda es) :
    perform d a (s.withAgenda es) = (perform d a s).withAgenda es := by
  unfold perform
  simp only [State.withAgenda_turn, State.withAgenda_pcb, State.withAgenda_toStage]
  cases s.turn.stage <;> simp only []
  · cases s.pcb.mw <;> simp only [hwb]
    rfl
  · cases s.pcb.em <;> simp only [hmem, endMem_withAgenda]
  · cases s.pcb.mw <;> simp only [hemit]
    rfl
  · cases s.pcb.de <;> simp only [hex, endEx_withAgenda]

end Sys2Proof.Machine
end

