-- ==== Sys2Proof/Laws/Moves.lean ====
section
/-! SUPPORT. Everything a step of the active core can do, said once: the inversion of `step` with no event due into one case per part
of a cycle and outcome of it, so that no later proof unfolds the step function. -/

namespace Sys2Proof.Machine

/-! ## What the actions of a record answer -/

/-- Fields of an `EM` slot fit a record. -/
abbrev emFits (d : Decoded) (ea sdata : Option Word) : Prop :=
  EmSlot.fits { ipc := 0#32, d := d, ea := ea, sdata := sdata } = true

/-- The branches and J. -/
def transfers : Decoded → Bool
  | .instr (.beq _ _ _) => true
  | .instr (.bne _ _ _) => true
  | .instr (.blt _ _ _) => true
  | .instr (.bgt _ _ _) => true
  | .instr (.j _) => true
  | _ => false

/-- EX of any record (R166). -/
theorem ex_cases (d : Decoded) (s : State) :
    (∃ ea sdata, (actionsOfDecoded d).ex s = .done ea sdata s ∧ exDestination d = none ∧ emFits d ea sdata) ∨
    (∃ rd v, (actionsOfDecoded d).ex s = .done none none (s.setReg rd v) ∧ exDestination d = some rd) ∨
    (∃ a, (actionsOfDecoded d).ex s = .raised (.divideByZero a) s ∧ ∃ rd rs rt, d = .instr (.div rd rs rt)) ∨
    (∃ target, (actionsOfDecoded d).ex s = redirect target s ∧ transfers d = true) ∨
    (∃ rt, (actionsOfDecoded d).ex s = .done none none (s.raiseOutput (s.reg rt)) ∧ d = .instr (.printReg rt)) := by
  have result : ∀ rd (r : Except Fault Word), (∃ v, r = .ok v) → exDestination d = some rd →
      (actionsOfDecoded d).ex s = writeResult rd r s →
      ∃ rd v, (actionsOfDecoded d).ex s = .done none none (s.setReg rd v) ∧ exDestination d = some rd := by
    rintro rd r ⟨v, rfl⟩ hd h
    exact ⟨rd, v, h, hd⟩
  have branch : ∀ r target, (actionsOfDecoded d).ex s = branchOn r target s → transfers d = true → exDestination d = none →
      emFits d none none →
      (∃ ea sdata, (actionsOfDecoded d).ex s = .done ea sdata s ∧ exDestination d = none ∧ emFits d ea sdata) ∨
      (∃ target, (actionsOfDecoded d).ex s = redirect target s ∧ transfers d = true) := by
    intro r target h ht hd hf
    rw [h]
    unfold branchOn
    split
    · exact .inr ⟨target, rfl, ht⟩
    · exact .inl ⟨none, none, rfl, hd, hf⟩
  have skip : ∀ {p q r t u : Prop}, p ∨ t → p ∨ q ∨ r ∨ t ∨ u := by
    intro p q r t u h
    rcases h with h | h
    · exact .inl h
    · exact .inr (.inr (.inr (.inl h)))
  cases d with
  | nop => exact .inl ⟨none, none, rfl, rfl, rfl⟩
  | instr i =>
    cases i
    case div rd rs rt =>
      cases h : alu .div (s.reg rs) (s.reg rt) with
      | ok v => exact .inr (.inl ⟨rd, v, by simp only [actionsOfDecoded, actionsOf, h]; rfl, rfl⟩)
      | error f =>
        refine .inr (.inr (.inl ⟨s.reg rs, ?_, rd, rs, rt, rfl⟩))
        have hf : f = .divideByZero (s.reg rs) := by
          simp only [alu, aluDiv] at h
          split at h
          · injection h with h; exact h.symm
          · split at h <;> cases h
        simp only [actionsOfDecoded, actionsOf, h, hf]
        rfl
    case beq => exact skip (branch _ _ rfl rfl rfl rfl)
    case bne => exact skip (branch _ _ rfl rfl rfl rfl)
    case blt => exact skip (branch _ _ rfl rfl rfl rfl)
    case bgt => exact skip (branch _ _ rfl rfl rfl rfl)
    case j target => exact .inr (.inr (.inr (.inl ⟨target, rfl, rfl⟩)))
    case printReg rt => exact .inr (.inr (.inr (.inr ⟨rt, rfl, rfl⟩)))
    case lw => exact .inl ⟨_, _, rfl, rfl, rfl⟩
    case sw => exact .inl ⟨_, _, rfl, rfl, rfl⟩
    case printMem => exact .inl ⟨_, _, rfl, rfl, rfl⟩
    case endOfProgram => exact .inl ⟨none, none, rfl, rfl, rfl⟩
    case lui rt imm => exact .inr (.inl ⟨rt, _, rfl, rfl⟩)
    case li rt imm => exact .inr (.inl ⟨rt, _, rfl, rfl⟩)
    all_goals exact .inr (.inl (result _ _ ⟨_, rfl⟩ rfl rfl))

/-- The records that load in MEM. -/
def loads : Decoded → Bool
  | .instr (.lw _ _ _) => true
  | .instr (.printMem _ _) => true
  | _ => false

/-- MEM of any record (R165). -/
theorem mem_cases (slot : EmSlot) (s : State) :
    ((actionsOfDecoded slot.d).mem slot s = .done none s ∧ slot.stores = none ∧ (slot.fits = true → loads slot.d = false)) ∨
    (∃ ea, (actionsOfDecoded slot.d).mem slot s = loadWord slot s ∧ slot.ea = some ea ∧ slot.stores = none ∧
      loads slot.d = true) ∨
    (∃ ea v, (actionsOfDecoded slot.d).mem slot s = storeWord slot s ∧ slot.ea = some ea ∧ slot.sdata = some v ∧
      slot.stores = some (ea, v) ∧ loads slot.d = false ∧ ∃ rt rs imm, slot.d = .instr (.sw rt rs imm)) := by
  obtain ⟨ipc, d, ea, sdata⟩ := slot
  cases d with
  | nop => exact .inl ⟨rfl, rfl, fun _ => rfl⟩
  | instr i =>
    cases i
    case lw =>
      cases ea with
      | none => exact .inl ⟨rfl, rfl, fun h => by simp [EmSlot.fits] at h⟩
      | some ea => exact .inr (.inl ⟨ea, rfl, rfl, rfl, rfl⟩)
    case printMem =>
      cases ea with
      | none => exact .inl ⟨rfl, rfl, fun h => by simp [EmSlot.fits] at h⟩
      | some ea => exact .inr (.inl ⟨ea, rfl, rfl, rfl, rfl⟩)
    case sw rt rs imm =>
      cases ea with
      | none => exact .inl ⟨rfl, rfl, fun _ => rfl⟩
      | some ea =>
        cases sdata with
        | none => exact .inl ⟨rfl, rfl, fun _ => rfl⟩
        | some v => exact .inr (.inr ⟨ea, v, rfl, rfl, rfl, rfl, rfl, rt, rs, imm, rfl⟩)
    all_goals exact .inl ⟨rfl, rfl, fun _ => rfl⟩

/-- The second half of MEM of any record (R311, log 1). -/
theorem memEmit_cases (slot : MwSlot) (s : State) :
    (actionsOfDecoded slot.d).memEmit slot s = s ∨
    ∃ v rs imm, slot.d = .instr (.printMem rs imm) ∧ slot.ldata = some v ∧
      (actionsOfDecoded slot.d).memEmit slot s =
        (s.raiseOutput v).onPcb (fun p => { p with mw := some { slot with ldata := none } }) := by
  obtain ⟨ipc, d, ldata⟩ := slot
  cases d with
  | nop => exact .inl rfl
  | instr i =>
    cases i
    case printMem rs imm =>
      cases ldata with
      | none => exact .inl rfl
      | some v => exact .inr ⟨v, rs, imm, rfl, rfl, rfl⟩
    all_goals exact .inl rfl

/-- WB of any record (R164). -/
theorem wb_cases (slot : MwSlot) (s : State) :
    (actionsOfDecoded slot.d).wb slot s = s ∨
    ∃ rt v, wbDestination slot.d = some rt ∧ slot.ldata = some v ∧ (actionsOfDecoded slot.d).wb slot s = s.setReg rt v := by
  obtain ⟨ipc, d, ldata⟩ := slot
  cases d with
  | nop => exact .inl rfl
  | instr i =>
    cases i
    case lw rt rs imm =>
      cases ldata with
      | none => exact .inl rfl
      | some v => exact .inr ⟨rt, v, rfl, rfl, rfl⟩
    all_goals exact .inl rfl

/-! ## Accesses, each outcome with what it leaves -/

/-- The state after an access: another hierarchy and other counters. -/
abbrev State.accessed (s : State) (g : Hierarchy) (k : Counters) : State :=
  { s with hier := g, pcb := { s.pcb with counters := k } }

/-- What holds of the hierarchy and the counters a read leaves. -/
abbrev readLeaves (s : State) (g : Hierarchy) (k : Counters) : Prop :=
  (s.HierInv → (s.accessed g k).HierInv ∧ ∀ b, (s.accessed g k).wordAt b = s.wordAt b) ∧
  (s.pcb.countersLawful → (s.accessed g k).pcb.countersLawful)

/-- What holds of the hierarchy and the counters a write leaves. -/
abbrev writeLeaves (a v : Word) (s : State) (g : Hierarchy) (k : Counters) : Prop :=
  (s.HierInv → (s.accessed g k).HierInv ∧ ∀ b, (s.accessed g k).wordAt b = if b = a then some v else s.wordAt b) ∧
  (s.pcb.countersLawful → (s.accessed g k).pcb.countersLawful)

/-- A read raises, or returns the word at its address. -/
theorem State.memRead_cases (s : State) (a : Word) :
    (s.memRead a = none ∧ s.wordAt a = none) ∨
    ∃ v g k, s.memRead a = some (v, s.accessed g k) ∧ s.wordAt a = some v ∧ readLeaves s g k := by
  cases h : s.memRead a with
  | none => exact .inl ⟨rfl, (State.memRead_eq_none_iff s a).mp h⟩
  | some x =>
    obtain ⟨v, t⟩ := x
    obtain ⟨g, k, rfl⟩ := onlyAccessed_exists (State.memRead_frame h)
    exact .inr ⟨v, g, k, rfl, State.memRead_value h, fun hi => ⟨(State.memRead_hier hi h).1, (State.memRead_hier hi h).2.1⟩,
      fun hl => State.memRead_lawful hl h⟩

/-- A write raises, or changes the word at its address. -/
theorem State.memWrite_cases (s : State) (a v : Word) :
    (s.memWrite a v = none ∧ s.wordAt a = none) ∨
    ∃ g k, s.memWrite a v = some (s.accessed g k) ∧ s.wordAt a ≠ none ∧ writeLeaves a v s g k := by
  cases h : s.memWrite a v with
  | none => exact .inl ⟨rfl, (State.memWrite_eq_none_iff s a v).mp h⟩
  | some t =>
    have hw : s.wordAt a ≠ none := fun e => by rw [(State.memWrite_eq_none_iff s a v).mpr e] at h; cases h
    obtain ⟨g, k, rfl⟩ := onlyAccessed_exists (State.memWrite_frame h)
    exact .inr ⟨g, k, rfl, hw, fun hi => State.memWrite_hier hi h, fun hl => State.memWrite_lawful hl h⟩

/-! ## The moves of the core -/

/-- The state of a redirect before its read (R171). -/
abbrev State.redirected (s : State) (target : Word) : State :=
  s.onPcb (fun p => { p with pc := target, fd := none, draining := false, mar := s.phys target })

/-- The state of a Fetch before its read (R168). -/
abbrev State.fetching (s : State) : State := s.onPcb (fun p => { p with mar := s.phys s.pcb.pc })

/-- The turn may end after this part of the cycle, with this outcome and status (R177, R178, R179). -/
inductive MayEnd (s : State) : TurnOutcome → ProcStatus → Prop where
  | drained (h : s.drained = true) : MayEnd s .finished .finished
  | blocked (h : s.turn.blockPending = true) : MayEnd s .blocked .blocked
  | expired (h : s.pcb.quantum ≤ s.turn.cycles) : MayEnd s .quantumExpired .running

/-- Every way a running turn takes its next part of a cycle, from `s` to the state named. -/
inductive CoreMove (s : State) : State → Prop where
  /-- The stage has nothing to do and nothing ends. -/
  | passed (hs : s.turn.stage ≠ .start)
      (hw : s.turn.stage = .wb → s.pcb.mw = none) (hm : s.turn.stage = .mem → s.pcb.em = none)
      (hx : s.turn.stage = .ex → s.pcb.de = none)
      (hc : s.turn.stage = .check → s.turn.cycles < s.pcb.quantum ∧ s.turn.blockPending = false ∧ s.drained = false) :
      CoreMove s (s.toStage s.turn.stage.following)
  /-- The cycle is counted (R177, R341). -/
  | counted (hs : s.turn.stage = .start) (hd : s.drained = false) :
      CoreMove s { s with
        pcb := { s.pcb with counters := { s.pcb.counters with pipelineCycles := s.pcb.counters.pipelineCycles + 1 } }
        turn := { s.turn with cycles := s.turn.cycles + 1, stage := .wb } }
  /-- The turn ends (R178). -/
  | ended (o : TurnOutcome) (st : ProcStatus) (hs : s.turn.stage = .start ∨ s.turn.stage = .check) (he : MayEnd s o st) :
      CoreMove s (s.endTurn o st)
  /-- A slot retires without a register (R164). -/
  | retired (slot : MwSlot) (hs : s.turn.stage = .wb) (hd : s.pcb.mw = some slot) : CoreMove s (retire s)
  /-- A load's word is written as it retires (R164, R291). -/
  | committed (slot : MwSlot) (rt : RegIdx) (v : Word) (hs : s.turn.stage = .wb) (hd : s.pcb.mw = some slot)
      (hr : wbDestination slot.d = some rt) (hv : slot.ldata = some v) : CoreMove s (retire (s.setReg rt v))
  /-- A slot passes MEM without an access (R165). -/
  | passedMem (slot : EmSlot) (hs : s.turn.stage = .mem) (hd : s.pcb.em = some slot) (hn : slot.stores = none)
      (hf : slot.fits = true → loads slot.d = false) : CoreMove s (endMem slot slot.d (.done none s))
  /-- LW or PRINT_MEM has read (R291, R311). -/
  | loaded (slot : EmSlot) (ea v : Word) (g : Hierarchy) (k : Counters) (hs : s.turn.stage = .mem) (hd : s.pcb.em = some slot)
      (hn : slot.stores = none) (hl : loads slot.d = true) (he : slot.ea = some ea) (hv : s.wordAt (s.phys ea) = some v)
      (hg : readLeaves s g k) : CoreMove s (endMem slot slot.d (.done (some v) (s.accessed g k)))
  /-- SW has written (R292). -/
  | stored (slot : EmSlot) (ea v : Word) (g : Hierarchy) (k : Counters) (hs : s.turn.stage = .mem) (hd : s.pcb.em = some slot)
      (hst : slot.stores = some (ea, v)) (hl : loads slot.d = false) (hw : s.wordAt (s.phys ea) ≠ none)
      (hg : writeLeaves (s.phys ea) v s g k) : CoreMove s (endMem slot slot.d (.done none (s.accessed g k)))
  /-- The access of MEM is out of range (R333). -/
  | faultedMem (slot : EmSlot) (ea : Word) (hs : s.turn.stage = .mem) (hd : s.pcb.em = some slot) (he : slot.ea = some ea)
      (hw : s.wordAt (s.phys ea) = none) (hst : ∀ x, slot.stores = some x → x.1 = ea) :
      CoreMove s (endMem slot slot.d (.raised (.memoryOutOfRange (s.phys ea)) s))
  /-- PRINT_MEM emits the word it read (R311). -/
  | emitted (slot : MwSlot) (rs : RegIdx) (imm v : Word) (hs : s.turn.stage = .memEmit) (hd : s.pcb.mw = some slot)
      (hi : slot.d = .instr (.printMem rs imm)) (hv : slot.ldata = some v) :
      CoreMove s (((s.raiseOutput v).onPcb (fun p => { p with mw := some { slot with ldata := none } })).toStage .ex)
  /-- A slot passes EX without writing a register (R166). -/
  | passedEx (slot : DeSlot) (ea sdata : Option Word) (hs : s.turn.stage = .ex) (hd : s.pcb.de = some slot)
      (hf : emFits slot.d ea sdata) : CoreMove s (endEx slot slot.d (.done ea sdata s))
  /-- An ALU result or an immediate is written (R166). -/
  | wrote (slot : DeSlot) (rd : RegIdx) (v : Word) (hs : s.turn.stage = .ex) (hd : s.pcb.de = some slot)
      (hr : exDestination slot.d = some rd) : CoreMove s (endEx slot slot.d (.done none none (s.setReg rd v)))
  /-- A division by zero (R332). -/
  | faultedDiv (slot : DeSlot) (a : Word) (hs : s.turn.stage = .ex) (hd : s.pcb.de = some slot) :
      CoreMove s (endEx slot slot.d (.raised (.divideByZero a) s))
  /-- A taken transfer (R171). -/
  | redirected (slot : DeSlot) (target v : Word) (g : Hierarchy) (k : Counters) (hs : s.turn.stage = .ex)
      (hd : s.pcb.de = some slot) (ht : transfers slot.d = true) (hv : s.wordAt (s.phys target) = some v)
      (hg : readLeaves (s.redirected target) g k) :
      CoreMove s (endEx slot slot.d (.done none none (((s.redirected target).accessed g k).onPcb (fun p => { p with ir := v }))))
  /-- A taken transfer out of range (R172). -/
  | faultedRedirect (slot : DeSlot) (target : Word) (hs : s.turn.stage = .ex) (hd : s.pcb.de = some slot)
      (hw : s.wordAt (s.phys target) = none) :
      CoreMove s (endEx slot slot.d (.raised (.memoryOutOfRange (s.phys target)) (s.redirected target)))
  /-- PRINT_REG emits (R310). -/
  | printed (slot : DeSlot) (rt : RegIdx) (hs : s.turn.stage = .ex) (hd : s.pcb.de = some slot)
      (hi : slot.d = .instr (.printReg rt)) : CoreMove s (endEx slot slot.d (.done none none (s.raiseOutput (s.reg rt))))
  /-- ID (R167). -/
  | decoded (slot : FdSlot) (hs : s.turn.stage = .id) (hd : s.pcb.fd = some slot) :
      CoreMove s ((s.onPcb (fun p => { p with fd := none, de := some { ipc := slot.ipc, d := decode slot.word } })).toStage .fetch)
  /-- Fetch of the sentinel (R168, R314). -/
  | fetchedEnd (g : Hierarchy) (k : Counters) (hs : s.turn.stage = .fetch) (hv : s.wordAt (s.phys s.pcb.pc) = some sentinel)
      (hg : readLeaves s.fetching g k) :
      CoreMove s ((((s.fetching.accessed g k).onPcb (fun p => { p with ir := sentinel })).onPcb
        (fun p => { p with draining := true })).toStage .check)
  /-- Fetch of any other word (R168). -/
  | fetched (w : Word) (g : Hierarchy) (k : Counters) (hs : s.turn.stage = .fetch) (hn : w ≠ sentinel)
      (hv : s.wordAt (s.phys s.pcb.pc) = some w) (hg : readLeaves s.fetching g k) :
      CoreMove s ((((s.fetching.accessed g k).onPcb (fun p => { p with ir := w })).onPcb
        (fun p => { p with fd := some { word := w, ipc := p.pc }, pc := p.pc + 4#32 })).toStage .check)
  /-- Fetch out of range (R333). -/
  | faultedFetch (hs : s.turn.stage = .fetch) (hw : s.wordAt (s.phys s.pcb.pc) = none) :
      CoreMove s (s.fetching.raise (.memoryOutOfRange (s.phys s.pcb.pc)))

/-- A running turn's next part of a cycle answers a next state, and every such is a move. -/
theorem runStage_moves (s : State) : ∃ t, runStage s = .next t ∧ CoreMove s t := by
  cases hs : s.turn.stage with
  | start =>
    rw [runStage_start hs, beginCycle]
    cases hd : s.drained with
    | true => exact ⟨_, rfl, .ended _ _ (.inl hs) (.drained hd)⟩
    | false => exact ⟨_, rfl, .counted hs hd⟩
  | wb =>
    rw [runStage_wb hs]
    cases hd : s.pcb.mw with
    | none =>
      refine ⟨_, rfl, ?_⟩
      have h := CoreMove.passed (s := s) (by simp [hs]) (fun _ => hd) (by simp [hs]) (by simp [hs]) (by simp [hs])
      rwa [hs] at h
    | some slot =>
      simp only []
      rw [execDecoded_eq_perform _ (by simp [hs]), perform_wb _ _ hs, hd]
      refine ⟨_, rfl, ?_⟩
      rcases wb_cases slot s with h | ⟨rt, v, hr, hv, h⟩
      · simp only [h]; exact .retired slot hs hd
      · simp only [h]; exact .committed slot rt v hs hd hr hv
  | mem =>
    rw [runStage_mem hs]
    cases hd : s.pcb.em with
    | none =>
      refine ⟨_, rfl, ?_⟩
      have h := CoreMove.passed (s := s) (by simp [hs]) (by simp [hs]) (fun _ => hd) (by simp [hs]) (by simp [hs])
      rwa [hs] at h
    | some slot =>
      simp only []
      rw [execDecoded_eq_perform _ (by simp [hs]), perform_mem _ _ hs, hd]
      refine ⟨_, rfl, ?_⟩
      rcases mem_cases slot s with ⟨h, hn, hf⟩ | ⟨ea, h, he, hn, hl⟩ | ⟨ea, v, h, he, hv, hst, hl, -⟩
      · simp only [h]; exact .passedMem slot hs hd hn hf
      · simp only [h, loadWord, he]
        rcases s.memRead_cases (s.phys ea) with ⟨h, hw⟩ | ⟨v, g, k, h, hw, hg⟩
        · simp only [h]; exact .faultedMem slot ea hs hd he hw (by simp [hn])
        · simp only [h]; exact .loaded slot ea v g k hs hd hn hl he hw hg
      · simp only [h, storeWord, he, hv]
        rcases s.memWrite_cases (s.phys ea) v with ⟨h, hw⟩ | ⟨g, k, h, hw, hg⟩
        · simp only [h]; exact .faultedMem slot ea hs hd he hw (by rw [hst]; rintro x hx; cases hx; rfl)
        · simp only [h]; exact .stored slot ea v g k hs hd hst hl hw hg
  | memEmit =>
    rw [runStage_memEmit hs]
    have hp := CoreMove.passed (s := s) (by simp [hs]) (by simp [hs]) (by simp [hs]) (by simp [hs]) (by simp [hs])
    rw [hs] at hp
    cases hd : s.pcb.mw with
    | none => exact ⟨_, rfl, hp⟩
    | some slot =>
      simp only []
      rw [execDecoded_eq_perform _ (by simp [hs]), perform_memEmit _ _ hs, hd]
      refine ⟨_, rfl, ?_⟩
      rcases memEmit_cases slot s with h | ⟨v, rs, imm, hi, hv, h⟩
      · simp only [h]; exact hp
      · simp only [h]; exact .emitted slot rs imm v hs hd hi hv
  | ex =>
    rw [runStage_ex hs]
    cases hd : s.pcb.de with
    | none =>
      refine ⟨_, rfl, ?_⟩
      have h := CoreMove.passed (s := s) (by simp [hs]) (by simp [hs]) (by simp [hs]) (fun _ => hd) (by simp [hs])
      rwa [hs] at h
    | some slot =>
      simp only []
      rw [execDecoded_eq_perform _ (by simp [hs]), perform_ex _ _ hs, hd]
      refine ⟨_, rfl, ?_⟩
      rcases ex_cases slot.d s with ⟨ea, sdata, h, -, hf⟩ | ⟨rd, v, h, hr⟩ | ⟨a, h, -⟩ | ⟨target, h, ht⟩ | ⟨rt, h, hi⟩
      · simp only [h]; exact .passedEx slot ea sdata hs hd hf
      · simp only [h]; exact .wrote slot rd v hs hd hr
      · simp only [h]; exact .faultedDiv slot a hs hd
      · simp only [h, redirect]
        rcases (s.redirected target).memRead_cases (s.phys target) with ⟨h, hw⟩ | ⟨v, g, k, h, hw, hg⟩
        · simp only [h]; exact .faultedRedirect slot target hs hd hw
        · simp only [h]; exact .redirected slot target v g k hs hd ht hw hg
      · simp only [h]; exact .printed slot rt hs hd hi
  | id =>
    rw [runStage_id hs, decodeStage]
    cases hd : s.pcb.fd with
    | none =>
      refine ⟨_, rfl, ?_⟩
      have h := CoreMove.passed (s := s) (by simp [hs]) (by simp [hs]) (by simp [hs]) (by simp [hs]) (by simp [hs])
      rwa [hs] at h
    | some slot => exact ⟨_, rfl, .decoded slot hs hd⟩
  | fetch =>
    rw [runStage_fetch hs, fetchStage]
    split
    · refine ⟨_, rfl, ?_⟩
      have h := CoreMove.passed (s := s) (by simp [hs]) (by simp [hs]) (by simp [hs]) (by simp [hs]) (by simp [hs])
      rwa [hs] at h
    · rcases s.fetching.memRead_cases (s.phys s.pcb.pc) with ⟨h, hw⟩ | ⟨w, g, k, h, hw, hg⟩
      · simp only [h]; exact ⟨_, rfl, .faultedFetch hs hw⟩
      · simp only [h]
        split
        · rename_i hn
          subst hn
          rw [exec_end_fetch (by exact hs)]
          exact ⟨_, rfl, .fetchedEnd g k hs hw hg⟩
        · exact ⟨_, rfl, .fetched w g k hs ‹_› hw hg⟩
  | check =>
    rw [runStage_check hs, endCycle]
    split
    · exact ⟨_, rfl, .ended _ _ (.inr hs) (.blocked ‹_›)⟩
    · split
      · exact ⟨_, rfl, .ended _ _ (.inr hs) (.expired ‹_›)⟩
      · split
        · exact ⟨_, rfl, .ended _ _ (.inr hs) (.drained ‹_›)⟩
        · refine ⟨_, rfl, ?_⟩
          have h := CoreMove.passed (s := s) (by simp [hs]) (by simp [hs]) (by simp [hs]) (by simp [hs])
            (fun _ => ⟨by omega, by simp_all, by simp_all⟩)
          rwa [hs] at h

/-- What the core does to a next state is a move of the running turn, a new turn of the process in hand, or nothing at all. -/
theorem coreStep_cases {s t : State} (h : coreStep s = .next t) :
    (s.turn.outcome = none ∧ CoreMove s t) ∨
    (s.turn.outcome ≠ none ∧ (s.pcb.status = .ready ∨ s.pcb.status = .running) ∧ t = s.startTurn) ∨
    (s.turn.outcome ≠ none ∧ t = s) := by
  unfold coreStep at h
  cases ho : s.turn.outcome with
  | none =>
    obtain ⟨u, hu, hm⟩ := runStage_moves s
    rw [ho] at h
    simp only [hu, Host.Outcome.next.injEq] at h
    exact .inl ⟨rfl, h ▸ hm⟩
  | some o =>
    rw [ho] at h
    cases o
    case idle => cases h; exact .inr (.inr ⟨by simp, rfl⟩)
    all_goals
      simp only at h
      split at h
      · cases h; exact .inr (.inl ⟨by simp, .inl ‹_›, rfl⟩)
      · cases h; exact .inr (.inl ⟨by simp, .inr ‹_›, rfl⟩)
      · cases h; exact .inr (.inr ⟨by simp, rfl⟩)
      · cases h; exact .inr (.inr ⟨by simp, rfl⟩)
      · cases h

/-- The same for a step with no event due. -/
theorem step_cases {s t : State} (ha : s.agenda = []) (h : step s = .next t) :
    (s.turn.outcome = none ∧ CoreMove s t) ∨
    (s.turn.outcome ≠ none ∧ (s.pcb.status = .ready ∨ s.pcb.status = .running) ∧ t = s.startTurn) ∨
    (s.turn.outcome ≠ none ∧ t = s) :=
  coreStep_cases (step_of_agenda_nil ha ▸ h)

/-- A step is the core's, with or without a `run` event due, or one of the other events (R350, R352). -/
theorem step_split {s t : State} (h : step s = .next t) :
    (∃ rest, coreStep { s with agenda := rest } = .next t) ∨
    ∃ e rest, e ≠ .run ∧ s.agenda = e :: rest ∧ performEvent e { s with agenda := rest } = .next t := by
  cases ha : s.agenda with
  | nil =>
    rw [step_of_agenda_nil ha] at h
    exact .inl ⟨[], ha ▸ h⟩
  | cons e rest =>
    rw [step_of_agenda_cons ha] at h
    by_cases he : e = .run
    · subst he; exact .inl ⟨rest, h⟩
    · exact .inr ⟨e, rest, he, rfl, h⟩

end Sys2Proof.Machine
end

