-- ==== Sys2Proof/Laws/Agents.lean ====
section
/-! SUPPORT. Everything an event other than the active core's own step can do, said once, and the lemmas of the operations the
coordinator, the loader and the I/O manager use (spec/60_exceptions.md R349 to R352). -/

namespace Sys2Proof.Machine

/-! ## The PCBs handed out, given back and woken -/

theorem Pcb.givenBack_eq (p : Pcb) :
    p.givenBack = if p.status = .running then { p with status := .ready } else p := by
  unfold Pcb.givenBack
  cases p.status <;> rfl

@[simp] theorem Pcb.givenBack_pid (p : Pcb) : p.givenBack.pid = p.pid := by
  rw [Pcb.givenBack_eq]; split <;> rfl

@[simp] theorem Pcb.givenBack_quantum (p : Pcb) : p.givenBack.quantum = p.quantum := by
  rw [Pcb.givenBack_eq]; split <;> rfl

/-- A PCB no core holds is not Running (R53, R178). -/
theorem Pcb.givenBack_not_running (p : Pcb) : p.givenBack.status ≠ .running := by
  rw [Pcb.givenBack_eq]
  split
  · simp
  · assumption

@[simp] theorem Pcb.unblock_pid (pid : Nat) (p : Pcb) : (p.unblock pid).pid = p.pid := by
  unfold Pcb.unblock; split <;> rfl

@[simp] theorem Pcb.unblock_quantum (pid : Nat) (p : Pcb) : (p.unblock pid).quantum = p.quantum := by
  unfold Pcb.unblock; split <;> rfl

@[simp] theorem Pcb.unblock_absent (pid : Nat) : Pcb.absent.unblock pid = Pcb.absent := by
  simp [Pcb.unblock, Pcb.absent, Pcb.created]

theorem State.mem_parkedAfterHand {s : State} {k : Nat} {p : Pcb} (h : p ∈ s.parkedAfterHand k) :
    p ∈ s.parked ∨ p = s.pcb.givenBack := by
  unfold State.parkedAfterHand at h
  split at h
  · exact .inl (List.mem_of_mem_eraseIdx h)
  · exact List.mem_or_eq_of_mem_set h

@[simp] theorem Turn.idle_stage : Turn.idle.stage = .start := rfl
@[simp] theorem Turn.idle_cycles : Turn.idle.cycles = 0 := rfl
@[simp] theorem Turn.idle_blockPending : Turn.idle.blockPending = false := rfl
@[simp] theorem Turn.idle_outcome : Turn.idle.outcome = some .idle := rfl
@[simp] theorem State.core_id (s : State) : s.core.id = s.coreId := rfl
@[simp] theorem State.core_pcb (s : State) : s.core.pcb = s.pcb := rfl
@[simp] theorem State.core_turn (s : State) : s.core.turn = s.turn := rfl

/-! ## What an event does -/

/-- An action of an agent outside the active core, from `s` to the state named. -/
inductive AgentMove (s : State) : State → Prop where
  /-- Another core is the active one (R350). -/
  | switched (k : Nat) (c : CoreCtx) (hc : s.others[k]? = some c) :
      AgentMove s { s with coreId := c.id, pcb := c.pcb, turn := c.turn, others := s.others.set k s.core }
  /-- A turn starts (R175, R351). -/
  | handed (k : Nat) (p : Pcb) (ho : s.turn.outcome ≠ none) (hp : s.parked[k]? = some p) (hr : p.status = .ready) :
      AgentMove s { s with pcb := p, parked := s.parkedAfterHand k }.startTurn
  /-- The PCB of an ended turn is routed back (R175). -/
  | taken (ho : s.turn.outcome ≠ none) (hi : s.turn.outcome ≠ some .idle) :
      AgentMove s { s with pcb := Pcb.absent, turn := Turn.idle, parked := s.parked ++ [s.pcb.givenBack] }
  /-- A full invalidate (R91). -/
  | emptied (ho : s.turn.outcome ≠ none) : AgentMove s (s.onHier (·.fullInvalidate s.config))
  /-- A partial invalidate (R92). -/
  | polluted (pick : List Nat) (ho : s.turn.outcome ≠ none) : AgentMove s (s.onHier (·.partialInvalidate s.config pick))
  /-- The loader's write (R99). -/
  | wrote (a v : Word) (g : Hierarchy) (k : Counters) (hw : s.wordAt a ≠ none) (hg : writeLeaves a v s g k) :
      AgentMove s { s with hier := g }
  /-- A process is created (R361, R363). -/
  | launched (pid : Nat) (base : Word) (quantum wCache wPrimary wSecondary : Nat) (hq : quantum ≠ 0) (hp : pid ∉ s.pids) :
      AgentMove s { s with parked := s.parked ++ [Pcb.created pid base quantum wCache wPrimary wSecondary] }
  /-- A request is removed (R312). -/
  | took (k : Nat) (hk : k < s.queue.length) : AgentMove s { s with queue := s.queue.eraseIdx k }
  /-- A process is unblocked (R179). -/
  | unblocked (pid : Nat) : AgentMove s (s.unblock pid)

/-- An invalidation is performed between turns alone (R352). -/
theorem invalidate_cases {f : Hierarchy → Hierarchy} {s t : State} (h : invalidate f s = .next t) :
    s.turn.outcome ≠ none ∧ t = s.onHier f := by
  unfold invalidate at h
  split at h <;> cases h
  exact ⟨by simp [*], rfl⟩

/-- An event other than `run` that is not refused is one of these actions. -/
theorem performEvent_cases {e : Event} {s t : State} (he : e ≠ .run) (h : performEvent e s = .next t) : AgentMove s t := by
  cases e <;> simp only [performEvent] at h
  case run => exact absurd rfl he
  case switchCore k =>
    unfold switchCore at h
    split at h <;> cases h
    exact .switched k _ ‹_›
  case handPcb k =>
    unfold handPcb at h
    split at h
    · cases h
    · split at h
      · cases h
      · split at h <;> cases h
        exact .handed k _ (by simp [*]) ‹_› ‹_›
  case takePcb =>
    unfold takePcb at h
    split at h <;> cases h
    exact .taken (by simp [*]) (by simp_all)
  case fullInvalidate =>
    obtain ⟨ho, rfl⟩ := invalidate_cases h
    exact .emptied ho
  case partialInvalidate pick =>
    obtain ⟨ho, rfl⟩ := invalidate_cases h
    exact .polluted pick ho
  case loadWord a v =>
    unfold loaderWrite at h
    rcases s.memWrite_cases a v with ⟨hm, -⟩ | ⟨g, k, hm, hw, hg⟩ <;> simp only [hm] at h <;> cases h
    exact .wrote a v g k hw hg
  case launch =>
    unfold launchPcb at h
    split at h <;> cases h
    rename_i hn
    exact .launched _ _ _ _ _ _ (fun e => hn (.inl e)) (fun e => hn (.inr e))
  case takeRequest k =>
    unfold takeRequest at h
    split at h <;> cases h
    exact .took k ‹_›
  case unblock pid => cases h; exact .unblocked pid

/-- A step is the active core's, with or without a `run` event due, or an action of another agent (R350, R352). -/
theorem step_moves {s t : State} (h : step s = .next t) :
    ∃ rest, coreStep { s with agenda := rest } = .next t ∨ AgentMove { s with agenda := rest } t := by
  rcases step_split h with ⟨rest, h⟩ | ⟨e, rest, he, -, h⟩
  · exact ⟨rest, .inl h⟩
  · exact ⟨rest, .inr (performEvent_cases he h)⟩

end Sys2Proof.Machine
end

