-- ==== Sys2Proof/Laws/Encoding.lean ====
section
/-! SUPPORT. The fields of a word put together in one of the three formats (spec/30_encoding.md R121 to R123), the word put together
from its fields, and the decoder on a word of each format. -/

namespace Sys2Proof

/-! ## Slices of joined bit vectors -/

/-- A slice that lies in the low part. -/
theorem extract_low {m n : Nat} (x : BitVec m) (y : BitVec n) (k l : Nat) (h : k + l ≤ n) :
    (x ++ y).extractLsb' k l = y.extractLsb' k l := by
  ext i hi
  simp [BitVec.getElem_extractLsb', BitVec.getLsbD_append, show k + i < n by omega]

/-- A slice that lies in the high part. -/
theorem extract_high {m n : Nat} (x : BitVec m) (y : BitVec n) (k j l : Nat) (h : k = n + j) :
    (x ++ y).extractLsb' k l = x.extractLsb' j l := by
  subst h
  ext i hi
  simp [BitVec.getElem_extractLsb', BitVec.getLsbD_append, show ¬ n + j + i < n by omega, show n + j + i - n = j + i by omega]

/-- Two slices that meet make the slice of both. -/
theorem extract_join {n : Nat} (w : BitVec n) (k l m : Nat) :
    w.extractLsb' (k + l) m ++ w.extractLsb' k l = w.extractLsb' k (m + l) := by
  ext i hi
  simp only [BitVec.getElem_append, BitVec.getElem_extractLsb']
  split
  · rfl
  · congr 1; omega

/-! ## The R format -/

theorem rFormat_fields (op f : BitVec 6) (rs rt rd sh : RegIdx) :
    opField (op ++ rs ++ rt ++ rd ++ sh ++ f) = op ∧ rsField (op ++ rs ++ rt ++ rd ++ sh ++ f) = rs ∧
    rtField (op ++ rs ++ rt ++ rd ++ sh ++ f) = rt ∧ rdField (op ++ rs ++ rt ++ rd ++ sh ++ f) = rd ∧
    functField (op ++ rs ++ rt ++ rd ++ sh ++ f) = f := by
  unfold opField rsField rtField rdField functField
  refine ⟨?_, ?_, ?_, ?_, ?_⟩
  · rw [extract_high _ _ 26 20 6 rfl, extract_high _ _ 20 15 6 rfl, extract_high _ _ 15 10 6 rfl,
      extract_high _ _ 10 5 6 rfl, extract_high _ _ 5 0 6 rfl]
    simp
  · rw [extract_high _ _ 21 15 5 rfl, extract_high _ _ 15 10 5 rfl, extract_high _ _ 10 5 5 rfl,
      extract_high _ _ 5 0 5 rfl, extract_low _ _ 0 5 (by decide)]
    simp
  · rw [extract_high _ _ 16 10 5 rfl, extract_high _ _ 10 5 5 rfl, extract_high _ _ 5 0 5 rfl,
      extract_low _ _ 0 5 (by decide)]
    simp
  · rw [extract_high _ _ 11 5 5 rfl, extract_high _ _ 5 0 5 rfl, extract_low _ _ 0 5 (by decide)]
    simp
  · rw [extract_low _ _ 0 6 (by decide)]
    simp

/-! ## The I format -/

theorem iFormat_fields (op : BitVec 6) (rs rt : RegIdx) (imm : BitVec 16) :
    opField (op ++ rs ++ rt ++ imm) = op ∧ rsField (op ++ rs ++ rt ++ imm) = rs ∧
    rtField (op ++ rs ++ rt ++ imm) = rt ∧ immField (op ++ rs ++ rt ++ imm) = imm.signExtend 32 := by
  unfold opField rsField rtField immField
  refine ⟨?_, ?_, ?_, ?_⟩
  · rw [extract_high _ _ 26 10 6 rfl, extract_high _ _ 10 5 6 rfl, extract_high _ _ 5 0 6 rfl]
    simp
  · rw [extract_high _ _ 21 5 5 rfl, extract_high _ _ 5 0 5 rfl, extract_low _ _ 0 5 (by decide)]
    simp
  · rw [extract_high _ _ 16 0 5 rfl, extract_low _ _ 0 5 (by decide)]
    simp
  · rw [extract_low _ _ 0 16 (by decide)]
    simp

/-! ## The J format -/

theorem jFormat_fields (op : BitVec 6) (target : BitVec 26) :
    opField (op ++ target) = op ∧ targetField (op ++ target) = target.setWidth 32 := by
  unfold opField targetField
  refine ⟨?_, ?_⟩
  · rw [extract_high _ _ 26 0 6 rfl]
    simp
  · rw [extract_low _ _ 0 26 (by decide)]
    simp

/-! ## The word from its fields -/

/-- The opcode of the sentinel is no opcode of the map. -/
theorem ne_sentinel_of_op {w : Word} (h : opField w ≠ 0x3F#6) : w ≠ sentinel := by
  intro e
  subst e
  exact h (by decide)

theorem word_eq_rFormat (w : Word) :
    opField w ++ rsField w ++ rtField w ++ rdField w ++ w.extractLsb' 6 5 ++ functField w = w := by
  unfold opField rsField rtField rdField functField
  rw [extract_join w 21 5 6, extract_join w 16 5 11, extract_join w 11 5 16, extract_join w 6 5 21, extract_join w 0 6 26]
  simp

theorem word_eq_iFormat (w : Word) : opField w ++ rsField w ++ rtField w ++ w.extractLsb' 0 16 = w := by
  unfold opField rsField rtField
  rw [extract_join w 21 5 6, extract_join w 16 5 11, extract_join w 0 16 16]
  simp

theorem word_eq_jFormat (w : Word) : opField w ++ w.extractLsb' 0 26 = w := by
  unfold opField
  rw [extract_join w 0 26 6]
  simp

/-! ## Immediates and targets -/

/-- The decoded immediate is one a record can hold. -/
theorem immOk_signExtend (x : BitVec 16) : immOk (x.signExtend 32) = true := by
  have h : (x.signExtend 32).extractLsb' 0 16 = x := by
    ext i hi
    rw [BitVec.getElem_extractLsb', Nat.zero_add, BitVec.getLsbD_eq_getElem (show i < 32 by omega), BitVec.getElem_signExtend,
      dif_pos hi]
  unfold immOk
  rw [h]
  simp

/-- The decoded target is one a record can hold. -/
theorem targetOk_setWidth (x : BitVec 26) : targetOk (x.setWidth 32) = true := by
  have := x.isLt
  unfold targetOk
  simp only [BitVec.toNat_setWidth, decide_eq_true_eq]
  omega

/-- A target in 26 bits is the extension of its low 26 bits. -/
theorem target_eq_setWidth {t : Word} (h : targetOk t = true) : (t.extractLsb' 0 26).setWidth 32 = t := by
  unfold targetOk at h
  simp only [decide_eq_true_eq] at h
  apply BitVec.eq_of_toNat_eq
  simp only [BitVec.toNat_setWidth, BitVec.extractLsb'_toNat, Nat.shiftRight_zero]
  omega

/-! ## The decoder on a word whose opcode is known -/

theorem decode_of_op {w : Word} {op : BitVec 6} (h : opField w = op) (hs : op ≠ 0x3F#6) :
    decode w = match op.toNat with
      | 0x00 => decodeRFormat w
      | 0x02 => .instr (.j (targetField w))
      | 0x04 => .instr (.beq (rsField w) (rtField w) (immField w))
      | 0x05 => .instr (.bne (rsField w) (rtField w) (immField w))
      | 0x06 => .instr (.blt (rsField w) (rtField w) (immField w))
      | 0x07 => .instr (.bgt (rsField w) (rtField w) (immField w))
      | 0x08 => .instr (.addi (rtField w) (rsField w) (immField w))
      | 0x09 => .instr (.addiu (rtField w) (rsField w) (immField w))
      | 0x0A => .instr (.slti (rtField w) (rsField w) (immField w))
      | 0x0F => .instr (.lui (rtField w) (immField w))
      | 0x18 => .instr (.li (rtField w) (immField w))
      | 0x19 => .instr (.printReg (rtField w))
      | 0x1A => .instr (.printMem (rsField w) (immField w))
      | 0x23 => .instr (.lw (rtField w) (rsField w) (immField w))
      | 0x2B => .instr (.sw (rtField w) (rsField w) (immField w))
      | _ => .nop := by
  subst h
  unfold decode
  rw [if_neg (ne_sentinel_of_op hs)]
  all_goals rfl

end Sys2Proof
end

