-- ==== Sys2Proof/Laws/PerInstr.lean ====
section
/-! SUPPORT. The statements made per instruction: the family `OpcodeRow` says that an instruction's encoding, whatever its operands,
has the fixed fields its row of spec/opcode_table.json gives (R121 to R124, R130, R131). -/

namespace Sys2Proof.Laws.OpcodeRow

/-- The row's opcode, and the function field where it has one; no opcode for the sentinel, which is one whole word (R124). -/
def row : Instr → Option (BitVec 6 × Option (BitVec 6))
  | .add _ _ _ => some (0x00#6, some 0x20#6)
  | .sub _ _ _ => some (0x00#6, some 0x22#6)
  | .mul _ _ _ => some (0x00#6, some 0x18#6)
  | .div _ _ _ => some (0x00#6, some 0x1A#6)
  | .addi _ _ _ => some (0x08#6, none)
  | .addiu _ _ _ => some (0x09#6, none)
  | .slti _ _ _ => some (0x0A#6, none)
  | .lui _ _ => some (0x0F#6, none)
  | .li _ _ => some (0x18#6, none)
  | .beq _ _ _ => some (0x04#6, none)
  | .bne _ _ _ => some (0x05#6, none)
  | .blt _ _ _ => some (0x06#6, none)
  | .bgt _ _ _ => some (0x07#6, none)
  | .j _ => some (0x02#6, none)
  | .lw _ _ _ => some (0x23#6, none)
  | .sw _ _ _ => some (0x2B#6, none)
  | .printReg _ => some (0x19#6, none)
  | .printMem _ _ => some (0x1A#6, none)
  | .endOfProgram => none

/-- The encoding has the fixed fields of its row. -/
def Statement (i : Instr) : Prop :=
  match row i with
  | some (op, some funct) => opField (encode i) = op ∧ functField (encode i) = funct
  | some (op, none) => opField (encode i) = op
  | none => encode i = 0xFFFFFFFF#32

theorem add (rd rs rt : RegIdx) : Statement (.add rd rs rt) :=
  ⟨(rFormat_fields 0#6 0x20#6 rs rt rd 0#5).1, (rFormat_fields 0#6 0x20#6 rs rt rd 0#5).2.2.2.2⟩

theorem sub (rd rs rt : RegIdx) : Statement (.sub rd rs rt) :=
  ⟨(rFormat_fields 0#6 0x22#6 rs rt rd 0#5).1, (rFormat_fields 0#6 0x22#6 rs rt rd 0#5).2.2.2.2⟩

theorem mul (rd rs rt : RegIdx) : Statement (.mul rd rs rt) :=
  ⟨(rFormat_fields 0#6 0x18#6 rs rt rd 0#5).1, (rFormat_fields 0#6 0x18#6 rs rt rd 0#5).2.2.2.2⟩

theorem div (rd rs rt : RegIdx) : Statement (.div rd rs rt) :=
  ⟨(rFormat_fields 0#6 0x1A#6 rs rt rd 0#5).1, (rFormat_fields 0#6 0x1A#6 rs rt rd 0#5).2.2.2.2⟩

theorem addi (rt : RegIdx) (rs : RegIdx) (imm : Word) : Statement (.addi rt rs imm) :=
  (iFormat_fields 0x08#6 rs rt (imm.extractLsb' 0 16)).1

theorem addiu (rt : RegIdx) (rs : RegIdx) (imm : Word) : Statement (.addiu rt rs imm) :=
  (iFormat_fields 0x09#6 rs rt (imm.extractLsb' 0 16)).1

theorem slti (rt : RegIdx) (rs : RegIdx) (imm : Word) : Statement (.slti rt rs imm) :=
  (iFormat_fields 0x0A#6 rs rt (imm.extractLsb' 0 16)).1

theorem lui (rt : RegIdx) (imm : Word) : Statement (.lui rt imm) :=
  (iFormat_fields 0x0F#6 0#5 rt (imm.extractLsb' 0 16)).1

theorem li (rt : RegIdx) (imm : Word) : Statement (.li rt imm) :=
  (iFormat_fields 0x18#6 0#5 rt (imm.extractLsb' 0 16)).1

theorem beq (rs : RegIdx) (rt : RegIdx) (imm : Word) : Statement (.beq rs rt imm) :=
  (iFormat_fields 0x04#6 rs rt (imm.extractLsb' 0 16)).1

theorem bne (rs : RegIdx) (rt : RegIdx) (imm : Word) : Statement (.bne rs rt imm) :=
  (iFormat_fields 0x05#6 rs rt (imm.extractLsb' 0 16)).1

theorem blt (rs : RegIdx) (rt : RegIdx) (imm : Word) : Statement (.blt rs rt imm) :=
  (iFormat_fields 0x06#6 rs rt (imm.extractLsb' 0 16)).1

theorem bgt (rs : RegIdx) (rt : RegIdx) (imm : Word) : Statement (.bgt rs rt imm) :=
  (iFormat_fields 0x07#6 rs rt (imm.extractLsb' 0 16)).1

theorem j (target : Word) : Statement (.j target) :=
  (jFormat_fields 0x02#6 (target.extractLsb' 0 26)).1

theorem lw (rt : RegIdx) (rs : RegIdx) (imm : Word) : Statement (.lw rt rs imm) :=
  (iFormat_fields 0x23#6 rs rt (imm.extractLsb' 0 16)).1

theorem sw (rt : RegIdx) (rs : RegIdx) (imm : Word) : Statement (.sw rt rs imm) :=
  (iFormat_fields 0x2B#6 rs rt (imm.extractLsb' 0 16)).1

theorem printReg (rt : RegIdx) : Statement (.printReg rt) :=
  (iFormat_fields 0x19#6 0#5 rt ((0#32 : Word).extractLsb' 0 16)).1

theorem printMem (rs : RegIdx) (imm : Word) : Statement (.printMem rs imm) :=
  (iFormat_fields 0x1A#6 rs 0#5 (imm.extractLsb' 0 16)).1

theorem endOfProgram : Statement .endOfProgram := rfl

end Sys2Proof.Laws.OpcodeRow
end

