-- ==== Sys2Proof/Tests/Slice0.lean ====
section
/-! SUPPORT. The model's own tests: ill-formed terms the well-formedness check refuses, the decoder on words of
spec/95_test_vectors.md, at most two tests of one step per instruction from the same file's vectors, and for every statement with
hypotheses a state that meets them. -/

namespace Sys2Proof.Tests

open Sys2Proof.Machine

/-! ## Well-formedness refuses -/

theorem test_wf_refuses_immediates :
    [Instr.addi 1#5 2#5 0x8000#32, .addiu 1#5 2#5 0xFFFF7FFF#32, .slti 1#5 2#5 0x10000#32, .lui 1#5 0xFFFF#32,
      .li 1#5 0xFFFF0000#32, .beq 1#5 2#5 0x8000#32, .bne 1#5 2#5 0x12345678#32, .blt 1#5 2#5 0x8000#32,
      .bgt 1#5 2#5 0x8000#32, .lw 1#5 2#5 0x8000#32, .sw 1#5 2#5 0x8000#32, .printMem 1#5 0x8000#32].all
      (fun i => !wellFormed i) = true := by decide

theorem test_wf_refuses_target : wellFormed (.j 0x04000000#32) = false := by decide

theorem test_wf_accepts_bounds :
    [Instr.addi 1#5 2#5 0x7FFF#32, .li 1#5 0xFFFF8000#32, .j 0x03FFFFFF#32, .endOfProgram].all wellFormed = true := by decide

/-! ## Decoding of the spec's words (T-DEC-1 to T-DEC-28 and the words of the family tables) -/

theorem test_decode_register_arithmetic :
    decode 0x012A4020#32 = .instr (.add 8#5 9#5 10#5) ∧ decode 0x012A4060#32 = .instr (.add 8#5 9#5 10#5) ∧
    decode 0x012A4022#32 = .instr (.sub 8#5 9#5 10#5) ∧ decode 0x012A4018#32 = .instr (.mul 8#5 9#5 10#5) ∧
    decode 0x012A401A#32 = .instr (.div 8#5 9#5 10#5) ∧ decode 0x03E0F81A#32 = .instr (.div 31#5 31#5 0#5) := by decide

theorem test_decode_immediate_arithmetic :
    decode 0x2008FFFB#32 = .instr (.addi 8#5 0#5 0xFFFFFFFB#32) ∧ decode 0x2508FFFF#32 = .instr (.addiu 8#5 8#5 0xFFFFFFFF#32) ∧
    decode 0x2928000A#32 = .instr (.slti 8#5 9#5 10#32) ∧ decode 0x3C281234#32 = .instr (.lui 8#5 0x1234#32) ∧
    decode 0x3C08FFFF#32 = .instr (.lui 8#5 0xFFFFFFFF#32) ∧ decode 0x60088000#32 = .instr (.li 8#5 0xFFFF8000#32) := by decide

theorem test_decode_control_transfer :
    decode 0x10228000#32 = .instr (.beq 1#5 2#5 0xFFFF8000#32) ∧ decode 0x14200008#32 = .instr (.bne 1#5 0#5 8#32) ∧
    decode 0x18220020#32 = .instr (.blt 1#5 2#5 0x20#32) ∧ decode 0x1C220000#32 = .instr (.bgt 1#5 2#5 0#32) ∧
    decode 0x0BFFFFFF#32 = .instr (.j 0x03FFFFFF#32) ∧ decode 0x08000000#32 = .instr (.j 0#32) := by decide

theorem test_decode_memory_and_output :
    decode 0x8D28FFFC#32 = .instr (.lw 8#5 9#5 0xFFFFFFFC#32) ∧ decode 0xAD280008#32 = .instr (.sw 8#5 9#5 8#32) ∧
    decode 0x64A8FFFF#32 = .instr (.printReg 8#5) ∧ decode 0x69280004#32 = .instr (.printMem 9#5 4#32) ∧
    decode 0xFFFFFFFF#32 = .instr .endOfProgram := by decide

theorem test_decode_nop :
    [0x00000000#32, 0x00000021#32, 0x00000008#32, 0xFC000000#32, 0xFFFFFFFE#32, 0x7FFFFFFF#32, 0x0C000000#32, 0x40000000#32].all
      (fun w => decode w == .nop) = true := by decide

theorem test_decode_table_word : decodeTableWord 32 0x64000000 = some (.printReg 0#5) ∧ decodeTableWord 32 0 = none := by decide

/-! ## States for the tests -/

/-- The common start state (spec/95_test_vectors.md) with some registers and words of the primary tier set. -/
def start (xs : List (RegIdx × Word)) (m : Memory) : State :=
  { xs.foldl (fun s x => s.setReg x.1 x.2) State.reset with hier := { Hierarchy.empty with primary := m } }

/-- The instruction of a word about to perform EX. -/
def inEx (w : Nat) (xs : List (RegIdx × Word)) : State := (start xs []).withFetchWord 32 w

/-- A slot about to perform MEM. -/
def inMem (i : Instr) (ea sdata : Option Word) (m : Memory) : State :=
  let s := start [] m
  { s with
    pcb := { s.pcb with em := some { ipc := 0#32, d := .instr i, ea := ea, sdata := sdata } }
    turn := { s.turn with stage := .mem } }

/-- A slot in `MW` about to perform the stage `g`. -/
def inMw (g : Stage) (d : Decoded) (ldata : Option Word) : State :=
  let s := start [] []
  { s with
    pcb := { s.pcb with mw := some { ipc := 0#32, d := d, ldata := ldata } }
    turn := { s.turn with stage := g } }

/-- The start state at a part of the cycle. -/
def atStage (g : Stage) (m : Memory) : State := (start [] m).toStage g

/-- The state after one step. -/
def after (s : State) : Option State :=
  match step s with
  | .next t => some t
  | _ => none

/-- What one register holds after one step. -/
def regAfter (s : State) (r : RegIdx) : Option Word := (after s).map (·.reg r)

/-- The `pc` after one step. -/
def pcAfter (s : State) : Option Word := (after s).map (·.pcb.pc)

/-- The status of the process after one step. -/
def statusAfter (s : State) : Option ProcStatus := (after s).map (·.pcb.status)

/-! ## One step per instruction -/

theorem test_add : regAfter (inEx 0x012A4020 [(9#5, 5#32), (10#5, 0xFFFFFFFD#32)]) 8#5 = some 2#32 := by decide  -- T-RA-1

theorem test_add_to_register_zero : regAfter (inEx 0x012A0020 [(9#5, 1#32), (10#5, 2#32)]) 0#5 = some 3#32 := by decide  -- T-RA-12

theorem test_sub : regAfter (inEx 0x012A4022 [(9#5, 3#32), (10#5, 5#32)]) 8#5 = some 0xFFFFFFFE#32 := by decide  -- T-RA-4

theorem test_mul : regAfter (inEx 0x012A4018 [(9#5, 0xFFFFFFFA#32), (10#5, 7#32)]) 8#5 = some 0xFFFFFFD6#32 := by decide  -- T-RA-6

theorem test_div : regAfter (inEx 0x012A401A [(9#5, 0xFFFFFFF9#32), (10#5, 2#32)]) 8#5 = some 0xFFFFFFFD#32 := by decide  -- T-RA-8

theorem test_div_by_zero :  -- T-RA-10
    statusAfter (inEx 0x012A401A [(9#5, 9#32)]) = some (.faulted (.divideByZero 9#32)) := by decide

theorem test_addi : regAfter (inEx 0x21080001 [(8#5, 0x7FFFFFFF#32)]) 8#5 = some 0x80000000#32 := by decide  -- T-IA-2

theorem test_addiu : regAfter (inEx 0x2508FFFF []) 8#5 = some 0xFFFFFFFF#32 := by decide  -- T-IA-4

theorem test_slti_signed : regAfter (inEx 0x29280000 [(9#5, 0xFFFFFFFF#32)]) 8#5 = some 1#32 := by decide  -- T-IA-6

theorem test_slti_equal : regAfter (inEx 0x29280003 [(9#5, 3#32)]) 8#5 = some 0#32 := by decide  -- T-IA-9

theorem test_lui : regAfter (inEx 0x3C08FFFF []) 8#5 = some 0xFFFF0000#32 := by decide  -- T-IA-12

theorem test_li : regAfter (inEx 0x60088000 []) 8#5 = some 0xFFFF8000#32 := by decide  -- T-IA-15

theorem test_beq_taken : pcAfter (inEx 0x10220040 [(1#5, 7#32), (2#5, 7#32)]) = some 0x40#32 := by decide  -- T-CT-1

theorem test_beq_out_of_range :  -- T-CT-14
    statusAfter (inEx 0x10008000 []) = some (.faulted (.memoryOutOfRange 0xFFFF8000#32)) := by decide

theorem test_bne_not_taken : pcAfter (inEx 0x14630008 [(3#5, 1#32)]) = some 0#32 := by decide  -- T-CT-5

theorem test_bne_taken : pcAfter (inEx 0x14200006 [(1#5, 1#32)]) = some 6#32 := by decide  -- T-CT-15

theorem test_blt_signed : pcAfter (inEx 0x18220020 [(1#5, 0x80000000#32)]) = some 0x20#32 := by decide  -- T-CT-7

theorem test_bgt_not_taken :  -- T-CT-10, with a target that would show
    pcAfter (inEx 0x1C220040 [(1#5, 0xFFFFFFFF#32)]) = some 0#32 := by decide

theorem test_bgt_taken : pcAfter (inEx 0x1C220040 [(1#5, 5#32), (2#5, 4#32)]) = some 0x40#32 := by decide  -- R274

theorem test_j : pcAfter (inEx 0x08000100 []) = some 0x100#32 := by decide  -- T-CT-11

theorem test_lw_address :  -- T-LS-2
    (after (inEx 0x8D28FFFC [(9#5, 0x10#32)])).map (·.pcb.em) =
      some (some { ipc := 0#32, d := .instr (.lw 8#5 9#5 0xFFFFFFFC#32), ea := some 0xC#32, sdata := none }) := by decide

theorem test_lw_reads :  -- T-LS-1
    (after (inMem (.lw 8#5 9#5 4#32) (some 0x104#32) none [(0x104, 42#32)])).map (·.pcb.mw) =
      some (some { ipc := 0#32, d := .instr (.lw 8#5 9#5 4#32), ldata := some 42#32 }) := by decide

theorem test_sw_writes_the_cache :  -- T-LS-3
    (after (inMem (.sw 8#5 9#5 8#32) (some 0x108#32) (some 7#32) [])).map (·.hier.cache) =
      some [(0x108, { data := 7#32, valid := true, dirty := true })] := by decide

theorem test_lw_out_of_range :  -- T-LS-5
    statusAfter (inMem (.lw 8#5 1#5 0x7FFF#32) (some 0xFFFE#32) none []) =
      some (.faulted (.memoryOutOfRange 0xFFFE#32)) := by decide

theorem test_print_reg :  -- T-OUT-1
    (after (inEx 0x64080000 [(8#5, 42#32)])).map (·.queue) = some [{ pid := 0, value := 42#32 }] := by decide

theorem test_print_mem :  -- T-OUT-2
    (after (inMw .memEmit (.instr (.printMem 0#5 0x200#32)) (some 9#32))).map (·.queue) =
      some [{ pid := 0, value := 9#32 }] := by decide

theorem test_print_mem_out_of_range :  -- T-OUT-4
    statusAfter (inMem (.printMem 1#5 0x7FFF#32) (some 0xFFFE#32) none []) =
      some (.faulted (.memoryOutOfRange 0xFFFE#32)) := by decide

theorem test_end :  -- T-END-1
    (after ((start [] []).withFetchWord 32 0xFFFFFFFF)).map (fun t => (t.pcb.draining, t.pcb.pc, t.pcb.fd)) =
      some (true, 0#32, none) := by decide

theorem test_nop_retires :  -- T-NOP-1
    (after (inMw .wb .nop none)).map (·.pcb.counters.instructions) = some 1 := by decide

/-! ## Every statement with hypotheses has a state and operands that meet them -/

/-- DecodeOfEncode, at the bounds of the immediate and of the target. -/
theorem witness_well_formed :
    wellFormed (.lw 31#5 0#5 0xFFFF8000#32) = true ∧ wellFormed (.addi 0#5 31#5 0x7FFF#32) = true ∧
    wellFormed (.j 0x03FFFFFF#32) = true ∧ wellFormed (.j 0#32) = true := by decide

/-- ReencodedRecordDecodesAlike and DecodedRecordsAreWellFormed, for a word that is not its record's encoding. -/
theorem witness_decoded : decode 0x012A4060#32 = .instr (.add 8#5 9#5 10#5) ∧ encode (.add 8#5 9#5 10#5) ≠ 0x012A4060#32 := by
  decide

/-- DivisionIsTruncatedQuotient and DivWritesQuotientOrFaults: a zero divisor, the wrapping pair, and both neighbours of it. -/
theorem witness_division :
    (0#32 : Word) = 0#32 ∧ (0xFFFFFFFF#32 ≠ 0#32 ∧ ¬ (0x80000001#32 = 0x80000000#32 ∧ 0xFFFFFFFF#32 = 0xFFFFFFFF#32)) ∧
    (1#32 ≠ 0#32 ∧ ¬ (0x80000000#32 = 0x80000000#32 ∧ 1#32 = 0xFFFFFFFF#32)) := by decide

/-- AluLaws: the premises of its clauses. -/
theorem witness_alu_laws :
    alu .add 1#32 2#32 = .ok 3#32 ∧ alu .add 2#32 3#32 = .ok 5#32 ∧ alu .mul 2#32 3#32 = .ok 6#32 ∧
    alu .mul 3#32 4#32 = .ok 12#32 ∧ alu .eq 1#32 2#32 = .ok 0#32 ∧ alu .ne 1#32 2#32 = .ok 1#32 ∧
    alu .div 7#32 0xFFFFFFFE#32 = .ok 0xFFFFFFFD#32 := ⟨rfl, rfl, rfl, rfl, rfl, rfl, rfl⟩

/-- The statements about EX, with a divisor that is not zero and one that is, a comparison that holds and one that fails, and a
target in range and out of it. -/
theorem witness_in_ex :
    (∃ slot, (inEx 0x012A401A [(10#5, 1#32)]).pcb.de = some slot) ∧ (inEx 0x012A401A [(10#5, 1#32)]).turn.stage = .ex ∧
    (inEx 0x012A401A [(10#5, 1#32)]).reg 10#5 ≠ 0#32 ∧ (inEx 0x012A401A []).reg 10#5 = 0#32 ∧
    (inEx 0x10220040 []).HierInv ∧ (inEx 0x10220040 [(1#5, 7#32)]).reg 1#5 ≠ (inEx 0x10220040 [(1#5, 7#32)]).reg 2#5 ∧
    (inEx 0x10220040 []).wordAt ((inEx 0x10220040 []).phys 0x1FFF#32) ≠ none ∧
    (inEx 0x10220040 []).wordAt ((inEx 0x10220040 []).phys 0x2000#32) = none :=
  ⟨⟨_, rfl⟩, by decide, by decide, by decide, by decide, by decide, by decide, by decide⟩

/-- LoadWordStages and PrintMemStages in MEM: the last address in range and the first out of it. -/
theorem witness_load_in_mem :
    (inMem (.lw 8#5 9#5 4#32) (some 0x1FFF#32) none []).HierInv ∧
    (inMem (.lw 8#5 9#5 4#32) (some 0x1FFF#32) none []).turn.stage = .mem ∧
    (∃ slot, (inMem (.lw 8#5 9#5 4#32) (some 0x1FFF#32) none []).pcb.em = some slot ∧ slot.ea = some 0x1FFF#32) ∧
    (inMem (.lw 8#5 9#5 4#32) (some 0x1FFF#32) none []).wordAt 0x1FFF#32 = some 0#32 ∧
    (inMem (.lw 8#5 9#5 4#32) (some 0x2000#32) none []).wordAt 0x2000#32 = none :=
  ⟨by decide, rfl, ⟨_, rfl, rfl⟩, by decide, by decide⟩

/-- StoreWordStages in MEM. -/
theorem witness_store_in_mem :
    (∃ slot, (inMem (.sw 8#5 9#5 4#32) (some 0x1FFF#32) (some 7#32) []).pcb.em = some slot ∧ slot.ea = some 0x1FFF#32 ∧
      slot.sdata = some 7#32) ∧
    (inMem (.sw 8#5 9#5 4#32) (some 0x1FFF#32) (some 7#32) []).wordAt 0x1FFF#32 ≠ none :=
  ⟨⟨_, rfl, rfl, rfl⟩, by decide⟩

/-- The statements about WB and about the second half of MEM. -/
theorem witness_in_mw :
    (∃ slot, (inMw .wb (.instr (.lw 8#5 9#5 4#32)) (some 5#32)).pcb.mw = some slot ∧ slot.ldata = some 5#32) ∧
    (inMw .wb (.instr (.lw 8#5 9#5 4#32)) (some 5#32)).turn.stage = .wb ∧
    (∃ slot, (inMw .memEmit (.instr (.printMem 9#5 4#32)) (some 5#32)).pcb.mw = some slot ∧ slot.ldata = some 5#32) ∧
    (inMw .memEmit (.instr (.printMem 9#5 4#32)) (some 5#32)).turn.stage = .memEmit :=
  ⟨⟨_, rfl, rfl⟩, rfl, ⟨_, rfl, rfl⟩, rfl⟩

/-- OthersDoNothingInMem. -/
theorem witness_others_in_mem :
    accessesMemory (.add 1#5 2#5 3#5) = false ∧ (∀ rs imm, Instr.lw 1#5 2#5 4#32 ≠ .printMem rs imm) :=
  ⟨by decide, fun _ _ => by intro h; cases h⟩

/-- EndStartsTheDrain. -/
theorem witness_in_fetch : (atStage .fetch []).turn.stage = .fetch := rfl

/-- TierResolution: each clause at its bounds. -/
theorem witness_tiers :
    Config.initial.wf ∧ 0xFFF < Config.initial.limit ∧ Config.initial.limit ≤ 0x1000 ∧
    0x1FFF - Config.initial.limit < Config.initial.secondarySize ∧
    Config.initial.secondarySize ≤ 0x2000 - Config.initial.limit := by decide

/-- A full cache of one dirty entry. -/
def fullConfig : Config := { Config.initial with cacheCapacity := 1 }

/-- The hierarchy of that cache. -/
def fullCache (dirty : Bool) : Hierarchy where
  cache := [(1, { data := 7#32, valid := true, dirty := dirty })]
  order := [1]
  primary := [(1, 7#32)]
  secondary := []

/-- InsertEvictsTheVictim, with a clean victim and a dirty one. -/
theorem witness_victim :
    (fullCache true).Inv fullConfig ∧ (fullCache false).Inv fullConfig ∧ (fullCache true).entry 2 = none ∧
    fullConfig.cacheCapacity ≤ (fullCache true).cache.length ∧ (fullCache true).order = [1] ∧
    (fullCache true).entry 1 = some { data := 7#32, valid := true, dirty := true } :=
  ⟨by decide, by decide, rfl, by decide, rfl, rfl⟩

/-- InsertWithoutVictim: room, or an empty bookkeeping. -/
theorem witness_no_victim :
    Hierarchy.empty.cache.length < fullConfig.cacheCapacity ∧ ({ fullCache true with order := [] } : Hierarchy).order = [] :=
  ⟨by decide, rfl⟩

/-- A state whose cache holds address 1. -/
def cached (r : Replacement) : State :=
  { State.reset with config := { fullConfig with replacement := r }, hier := fullCache true }

/-- ReadReturnsTheWord, WriteThenReadReturnsValue, AccessCounters and TouchFollowsThePolicy: a hit, a miss of each tier, and an
address out of range. -/
theorem witness_accesses :
    (cached .lru).HierInv ∧ (cached .lru).hier.entry (1#32 : Word).toNat = some { data := 7#32, valid := true, dirty := true } ∧
    ((cached .lru).memRead 1#32).isSome = true ∧ ((cached .fifo).memWrite 1#32 9#32).isSome = true ∧
    ((cached .lru).memRead 0x1000#32).isSome = true ∧ ((cached .lru).memWrite 0x1000#32 9#32).isSome = true ∧
    ((cached .lru).memWrite 0xFFF#32 9#32).isSome = true ∧ (cached .lru).hier.entry (0xFFF#32 : Word).toNat = none ∧ (cached .lru).hier.entry (0x1000#32 : Word).toNat = none ∧
    resolve (cached .lru).config (0x1000#32 : Word).toNat = some (.secondary, 0) ∧
    resolve (cached .lru).config (0xFFF#32 : Word).toNat = some (.primary, 0xFFF) ∧
    (cached .lru).wordAt 0x2000#32 = none := by decide

/-- StepRunsTheInstructionInItsStage: an instruction in a latch, a NOP in one, and the sentinel at `phys(pc)`. -/
theorem witness_step_runs :
    (inEx 0x012A4020 []).agenda = [] ∧ (inEx 0x012A4020 []).turn.outcome = none ∧
    (inEx 0x012A4020 []).pcb.de = some { ipc := 0#32, d := .instr (.add 8#5 9#5 10#5) } ∧
    (inEx 0 []).pcb.de = some { ipc := 0#32, d := .nop } ∧ (inEx 0 []).turn.stage = .ex ∧
    (atStage .fetch [(0, 0xFFFFFFFF#32)]).wordAt 0#32 = some 0xFFFFFFFF#32 ∧
    (atStage .fetch [(0, 0xFFFFFFFF#32)]).pcb.draining = false ∧
    decode 0xFFFFFFFF#32 = .instr .endOfProgram := by decide

/-- DecodeStageFillsDE: a full `FD` and an empty one. -/
theorem witness_in_id :
    (atStage .id []).turn.stage = .id ∧ (atStage .id []).agenda = [] ∧ (atStage .id []).turn.outcome = none ∧
    (atStage .id []).pcb.fd = none ∧
    ((atStage .id []).onPcb (fun p => { p with fd := some { word := 0#32, ipc := 0#32 } })).pcb.fd =
      some { word := 0#32, ipc := 0#32 } := ⟨rfl, rfl, rfl, rfl, rfl⟩

/-- FetchReadsTheNextWord and FetchedWordIsDecodedNextCycle: in range, out of it, draining. -/
theorem witness_fetch :
    (atStage .fetch [(0, 0x64080000#32)]).HierInv ∧ (atStage .fetch [(0, 0x64080000#32)]).wordAt 0#32 = some 0x64080000#32 ∧
    (0x64080000#32 : Word) ≠ 0xFFFFFFFF#32 ∧ (atStage .fetch []).turn.cycles < (atStage .fetch []).pcb.quantum ∧
    (atStage .fetch []).turn.blockPending = false ∧ (atStage .fetch []).pcb.draining = false ∧
    (atStage .fetch []).pcb.fd = none ∧ (atStage .fetch []).pcb.de = none ∧ (atStage .fetch []).pcb.em = none ∧
    (atStage .fetch []).pcb.mw = none ∧
    ((atStage .fetch []).onPcb (fun p => { p with pc := 0x2000#32 })).wordAt 0x2000#32 = none ∧
    ((atStage .fetch []).onPcb (fun p => { p with draining := true })).pcb.draining = true := by decide

/-- CycleStartCountsOrFinishes: drained and not. -/
theorem witness_start :
    (atStage .start []).turn.stage = .start ∧ (atStage .start []).drained = false ∧
    ((atStage .start []).onPcb (fun p => { p with draining := true })).drained = true := by decide

/-- EndOfCycleTests and StagesRunInOrder: each branch of the tests. -/
theorem witness_check :
    (atStage .check []).turn.stage = .check ∧ (atStage .check []).turn.blockPending = false ∧
    ¬ (atStage .check []).pcb.quantum ≤ (atStage .check []).turn.cycles ∧
    ((atStage .check []).onTurn (fun t => { t with cycles := 1000000 })).pcb.quantum ≤
      ((atStage .check []).onTurn (fun t => { t with cycles := 1000000 })).turn.cycles ∧
    ((after (atStage .check [])).map (·.turn.outcome)) = some none := by decide

/-- OnlyReadyProcessesRun: a core that still owns a Faulted process, a Finished one and a Blocked one, and each of them handed out. -/
theorem witness_faulted :
    (State.reset.raise (.divideByZero 9#32)).agenda = [] ∧
    (State.reset.raise (.divideByZero 9#32)).turn.outcome = some .faulted ∧ TurnOutcome.faulted ≠ .idle ∧
    (State.reset.raise (.divideByZero 9#32)).pcb.status = .faulted (.divideByZero 9#32) ∧
    (State.reset.endTurn .finished .finished).turn.outcome = some .finished ∧
    (State.reset.endTurn .finished .finished).pcb.status = .finished ∧
    (State.reset.endTurn .blocked .blocked).turn.outcome = some .blocked ∧
    (State.reset.endTurn .blocked .blocked).pcb.status = .blocked ∧
    [ProcStatus.faulted (.divideByZero 9#32), .finished, .blocked, .running].all (fun st =>
      ({ State.reset with agenda := [.handPcb 0], turn := Turn.idle, parked := [{ State.reset.pcb with status := st }] } : State).parked[0]?
        = some { State.reset.pcb with status := st } ∧ st ≠ .ready) = true :=
  ⟨rfl, rfl, by decide, rfl, rfl, rfl, rfl, rfl, by decide⟩

/-- LW in MEM with another record behind it in EX. -/
def loadThen (d : Decoded) : State :=
  (inMem (.lw 9#5 0#5 0x40#32) (some 0x40#32) none [(0x40, 5#32)]).onPcb (fun p => { p with de := some { ipc := 4#32, d := d } })

/-- LoadUseHazard, its first clause, with a reader of the loaded register. -/
theorem witness_load_use :
    (loadThen (.instr (.sw 9#5 0#5 0x44#32))).HierInv ∧ (loadThen (.instr (.sw 9#5 0#5 0x44#32))).agenda = [] ∧
    (loadThen (.instr (.sw 9#5 0#5 0x44#32))).turn.outcome = none ∧ (loadThen (.instr (.sw 9#5 0#5 0x44#32))).turn.stage = .mem ∧
    (∃ l, (loadThen (.instr (.sw 9#5 0#5 0x44#32))).pcb.em = some l ∧ l.d = .instr (.lw 9#5 0#5 0x40#32) ∧ l.ea = some 0x40#32) ∧
    (loadThen (.instr (.sw 9#5 0#5 0x44#32))).wordAt 0x40#32 = some 5#32 ∧
    ∃ r, (loadThen (.instr (.sw 9#5 0#5 0x44#32))).pcb.de = some r :=
  ⟨by decide, rfl, rfl, rfl, ⟨_, rfl, rfl, rfl⟩, by decide, _, rfl⟩

/-- LW in WB, another load of the last word in range in MEM and a reader of the loaded register in EX. -/
def loadTwoBack : State :=
  (inMw .wb (.instr (.lw 9#5 0#5 0x40#32)) (some 5#32)).onPcb (fun p => { p with
    em := some { ipc := 4#32, d := .instr (.lw 11#5 0#5 0x1FFF#32), ea := some 0x1FFF#32, sdata := none }
    de := some { ipc := 8#32, d := .instr (.add 11#5 9#5 10#5) } })

/-- LoadUseHazard, its second clause. -/
theorem witness_load_distance_two :
    loadTwoBack.agenda = [] ∧ loadTwoBack.turn.outcome = none ∧ loadTwoBack.turn.stage = .wb ∧
    (∃ l, loadTwoBack.pcb.mw = some l ∧ l.d = .instr (.lw 9#5 0#5 0x40#32) ∧ l.ldata = some 5#32) ∧
    (∃ e, loadTwoBack.pcb.em = some e ∧ ∀ ea, e.ea = some ea → loadTwoBack.wordAt (loadTwoBack.phys ea) ≠ none) ∧
    ∃ r, loadTwoBack.pcb.de = some r :=
  ⟨rfl, rfl, rfl, ⟨_, rfl, rfl, rfl⟩, ⟨_, rfl, by rintro ea ⟨⟩; decide⟩, _, rfl⟩

/-- LoadWriteAfterWriteHazard: LI, and a DIV with a divisor, that write the loaded register; a Fetch in range, and a drain. -/
theorem witness_load_write_after_write :
    (loadThen (.instr (.li 9#5 3#32))).HierInv ∧
    (∃ r, (loadThen (.instr (.li 9#5 3#32))).pcb.de = some r ∧ exDestination r.d = some 9#5 ∧
      ∀ rd a b, r.d = .instr (.div rd a b) → (loadThen (.instr (.li 9#5 3#32))).reg b ≠ 0#32) ∧
    exDestination (.instr (.div 9#5 8#5 7#5)) = some 9#5 ∧
    ((loadThen (.instr (.div 9#5 8#5 7#5))).setReg 7#5 2#32).reg 7#5 ≠ 0#32 ∧
    (loadThen (.instr (.li 9#5 3#32))).wordAt ((loadThen (.instr (.li 9#5 3#32))).phys (loadThen (.instr (.li 9#5 3#32))).pcb.pc) ≠ none ∧
    ((loadThen (.instr (.li 9#5 3#32))).onPcb (fun p => { p with draining := true })).pcb.draining = true ∧
    (loadThen (.instr (.li 9#5 3#32))).turn.blockPending = false ∧
    (loadThen (.instr (.li 9#5 3#32))).turn.cycles < (loadThen (.instr (.li 9#5 3#32))).pcb.quantum :=
  ⟨by decide, ⟨_, rfl, rfl, by rintro rd a b ⟨⟩⟩, rfl, by decide, by decide, rfl, rfl, by decide⟩

/-- A state with one event due. -/
def due (e : Event) : State := { cached .lru with agenda := [e] }

/-- FullInvalidateKeepsMemory and PartialInvalidateRemovesTheFraction: between turns, and while the turn runs. -/
theorem witness_between_turns :
    ((due .fullInvalidate).endTurn .quantumExpired .running).HierInv ∧
    ((due .fullInvalidate).endTurn .quantumExpired .running).agenda = [.fullInvalidate] ∧
    ((due .fullInvalidate).endTurn .quantumExpired .running).turn.outcome = some .quantumExpired ∧
    (due .fullInvalidate).turn.outcome = none := by decide

/-- FullInvalidateKeepsMemory, PartialInvalidateRemovesTheFraction with a set of the right size (half of one entry is none of it),
LoaderWritesOneWord and LaunchCreatesAResetProcess. -/
theorem witness_events :
    (due .fullInvalidate).HierInv ∧ (due .fullInvalidate).agenda = [.fullInvalidate] ∧
    (due (.partialInvalidate [])).agenda = [.partialInvalidate []] ∧ ([] : List Nat).Nodup ∧
    ([] : List Nat).length = (due .run).config.pollutionNum * (due .run).hier.cache.length / (due .run).config.pollutionDen ∧
    (due (.loadWord 0x1FFF#32 5#32)).wordAt 0x1FFF#32 ≠ none ∧
    1 ≤ 1 ∧ 1 ∉ (due (.launch 1 0#32 1 1 5 10)).pids := by decide

/-- Between turns, a cache with room for two that holds a dirty and a clean entry, and the partial invalidate of the dirty one. -/
def polluting : State :=
  let c : Config := { Config.initial with cacheCapacity := 2 }
  let h : Hierarchy :=
    { cache := [(1, { data := 7#32, valid := true, dirty := true }), (2, { data := 8#32, valid := true, dirty := false })]
      order := [2, 1]
      primary := [(2, 8#32)]
      secondary := [] }
  { State.reset.endTurn .quantumExpired .running with config := c, hier := h, agenda := [.partialInvalidate [1]] }

/-- PartialInvalidateRemovesTheFraction, its clause on the chosen set: half of two entries is one, and it is the one named. -/
theorem witness_chosen_set :
    polluting.HierInv ∧ polluting.agenda = [.partialInvalidate [1]] ∧ polluting.turn.outcome = some .quantumExpired ∧
    [1].Nodup ∧ (∀ a ∈ [1], a ∈ polluting.hier.present) ∧
    [1].length = polluting.config.pollutionNum * polluting.hier.cache.length / polluting.config.pollutionDen := by decide

/-- R92, R85: the named entry leaves, its dirty word written back to its tier; the other stays. -/
theorem test_partial_invalidate :
    (after polluting).map (fun t => (t.hier.present, t.hier.order, t.hier.primary.read 1)) = some ([2], [2], 7#32) := by decide

/-- HandedPcbStartsItsTurn: a core whose turn is over, and an idle one, with a Ready parked PCB. -/
theorem witness_hand :
    ∃ (s : State) (p : Pcb), s.agenda = [.handPcb 0] ∧ s.turn.outcome = some .quantumExpired ∧ s.parked[0]? = some p ∧
      p.status = .ready ∧ ({ s with turn := Turn.idle } : State).turn.outcome = some .idle :=
  ⟨{ State.reset.endTurn .quantumExpired .running with agenda := [.handPcb 0], parked := [Pcb.created 1 0#32 1 1 5 10] },
    _, rfl, rfl, rfl, rfl, rfl⟩

/-- Two cores: the active one's quantum has expired, the other owns no PCB. -/
def expiredBesideIdle : State :=
  { State.reset.endTurn .quantumExpired .running with
    others := [CoreCtx.idle 1]
    agenda := [.takePcb, .switchCore 0, .handPcb 0] }

/-- HandedPcbStartsItsTurn, its last two clauses. -/
theorem witness_take :
    expiredBesideIdle.turn.outcome = some .quantumExpired ∧ TurnOutcome.quantumExpired ≠ .idle ∧
    expiredBesideIdle.pcb.status = .running ∧ expiredBesideIdle.parked.length = 0 ∧
    ∃ c, expiredBesideIdle.others[0]? = some c ∧ c.turn.outcome = some .idle :=
  ⟨rfl, by decide, rfl, rfl, _, rfl, rfl⟩

/-- R175, R178, R349: the PCB of the turn that ended is routed back as Ready, and the core owns none. -/
theorem test_take_pcb :
    (after expiredBesideIdle).map (fun t => (t.turn, t.parked.map (·.status))) = some (Turn.idle, [.ready]) := by decide

/-- IoManagerTakesRequestsAndUnblocks. -/
theorem witness_io_manager :
    ({ due (.takeRequest 1) with queue := [⟨0, 1#32⟩, ⟨0, 2#32⟩] } : State).queue[1]? = some ⟨0, 2#32⟩ ∧
    (due (.unblock 0)).agenda = [.unblock 0] := ⟨rfl, rfl⟩

/-- Two cores that both own a process, and that the other is the next to move. -/
def besideAnother (agenda : List Event) : State :=
  { inEx 0x012A4020 [] with agenda := agenda, others := [{ (inEx 0x012A4022 []).core with id := 1 }] }

/-- CoresActOnTheirOwnContext: the core's own step with another event after it, and two owning cores that change places. -/
theorem witness_cores :
    (besideAnother [.run, .switchCore 0]).agenda = [.run, .switchCore 0] ∧ (after (besideAnother [])).isSome = true ∧
    (∃ c, (besideAnother [.switchCore 0]).others[0]? = some c ∧ c.turn.outcome = none) :=
  ⟨rfl, by decide, _, rfl, rfl⟩

/-- OtherCoreLoadsTheStoredWord. -/
theorem witness_two_cores :
    ∃ (s : State) (c : CoreCtx), s.HierInv ∧ s.agenda = [.run, .switchCore 0, .run] ∧ s.turn.outcome = none ∧
      s.turn.stage = .mem ∧
      (∃ l, s.pcb.em = some l ∧ l.d = .instr (.sw 8#5 0#5 4#32) ∧ l.ea = some 4#32 ∧ l.sdata = some 7#32) ∧
      s.wordAt (s.phys 4#32) ≠ none ∧ s.others[0]? = some c ∧ c.turn.outcome = none ∧ c.turn.stage = .mem ∧
      (∃ r, c.pcb.em = some r ∧ r.d = .instr (.lw 9#5 0#5 4#32) ∧ r.ea = some 4#32) ∧ c.pcb.base + 4#32 = s.phys 4#32 :=
  ⟨{ inMem (.sw 8#5 0#5 4#32) (some 4#32) (some 7#32) [] with
      agenda := [.run, .switchCore 0, .run]
      others := [{ (inMem (.lw 9#5 0#5 4#32) (some 4#32) none []).core with id := 1 }] },
    { (inMem (.lw 9#5 0#5 4#32) (some 4#32) none []).core with id := 1 },
    by decide, rfl, rfl, rfl, ⟨_, rfl, rfl, rfl, rfl⟩, by decide, rfl, rfl, rfl, ⟨_, rfl, rfl, rfl⟩, by decide⟩

/-- The invariants: they hold of a state that a step takes further, and of the memory right after reset. -/
theorem witness_invariants :
    State.reset.HierInv ∧ (after State.reset).isSome = true ∧ State.reset.turn.outcome = none ∧
    expiredBesideIdle.pids.Nodup ∧ expiredBesideIdle.CoresInv ∧ (after expiredBesideIdle).isSome = true := by
  decide

/-- StepKeepsCounterLaws, StepKeepsLatches and StepKeepsTurnsWithinQuantum: an instruction in EX, which a step takes further. -/
theorem witness_process_invariants :
    (inEx 0x012A4020 []).CountersInv ∧ (inEx 0x012A4020 []).LatchInv ∧ (inEx 0x012A4020 []).TurnInv ∧
    (after (inEx 0x012A4020 [])).isSome = true := by
  have ho : (inEx 0x012A4020 []).others = [] := rfl
  have hp : (inEx 0x012A4020 []).parked = [] := rfl
  refine ⟨⟨by decide, by simp [ho], by simp [hp]⟩, ⟨⟨?_, ?_, ?_, ?_⟩, by simp [ho], by simp [hp]⟩,
    ⟨⟨by decide, by decide, by decide, by decide⟩, by simp [ho], by simp [hp]⟩, by decide⟩
  · rintro f ⟨⟩
  · rintro d ⟨⟩
    decide
  · rintro e ⟨⟩
  · rintro m ⟨⟩

/-- RegistersChangeOnlyAsDestinations: a step that changes a register. -/
theorem witness_register_changes :
    (inEx 0x6008FFFF []).agenda = [] ∧ regAfter (inEx 0x6008FFFF []) 8#5 ≠ some ((inEx 0x6008FFFF []).reg 8#5) := by decide

/-- CacheIsTransparent: two states with different caches and policies that show the same values. -/
theorem witness_same_values :
    (cached .lru).HierInv ∧ (cached .fifo).HierInv ∧ (cached .lru).pcb.visible = (cached .fifo).pcb.visible ∧
    (cached .lru).turn = (cached .fifo).turn ∧ (cached .lru).queue = (cached .fifo).queue ∧
    (∀ a : Word, (cached .lru).wordAt a = (cached .fifo).wordAt a) :=
  ⟨by decide, by decide, rfl, rfl, rfl, fun _ => rfl⟩

/-- A word placed for the next step is run by it, as the instruction it decodes to. -/
theorem test_with_fetch_word :
    (State.reset.withFetchWord 32 0x64000000).pcb.de = some { ipc := 0#32, d := .instr (.printReg 0#5) } ∧
    (State.reset.withFetchWord 32 0x64000000).wordAt 0#32 = some 0x64000000#32 := by decide

end Sys2Proof.Tests
end

/-! The context of a core: what a step of the core leaves alone beside the process in hand, and the properties of a PCB every
step keeps wherever the PCB is. -/

namespace Sys2Proof.Machine

/-! ## What a step of the core leaves alone -/

/-- From `s` to `t` everything outside the process in hand, its turn, the memory and the queue stays, and so do the fields the loader
set (R43, R349). -/
structure KeepsContext (s t : State) : Prop where
  config : t.config = s.config
  coreId : t.coreId = s.coreId
  others : t.others = s.others
  parked : t.parked = s.parked
  agenda : t.agenda = s.agenda
  pid : t.pcb.pid = s.pcb.pid
  base : t.pcb.base = s.pcb.base
  quantum : t.pcb.quantum = s.pcb.quantum
  wCache : t.pcb.wCache = s.pcb.wCache
  wPrimary : t.pcb.wPrimary = s.pcb.wPrimary
  wSecondary : t.pcb.wSecondary = s.pcb.wSecondary

theorem CoreMove.keepsContext {s t : State} (h : CoreMove s t) : KeepsContext s t := by
  cases h
  case emitted => constructor <;> simp
  case printed => constructor <;> simp
  all_goals exact ⟨rfl, rfl, rfl, rfl, rfl, rfl, rfl, rfl, rfl, rfl, rfl⟩

theorem coreStep_keepsContext {s t : State} (h : coreStep s = .next t) : KeepsContext s t := by
  rcases coreStep_cases h with ⟨-, hm⟩ | ⟨-, -, rfl⟩ | ⟨-, rfl⟩
  · exact hm.keepsContext
  all_goals exact ⟨rfl, rfl, rfl, rfl, rfl, rfl, rfl, rfl, rfl, rfl, rfl⟩

/-! ## Properties of every PCB -/

/-- A PCB is given back with at most its status changed. -/
theorem Pcb.givenBack_exists_status (p : Pcb) : ∃ st, p.givenBack = { p with status := st } := by
  rw [Pcb.givenBack_eq]
  split
  · exact ⟨_, rfl⟩
  · exact ⟨p.status, rfl⟩

/-- A PCB is unblocked with at most its status changed. -/
theorem Pcb.unblock_exists_status (pid : Nat) (p : Pcb) : ∃ st, p.unblock pid = { p with status := st } := by
  unfold Pcb.unblock
  split
  · exact ⟨_, rfl⟩
  · exact ⟨p.status, rfl⟩

section everyPcb

variable {P : Pcb → Prop} (status : ∀ p st, P p → P { p with status := st })
  (created : ∀ pid base quantum wCache wPrimary wSecondary, P (Pcb.created pid base quantum wCache wPrimary wSecondary))

include status

theorem Pcb.givenBack_of_status {p : Pcb} (h : P p) : P p.givenBack := by
  obtain ⟨st, hst⟩ := p.givenBack_exists_status
  exact hst ▸ status p st h

theorem Pcb.unblock_of_status (pid : Nat) {p : Pcb} (h : P p) : P (p.unblock pid) := by
  obtain ⟨st, hst⟩ := p.unblock_exists_status pid
  exact hst ▸ status p st h

include created

/-- The agents outside the core move PCBs about, change their status and create new ones: nothing else happens to a PCB. -/
theorem AgentMove.everyPcb {s t : State} (h : AgentMove s t) (hs : s.everyPcb P) : t.everyPcb P := by
  obtain ⟨hpcb, hothers, hparked⟩ := hs
  cases h with
  | switched k c hc =>
    refine ⟨hothers c (List.mem_of_getElem? hc), fun d hd => ?_, hparked⟩
    rcases List.mem_or_eq_of_mem_set hd with hd | rfl
    · exact hothers d hd
    · exact hpcb
  | handed k p _ hp _ =>
    refine ⟨status p _ (hparked p (List.mem_of_getElem? hp)), hothers, fun q hq => ?_⟩
    rcases State.mem_parkedAfterHand hq with hq | rfl
    · exact hparked q hq
    · exact Pcb.givenBack_of_status status hpcb
  | taken =>
    refine ⟨created _ _ _ _ _ _, hothers, List.forall_mem_append.mpr ⟨hparked, ?_⟩⟩
    exact List.forall_mem_singleton.mpr (Pcb.givenBack_of_status status hpcb)
  | emptied => exact ⟨hpcb, hothers, hparked⟩
  | polluted => exact ⟨hpcb, hothers, hparked⟩
  | wrote => exact ⟨hpcb, hothers, hparked⟩
  | launched =>
    exact ⟨hpcb, hothers, List.forall_mem_append.mpr ⟨hparked, List.forall_mem_singleton.mpr (created _ _ _ _ _ _)⟩⟩
  | took => exact ⟨hpcb, hothers, hparked⟩
  | unblocked pid =>
    exact ⟨Pcb.unblock_of_status status pid hpcb,
      List.forall_mem_map.mpr fun c hc => Pcb.unblock_of_status status pid (hothers c hc),
      List.forall_mem_map.mpr fun p hp => Pcb.unblock_of_status status pid (hparked p hp)⟩

/-- A property of a PCB that no status matters to, that new processes have and that the core's moves keep is kept by every step. -/
theorem step_everyPcb (move : ∀ {s t : State}, CoreMove s t → P s.pcb → P t.pcb) {s t : State} (h : step s = .next t)
    (hs : s.everyPcb P) : t.everyPcb P := by
  obtain ⟨rest, hc | ha⟩ := step_moves h
  · have hk := coreStep_keepsContext hc
    obtain ⟨hpcb, hothers, hparked⟩ := hs
    refine ⟨?_, hk.others ▸ hothers, hk.parked ▸ hparked⟩
    rcases coreStep_cases hc with ⟨-, hm⟩ | ⟨-, -, rfl⟩ | ⟨-, rfl⟩
    · exact move hm hpcb
    · exact status _ _ hpcb
    · exact hpcb
  · exact ha.everyPcb status created hs

end everyPcb

end Sys2Proof.Machine

/-! The general registers (R31, R33, R34): which a move of the core can write. -/

namespace Sys2Proof.Machine

/-- Settles O10. -/
theorem registerReadsLastWrite : Obligations.RegisterReadsLastWrite :=
  State.reg_setReg

theorem State.registerAtStake_ex {s : State} {slot : DeSlot} (ho : s.turn.outcome = none) (hs : s.turn.stage = .ex)
    (hd : s.pcb.de = some slot) : s.registerAtStake = exDestination slot.d := by
  simp only [State.registerAtStake, ho, hs, hd, Option.bind_some]

theorem State.registerAtStake_wb {s : State} {slot : MwSlot} (ho : s.turn.outcome = none) (hs : s.turn.stage = .wb)
    (hd : s.pcb.mw = some slot) : s.registerAtStake = wbDestination slot.d := by
  simp only [State.registerAtStake, ho, hs, hd, Option.bind_some]

/-- A move writes the register at stake, or none (R164, R166). -/
theorem CoreMove.regs {s t : State} (h : CoreMove s t) (ho : s.turn.outcome = none) :
    t.pcb.regs = s.pcb.regs ∨ ∃ rd v, s.registerAtStake = some rd ∧ t.pcb.regs = (s.setReg rd v).pcb.regs := by
  cases h
  case committed slot rt v hs hd hr _ => exact .inr ⟨rt, v, (State.registerAtStake_wb ho hs hd).trans hr, rfl⟩
  case wrote slot rd v hs hd hr => exact .inr ⟨rd, v, (State.registerAtStake_ex ho hs hd).trans hr, rfl⟩
  case emitted => exact .inl (by simp)
  case printed => exact .inl (by simp)
  all_goals exact .inl rfl

theorem CoreMove.registerAtStake_of_ne {s t : State} {r : RegIdx} (h : CoreMove s t) (ho : s.turn.outcome = none)
    (hr : t.reg r ≠ s.reg r) : s.registerAtStake = some r := by
  rcases h.regs ho with hsame | ⟨rd, v, hd, hset⟩
  · exact absurd (State.reg_congr hsame r) hr
  · by_cases he : r = rd
    · rw [he, hd]
    · exact absurd ((State.reg_congr hset r).trans (State.reg_setReg_ne s rd r v he)) hr

/-- Settles O55: a move of a running turn writes the register at stake or none, and no other step of the core writes one. -/
theorem registersChangeOnlyAsDestinations : Obligations.RegistersChangeOnlyAsDestinations := by
  intro s t r ha h hr
  rcases step_cases ha h with ⟨ho, hm⟩ | ⟨-, -, rfl⟩ | ⟨-, rfl⟩
  · exact hm.registerAtStake_of_ne ho hr
  · exact absurd rfl hr
  · exact absurd rfl hr

end Sys2Proof.Machine

/-! The latches (R45, R133, R169): what ID decodes may be in flight, and every passage of a slot gives the next latch what its record's
tag needs. -/

namespace Sys2Proof.Machine

/-! ## What the latches receive -/

theorem inFlight_decodeRFormat (w : Word) : inFlight (decodeRFormat w) = true := by
  unfold decodeRFormat
  split <;> rfl

/-- Every word but the sentinel decodes to a record that may be in flight (R125, R126, R133, R169). -/
theorem inFlight_decode {w : Word} (h : w ≠ sentinel) : inFlight (decode w) = true := by
  have himm : immOk (immField w) = true := immOk_signExtend _
  have htarget : targetOk (targetField w) = true := targetOk_setWidth _
  unfold decode
  rw [if_neg h]
  split
  · exact inFlight_decodeRFormat w
  all_goals simp [inFlight, wellFormed, himm, htarget]

/-- What writes its register in EX needs nothing in `EM`. -/
theorem emFits_of_exDestination {d : Decoded} {rd : RegIdx} (h : exDestination d = some rd) : emFits d none none := by
  cases d with
  | nop => cases h
  | instr i => cases i <;> simp_all [exDestination, emFits, EmSlot.fits]

/-- A branch and J need nothing in `EM`. -/
theorem emFits_of_transfers {d : Decoded} (h : transfers d = true) : emFits d none none := by
  cases d with
  | nop => cases h
  | instr i => cases i <;> simp_all [transfers, emFits, EmSlot.fits]

/-- What loads no word needs none in `MW`. -/
theorem mwFits_of_not_loads {slot : MwSlot} (h : loads slot.d = false) : slot.fits = true := by
  obtain ⟨ipc, d, ldata⟩ := slot
  cases d with
  | nop => rfl
  | instr i => cases i <;> simp_all [loads, MwSlot.fits]

/-- A slot with a word fits whatever its record. -/
theorem mwFits_of_ldata (ipc v : Word) (d : Decoded) : MwSlot.fits { ipc := ipc, d := d, ldata := some v } = true := by
  unfold MwSlot.fits
  split <;> rfl

/-! ## Passages keep the latches -/

theorem Pcb.latchesOk_created (pid : Nat) (base : Word) (quantum wCache wPrimary wSecondary : Nat) :
    (Pcb.created pid base quantum wCache wPrimary wSecondary).latchesOk := by
  simp [Pcb.latchesOk, Pcb.created]

theorem CoreMove.latchesOk {s t : State} (h : CoreMove s t) (hs : s.pcb.latchesOk) : t.pcb.latchesOk := by
  obtain ⟨hfd, hde, hem, hmw⟩ := hs
  cases h with
  | passed => exact ⟨hfd, hde, hem, hmw⟩
  | counted => exact ⟨hfd, hde, hem, hmw⟩
  | ended => exact ⟨hfd, hde, hem, hmw⟩
  | retired => exact ⟨hfd, hde, hem, by simp⟩
  | committed => exact ⟨hfd, hde, hem, by simp⟩
  | passedMem slot _ hd _ hf =>
    obtain ⟨hfly, hfits⟩ := hem slot hd
    refine ⟨hfd, hde, by simp, ?_⟩
    rintro m ⟨⟩
    exact ⟨hfly, mwFits_of_not_loads (hf hfits)⟩
  | loaded slot _ v _ _ _ hd =>
    refine ⟨hfd, hde, by simp, ?_⟩
    rintro m ⟨⟩
    exact ⟨(hem slot hd).1, mwFits_of_ldata _ _ _⟩
  | stored slot _ _ _ _ _ hd _ hl =>
    refine ⟨hfd, hde, by simp, ?_⟩
    rintro m ⟨⟩
    exact ⟨(hem slot hd).1, mwFits_of_not_loads hl⟩
  | faultedMem => exact ⟨hfd, hde, by simp, hmw⟩
  | emitted slot _ _ _ _ hd hi =>
    refine ⟨by simpa using hfd, by simpa using hde, by simpa using hem, ?_⟩
    rintro m ⟨⟩
    refine ⟨(hmw slot hd).1, ?_⟩
    simp [MwSlot.fits, hi]
  | passedEx slot _ _ _ hd hf =>
    refine ⟨hfd, by simp, ?_, hmw⟩
    rintro e ⟨⟩
    exact ⟨hde slot hd, hf⟩
  | wrote slot _ _ _ hd hr =>
    refine ⟨hfd, by simp, ?_, hmw⟩
    rintro e ⟨⟩
    exact ⟨hde slot hd, emFits_of_exDestination hr⟩
  | faultedDiv => exact ⟨hfd, by simp, hem, hmw⟩
  | redirected slot _ _ _ _ _ hd ht =>
    refine ⟨by simp, by simp, ?_, hmw⟩
    rintro e ⟨⟩
    exact ⟨hde slot hd, emFits_of_transfers ht⟩
  | faultedRedirect => exact ⟨by simp, by simp, hem, hmw⟩
  | printed slot rt _ hd hi =>
    refine ⟨by simpa using hfd, by simp, ?_, by simpa using hmw⟩
    rintro e ⟨⟩
    refine ⟨hde slot hd, ?_⟩
    simp [EmSlot.fits, hi]
  | decoded slot _ hd =>
    refine ⟨by simp, ?_, hem, hmw⟩
    rintro e ⟨⟩
    exact inFlight_decode (hfd slot hd)
  | fetchedEnd => exact ⟨hfd, hde, hem, hmw⟩
  | fetched w _ _ _ hn =>
    refine ⟨?_, hde, hem, hmw⟩
    rintro f ⟨⟩
    exact hn
  | faultedFetch => exact ⟨hfd, hde, hem, hmw⟩

/-- Settles O51: no move of the core puts a sentinel, an END or an incomplete slot into a latch, and no agent writes a latch. -/
theorem stepKeepsLatches : Obligations.StepKeepsLatches := by
  intro s t hs h
  exact step_everyPcb (P := Pcb.latchesOk) (fun _ _ hp => hp) Pcb.latchesOk_created CoreMove.latchesOk h hs

end Sys2Proof.Machine

/-! The turns (R48, R176, R351): how a move of the core leaves the turn, and that no agent hands out or parks a Running process. -/

namespace Sys2Proof.Machine

/-! ## The turn after a move of the core -/

/-- The turn of the core is over, its per-turn state discarded and the status that of the outcome (R48, R175). -/
abbrev TurnEnds (t : State) : Prop :=
  ∃ o, t.turn = { Turn.fresh with outcome := some o } ∧ o ≠ .idle ∧ statusFits (some o) t.pcb.status = true

/-- The turn of the core goes on with the next part of the cycle; a cycle is counted at its start, and a new one is reached only
below the quantum (R161, R176, R177). -/
structure TurnGoesOn (s t : State) : Prop where
  outcome : t.turn.outcome = s.turn.outcome
  status : t.pcb.status = s.pcb.status
  stage : t.turn.stage = s.turn.stage.following
  cycles : t.turn.cycles = if s.turn.stage = .start then s.turn.cycles + 1 else s.turn.cycles
  below : s.turn.stage = .check → s.turn.cycles < s.pcb.quantum

theorem MayEnd.turnEnds {s : State} {o : TurnOutcome} {st : ProcStatus} (h : MayEnd s o st) : TurnEnds (s.endTurn o st) := by
  cases h <;> exact ⟨_, rfl, by simp, rfl⟩

/-- A move whose stage neither starts nor ends a cycle. -/
theorem TurnGoesOn.of_stage {s t : State} {g : Stage} (hs : s.turn.stage = g) (hstart : g ≠ .start) (hcheck : g ≠ .check)
    (outcome : t.turn.outcome = s.turn.outcome) (status : t.pcb.status = s.pcb.status) (stage : t.turn.stage = g.following)
    (cycles : t.turn.cycles = s.turn.cycles) : TurnGoesOn s t := by
  subst hs
  exact ⟨outcome, status, stage, by rw [if_neg hstart, cycles], fun h => absurd h hcheck⟩

theorem CoreMove.turn {s t : State} (h : CoreMove s t) : TurnEnds t ∨ TurnGoesOn s t := by
  cases h
  case passed hs _ _ _ hc => exact .inr ⟨rfl, rfl, rfl, by rw [if_neg hs]; rfl, fun h => (hc h).1⟩
  case counted hs _ => exact .inr ⟨rfl, rfl, by rw [hs]; rfl, by rw [if_pos hs], by simp [hs]⟩
  case ended he => exact .inl he.turnEnds
  case faultedMem => exact .inl ⟨.faulted, rfl, by simp, rfl⟩
  case faultedDiv => exact .inl ⟨.faulted, rfl, by simp, rfl⟩
  case faultedRedirect => exact .inl ⟨.faulted, rfl, by simp, rfl⟩
  case faultedFetch => exact .inl ⟨.faulted, rfl, by simp, rfl⟩
  all_goals
    exact .inr (.of_stage ‹s.turn.stage = _› (by simp) (by simp) (by simp) (by simp) (by simp [Stage.following]) (by simp))

/-! ## The turn of one core -/

/-- Only the end-of-cycle tests lead to the start of a cycle (R177). -/
theorem Stage.following_eq_start {g : Stage} : g.following = .start ↔ g = .check := by
  cases g <;> simp [Stage.following]

theorem turnOk_of_turnEnds {t : State} (hq : 1 ≤ t.pcb.quantum) (h : TurnEnds t) : turnOk t.pcb t.turn := by
  obtain ⟨o, ht, hi, hf⟩ := h
  rw [ht]
  exact ⟨hq, hf, by simp, by simp, by simp [hi]⟩

/-- A turn starts below the quantum, which is at least 1 (R10, R176). -/
theorem turnOk_fresh {p : Pcb} (hq : 1 ≤ p.quantum) : turnOk { p with status := .running } Turn.fresh :=
  ⟨hq, rfl, fun _ => hq, by simp, by simp⟩

/-- A core without a PCB (R349). -/
theorem turnOk_idle : turnOk Pcb.absent Turn.idle := by
  decide

theorem CoreMove.turnOk {s t : State} (h : CoreMove s t) (ho : s.turn.outcome = none) (hs : turnOk s.pcb s.turn) :
    turnOk t.pcb t.turn := by
  obtain ⟨hq, hf, hc, -, -⟩ := hs
  have hq' : 1 ≤ t.pcb.quantum := h.keepsContext.quantum ▸ hq
  rcases h.turn with he | hg
  · exact turnOk_of_turnEnds hq' he
  · have ho' : t.turn.outcome = none := hg.outcome.trans ho
    refine ⟨hq', by rw [hg.outcome, hg.status]; exact hf, fun _ => ?_, by simp [ho'], by simp [ho']⟩
    have hc := hc ho
    simp only [hg.stage, Stage.following_eq_start, hg.cycles, h.keepsContext.quantum]
    split
    · rename_i hk
      rw [if_neg (by simp [hk])]
      exact hg.below hk
    · split at hc
      · rwa [if_pos ‹_›]
      · rwa [if_neg ‹_›]

/-- An unblock moves a process whose turn ended Blocked to Ready, and touches no other (R179). -/
theorem turnOk_unblock {p : Pcb} {t : Turn} (pid : Nat) (h : turnOk p t) : turnOk (p.unblock pid) t := by
  unfold Pcb.unblock
  split
  · rename_i hp
    obtain ⟨hq, hf, hc, he, hi⟩ := h
    have ho : t.outcome = some .blocked := by
      rw [hp.2] at hf
      unfold statusFits at hf
      split at hf <;> simp_all
    exact ⟨hq, by rw [ho]; rfl, hc, he, by simp [ho]⟩
  · exact h

/-! ## Parked processes -/

/-- What holds of a PCB no core holds (R10, R351). -/
abbrev parkedOk (p : Pcb) : Prop := 1 ≤ p.quantum ∧ p.status ≠ .running

theorem parkedOk_givenBack {p : Pcb} (hq : 1 ≤ p.quantum) : parkedOk p.givenBack :=
  ⟨by rwa [Pcb.givenBack_quantum], p.givenBack_not_running⟩

theorem parkedOk_unblock {p : Pcb} (pid : Nat) (h : parkedOk p) : parkedOk (p.unblock pid) := by
  refine ⟨by rw [Pcb.unblock_quantum]; exact h.1, ?_⟩
  unfold Pcb.unblock
  split
  · simp
  · exact h.2

/-! ## Every step -/

theorem coreStep_turnInv {s t : State} (h : coreStep s = .next t) (hs : s.TurnInv) : t.TurnInv := by
  have hk := coreStep_keepsContext h
  obtain ⟨hcore, hothers, hparked⟩ := hs
  refine ⟨?_, hk.others ▸ hothers, hk.parked ▸ hparked⟩
  rcases coreStep_cases h with ⟨ho, hm⟩ | ⟨-, -, rfl⟩ | ⟨-, rfl⟩
  · exact hm.turnOk ho hcore
  · exact turnOk_fresh hcore.1
  · exact hcore

theorem AgentMove.turnInv {s t : State} (h : AgentMove s t) (hs : s.TurnInv) : t.TurnInv := by
  obtain ⟨hcore, hothers, hparked⟩ := hs
  cases h with
  | switched k c hc =>
    refine ⟨hothers c (List.mem_of_getElem? hc), fun d hd => ?_, hparked⟩
    rcases List.mem_or_eq_of_mem_set hd with hd | rfl
    · exact hothers d hd
    · exact hcore
  | handed k p _ hp _ =>
    refine ⟨turnOk_fresh (hparked p (List.mem_of_getElem? hp)).1, hothers, fun q hq => ?_⟩
    rcases State.mem_parkedAfterHand hq with hq | rfl
    · exact hparked q hq
    · exact parkedOk_givenBack hcore.1
  | taken =>
    exact ⟨turnOk_idle, hothers,
      List.forall_mem_append.mpr ⟨hparked, List.forall_mem_singleton.mpr (parkedOk_givenBack hcore.1)⟩⟩
  | emptied => exact ⟨hcore, hothers, hparked⟩
  | polluted => exact ⟨hcore, hothers, hparked⟩
  | wrote => exact ⟨hcore, hothers, hparked⟩
  | launched _ _ _ _ _ _ hq =>
    refine ⟨hcore, hothers, List.forall_mem_append.mpr ⟨hparked, List.forall_mem_singleton.mpr ?_⟩⟩
    exact ⟨Nat.one_le_iff_ne_zero.mpr hq, by simp [Pcb.created]⟩
  | took => exact ⟨hcore, hothers, hparked⟩
  | unblocked pid =>
    exact ⟨turnOk_unblock pid hcore, List.forall_mem_map.mpr fun c hc => turnOk_unblock pid (hothers c hc),
      List.forall_mem_map.mpr fun p hp => parkedOk_unblock pid (hparked p hp)⟩

/-- Settles O52: the core starts a cycle only below the quantum and ends a turn with its per-turn state discarded; the agents start
turns with Ready processes and park none Running. -/
theorem stepKeepsTurnsWithinQuantum : Obligations.StepKeepsTurnsWithinQuantum := by
  intro s t hs h
  obtain ⟨rest, hc | ha⟩ := step_moves h
  · exact coreStep_turnInv hc hs
  · exact ha.turnInv hs

end Sys2Proof.Machine

/-! A core and its context (R43, R349, R350): what the core does next is the same whatever the agenda holds. -/

namespace Sys2Proof.Machine

/-! ## A step of the core with another agenda -/

/-- The next state, if there is one, with another agenda. -/
def outcomeWithAgenda (es : List Event) : Host.Outcome State Fault Refusal → Host.Outcome State Fault Refusal
  | .next t => .next (t.withAgenda es)
  | .fault f => .fault f
  | .refused r => .refused r

@[simp] theorem outcomeWithAgenda_next (es : List Event) (t : State) :
    outcomeWithAgenda es (.next t) = .next (t.withAgenda es) := rfl

theorem actionsOfDecoded_ex_withAgenda (es : List Event) (d : Decoded) (s : State) :
    (actionsOfDecoded d).ex (s.withAgenda es) = ((actionsOfDecoded d).ex s).withAgenda es := by
  cases d with
  | nop => rfl
  | instr i =>
    cases i
    case div => exact writeResult_withAgenda es _ _ s
    case beq => exact branchOn_withAgenda es _ _ s
    case bne => exact branchOn_withAgenda es _ _ s
    case blt => exact branchOn_withAgenda es _ _ s
    case bgt => exact branchOn_withAgenda es _ _ s
    case j target => exact redirect_withAgenda es target s
    case printReg rt => exact congrArg (ExResult.done none none) (State.raiseOutput_withAgenda es (s.reg rt) s)
    all_goals rfl

theorem actionsOfDecoded_mem_withAgenda (es : List Event) (d : Decoded) (slot : EmSlot) (s : State) :
    (actionsOfDecoded d).mem slot (s.withAgenda es) = ((actionsOfDecoded d).mem slot s).withAgenda es := by
  cases d with
  | nop => rfl
  | instr i =>
    cases i
    case lw => exact loadWord_withAgenda es slot s
    case sw => exact storeWord_withAgenda es slot s
    case printMem => exact loadWord_withAgenda es slot s
    all_goals rfl

theorem actionsOfDecoded_memEmit_withAgenda (es : List Event) (d : Decoded) (slot : MwSlot) (s : State) :
    (actionsOfDecoded d).memEmit slot (s.withAgenda es) = ((actionsOfDecoded d).memEmit slot s).withAgenda es := by
  cases d with
  | nop => rfl
  | instr i =>
    cases i
    case printMem => exact emitLoaded_withAgenda es slot s
    all_goals rfl

theorem actionsOfDecoded_wb_withAgenda (es : List Event) (d : Decoded) (slot : MwSlot) (s : State) :
    (actionsOfDecoded d).wb slot (s.withAgenda es) = ((actionsOfDecoded d).wb slot s).withAgenda es := by
  cases d with
  | nop => rfl
  | instr i =>
    cases i
    case lw rt _ _ => exact commitLoad_withAgenda es rt slot s
    all_goals rfl

theorem execDecoded_withAgenda (es : List Event) (d : Decoded) {s : State} (hs : s.turn.stage ≠ .fetch) :
    execDecoded d (s.withAgenda es) = outcomeWithAgenda es (execDecoded d s) := by
  rw [execDecoded_eq_perform d hs, execDecoded_eq_perform d (s := s.withAgenda es) hs,
    perform_withAgenda es d _ s (actionsOfDecoded_ex_withAgenda es d) (actionsOfDecoded_mem_withAgenda es d)
      (actionsOfDecoded_memEmit_withAgenda es d) (actionsOfDecoded_wb_withAgenda es d), outcomeWithAgenda_next]

theorem State.drained_withAgenda (es : List Event) (s : State) : (s.withAgenda es).drained = s.drained := rfl

theorem beginCycle_withAgenda (es : List Event) (s : State) :
    beginCycle (s.withAgenda es) = (beginCycle s).withAgenda es := by
  unfold beginCycle
  rw [State.drained_withAgenda]
  split <;> rfl

theorem decodeStage_withAgenda (es : List Event) (s : State) :
    decodeStage (s.withAgenda es) = (decodeStage s).withAgenda es := by
  unfold decodeStage
  rw [State.withAgenda_pcb]
  split <;> rfl

theorem endCycle_withAgenda (es : List Event) (s : State) : endCycle (s.withAgenda es) = (endCycle s).withAgenda es := by
  unfold endCycle
  simp only [State.drained_withAgenda, State.withAgenda_turn, State.withAgenda_pcb, apply_ite (State.withAgenda es)]
  rfl

theorem exec_end_withAgenda (es : List Event) (s : State) :
    exec .endOfProgram (s.withAgenda es) = outcomeWithAgenda es (exec .endOfProgram s) := by
  by_cases hs : s.turn.stage = .fetch
  · rw [exec_end_fetch hs, exec_end_fetch (s := s.withAgenda es) hs]
    rfl
  · exact execDecoded_withAgenda es (.instr .endOfProgram) hs

theorem fetchStage_withAgenda (es : List Event) (s : State) :
    fetchStage (s.withAgenda es) = outcomeWithAgenda es (fetchStage s) := by
  unfold fetchStage
  simp only [State.withAgenda_pcb, State.withAgenda_phys, State.withAgenda_onPcb, State.memRead_withAgenda]
  split
  · rfl
  · rcases (s.fetching).memRead (s.phys s.pcb.pc) with _ | ⟨w, t⟩
    · rfl
    · simp only [Option.map_some, State.withAgenda_onPcb, exec_end_withAgenda]
      split <;> rfl

theorem runStage_withAgenda (es : List Event) (s : State) :
    runStage (s.withAgenda es) = outcomeWithAgenda es (runStage s) := by
  cases hs : s.turn.stage with
  | start =>
    rw [runStage_start hs, runStage_start (s := s.withAgenda es) hs, beginCycle_withAgenda, outcomeWithAgenda_next]
  | wb =>
    rw [runStage_wb hs, runStage_wb (s := s.withAgenda es) hs, State.withAgenda_pcb]
    cases s.pcb.mw with
    | none => rfl
    | some slot => exact execDecoded_withAgenda es slot.d (by simp [hs])
  | mem =>
    rw [runStage_mem hs, runStage_mem (s := s.withAgenda es) hs, State.withAgenda_pcb]
    cases s.pcb.em with
    | none => rfl
    | some slot => exact execDecoded_withAgenda es slot.d (by simp [hs])
  | memEmit =>
    rw [runStage_memEmit hs, runStage_memEmit (s := s.withAgenda es) hs, State.withAgenda_pcb]
    cases s.pcb.mw with
    | none => rfl
    | some slot => exact execDecoded_withAgenda es slot.d (by simp [hs])
  | ex =>
    rw [runStage_ex hs, runStage_ex (s := s.withAgenda es) hs, State.withAgenda_pcb]
    cases s.pcb.de with
    | none => rfl
    | some slot => exact execDecoded_withAgenda es slot.d (by simp [hs])
  | id => rw [runStage_id hs, runStage_id (s := s.withAgenda es) hs, decodeStage_withAgenda, outcomeWithAgenda_next]
  | fetch => rw [runStage_fetch hs, runStage_fetch (s := s.withAgenda es) hs, fetchStage_withAgenda]
  | check => rw [runStage_check hs, runStage_check (s := s.withAgenda es) hs, endCycle_withAgenda, outcomeWithAgenda_next]

/-- What the core does next does not depend on what other events follow (R350). -/
theorem coreStep_withAgenda (es : List Event) (s : State) :
    coreStep (s.withAgenda es) = outcomeWithAgenda es (coreStep s) := by
  unfold coreStep
  simp only [State.withAgenda_turn, State.withAgenda_pcb]
  split
  · exact runStage_withAgenda es s
  · rfl
  · split <;> rfl

/-- With a `run` event due, a step is the one the core takes with no event due, the later events left in the agenda (R350). -/
theorem step_of_agenda_run {s : State} {rest : List Event} (h : s.agenda = .run :: rest) :
    step s = outcomeWithAgenda rest (step { s with agenda := [] }) := by
  rw [step_of_agenda_cons h, step_of_agenda_nil (s := { s with agenda := [] }) rfl]
  exact coreStep_withAgenda rest { s with agenda := [] }

/-- With another core the next to move, the two contexts change places (R350). -/
theorem step_of_agenda_switchCore {s : State} {k : Nat} {c : CoreCtx} {rest : List Event}
    (h : s.agenda = .switchCore k :: rest) (hc : s.others[k]? = some c) :
    step s = .next { s with
      coreId := c.id
      pcb := c.pcb
      turn := c.turn
      others := s.others.set k s.core
      agenda := rest } := by
  rw [step_of_agenda_cons h, performEvent]
  simp only [switchCore, hc]
  rfl

/-- Settles O58: a step of the core keeps its context and is the same with any later events; a switch exchanges two contexts. -/
theorem coresActOnTheirOwnContext : Obligations.CoresActOnTheirOwnContext := by
  refine ⟨fun s t ha h => ?_, fun s rest h => ?_, fun s k c rest h hc => step_of_agenda_switchCore h hc⟩
  · have hk := coreStep_keepsContext (step_of_agenda_nil ha ▸ h)
    exact ⟨hk.config, hk.coreId, hk.others, hk.parked, hk.agenda.trans ha, hk.pid, hk.base, hk.quantum, hk.wCache,
      hk.wPrimary, hk.wSecondary⟩
  · rw [step_of_agenda_run h]
    cases step { s with agenda := [] } <;> rfl

end Sys2Proof.Machine

/-! Reset and launch (R51, R360, R361, R363). -/

namespace Sys2Proof.Machine

theorem Pcb.created_reg (pid : Nat) (base : Word) (quantum wCache wPrimary wSecondary : Nat) (r : RegIdx) :
    (Pcb.created pid base quantum wCache wPrimary wSecondary).reg r = 0#32 := by
  simp [Pcb.reg, Pcb.created]

/-- The launch of a process whose id is not in use parks its PCB as created (R361, R363). -/
theorem step_of_agenda_launch {s : State} {pid : Nat} {base : Word} {quantum wCache wPrimary wSecondary : Nat}
    {rest : List Event} (h : s.agenda = .launch pid base quantum wCache wPrimary wSecondary :: rest) (hq : 1 ≤ quantum)
    (hp : pid ∉ s.pids) :
    step s = .next { s with
      parked := s.parked ++ [Pcb.created pid base quantum wCache wPrimary wSecondary]
      agenda := rest } := by
  have hn : ¬ (quantum = 0 ∨ pid ∈ s.pids) := by
    rintro (hz | hin)
    · omega
    · exact hp hin
  rw [step_of_agenda_cons h]
  exact if_neg hn

/-- Settles O46. -/
theorem launchCreatesAResetProcess : Obligations.LaunchCreatesAResetProcess := by
  intro s pid base quantum wCache wPrimary wSecondary rest h hq hp
  exact ⟨_, step_of_agenda_launch h hq hp, rfl, rfl, rfl, rfl, rfl, rfl, Pcb.created_reg _ _ _ _ _ _, rfl, rfl, rfl, rfl,
    rfl, rfl, rfl, rfl, rfl, rfl⟩

/-- Settles O53: the hierarchy is empty, the one process is newly created, and no other core or PCB is there. -/
theorem resetMeetsTheInvariants : Obligations.ResetMeetsTheInvariants := by
  have hothers : State.reset.others = [] := rfl
  have hparked : State.reset.parked = [] := rfl
  refine ⟨by decide, ⟨by decide, by simp [hothers], by simp [hparked]⟩, ⟨?_, by simp [hothers], by simp [hparked]⟩,
    ⟨?_, by simp [hothers], by simp [hparked]⟩, by decide, by decide⟩
  · exact Pcb.latchesOk_created 0 0#32 1000000 1 5 10
  · decide

end Sys2Proof.Machine

/-! What every step does to memory (R79 to R92, R165): the words it changes, and that the hierarchy stays in a good state. -/

namespace Sys2Proof.Machine

/-! ## The store at stake -/

/-- Only in MEM is a store at stake. -/
theorem State.storeAtStake_of_ne_mem {s : State} (hs : s.turn.stage ≠ .mem) : s.storeAtStake = none := by
  unfold State.storeAtStake
  split
  · exact absurd ‹_› hs
  · rfl

theorem State.storeAtStake_mem {s : State} (ho : s.turn.outcome = none) (hs : s.turn.stage = .mem) :
    s.storeAtStake = (s.pcb.em.bind EmSlot.stores).map (fun x => (s.phys x.1, x.2)) := by
  simp only [State.storeAtStake, ho, hs]

theorem State.storeAtStake_of_not_running {s : State} (ho : s.turn.outcome ≠ none) : s.storeAtStake = none := by
  unfold State.storeAtStake
  split
  · exact absurd ‹_› ho
  · rfl

/-! ## What a move of the core does to memory -/

/-- From `s` to `t` the hierarchy stays in a good state and no word changes. -/
abbrev KeepsMemory (s t : State) : Prop := s.HierInv → t.HierInv ∧ sameMemory s t

/-- From `s` to `t` the hierarchy stays in a good state and the word at `a` alone changes, to `v`. -/
abbrev WritesWord (a v : Word) (s t : State) : Prop :=
  s.HierInv → t.HierInv ∧ ∀ b, t.wordAt b = if b = a then some v else s.wordAt b

theorem KeepsMemory.of_eq {s t : State} (hh : t.hier = s.hier) (hc : t.config = s.config) : KeepsMemory s t := fun hi =>
  ⟨by rw [State.HierInv, hh, hc]; exact hi, State.wordAt_congr hh hc⟩

/-- A move changes no word and stores none in range, or it performs the store at stake (R90, R165). -/
theorem CoreMove.memory {s t : State} (h : CoreMove s t) (ho : s.turn.outcome = none) :
    ((∀ b v, s.storeAtStake = some (b, v) → s.wordAt b = none) ∧ KeepsMemory s t) ∨
    ∃ b v, s.storeAtStake = some (b, v) ∧ s.wordAt b ≠ none ∧ WritesWord b v s t := by
  have quiet : s.storeAtStake = none → ∀ b v, s.storeAtStake = some (b, v) → s.wordAt b = none := by simp +contextual
  have outside : ∀ {g}, s.turn.stage = g → g ≠ .mem → ∀ b v, s.storeAtStake = some (b, v) → s.wordAt b = none :=
    fun hs hg => quiet (State.storeAtStake_of_ne_mem (hs ▸ hg))
  have inMem : ∀ {slot}, s.turn.stage = .mem → s.pcb.em = some slot →
      s.storeAtStake = slot.stores.map (fun x => (s.phys x.1, x.2)) :=
    fun hs hd => by rw [State.storeAtStake_mem ho hs, hd, Option.bind_some]
  cases h
  case passed hm _ _ =>
    refine .inl ⟨quiet ?_, .of_eq rfl rfl⟩
    by_cases hs : s.turn.stage = .mem
    · rw [State.storeAtStake_mem ho hs, hm hs]; rfl
    · exact State.storeAtStake_of_ne_mem hs
  case ended hs _ =>
    refine .inl ⟨quiet (State.storeAtStake_of_ne_mem ?_), .of_eq rfl rfl⟩
    rcases hs with hs | hs <;> simp [hs]
  case passedMem slot hs hd hn _ => exact .inl ⟨quiet (by rw [inMem hs hd, hn]; rfl), .of_eq rfl rfl⟩
  case loaded slot ea v g k hs hd hn _ _ _ hg => exact .inl ⟨quiet (by rw [inMem hs hd, hn]; rfl), hg.1⟩
  case stored slot ea v g k hs hd hst _ hw hg =>
    exact .inr ⟨s.phys ea, v, by rw [inMem hs hd, hst]; rfl, hw, hg.1⟩
  case faultedMem slot ea hs hd _ hw hst =>
    refine .inl ⟨fun b v hb => ?_, .of_eq rfl rfl⟩
    rw [inMem hs hd] at hb
    obtain ⟨x, hx, hxb⟩ := Option.map_eq_some_iff.mp hb
    cases hxb
    rw [hst x hx, hw]
  case redirected hs _ _ _ hg => exact .inl ⟨outside hs (by simp), hg.1⟩
  case fetchedEnd hs _ hg => exact .inl ⟨outside hs (by simp), hg.1⟩
  case fetched hs _ _ hg => exact .inl ⟨outside hs (by simp), hg.1⟩
  all_goals exact .inl ⟨outside ‹s.turn.stage = _› (by simp), .of_eq (by simp) (by simp)⟩

/-! ## Every step -/

theorem CoreMove.hierInv {s t : State} (h : CoreMove s t) (ho : s.turn.outcome = none) (hi : s.HierInv) : t.HierInv := by
  rcases h.memory ho with ⟨-, hk⟩ | ⟨b, v, -, -, hw⟩
  · exact (hk hi).1
  · exact (hw hi).1

theorem coreStep_hierInv {s t : State} (h : coreStep s = .next t) (hi : s.HierInv) : t.HierInv := by
  rcases coreStep_cases h with ⟨ho, hm⟩ | ⟨-, -, rfl⟩ | ⟨-, rfl⟩
  · exact hm.hierInv ho hi
  · exact hi
  · exact hi

theorem AgentMove.hierInv {s t : State} (h : AgentMove s t) (hi : s.HierInv) : t.HierInv := by
  cases h with
  | emptied => exact (Hierarchy.fullInvalidate_spec hi).1
  | polluted pick => exact (Hierarchy.partialInvalidate_spec pick hi).1
  | wrote a v g k _ hg => exact (hg.1 hi).1
  | switched => exact hi
  | handed => exact hi
  | taken => exact hi
  | launched => exact hi
  | took => exact hi
  | unblocked => exact hi

/-- Settles O49: the core's reads and writes, the invalidations and the loader's write keep the invariant, and nothing else touches
the hierarchy. -/
theorem stepKeepsHierarchy : Obligations.StepKeepsHierarchy := by
  intro s t hi h
  obtain ⟨rest, hc | ha⟩ := step_moves h
  · exact coreStep_hierInv hc hi
  · exact ha.hierInv hi

/-- Settles O56: a move of a running turn performs the store at stake or none, and no other step of the core touches memory. -/
theorem memoryChangesOnlyByStores : Obligations.MemoryChangesOnlyByStores := by
  intro s t hi ha h a
  rcases step_cases ha h with ⟨ho, hm⟩ | ⟨ho, -, rfl⟩ | ⟨ho, rfl⟩
  · rcases hm.memory ho with ⟨hnone, hk⟩ | ⟨b, v, hst, hb, hw⟩
    · rw [(hk hi).2 a]
      split
      · rename_i b v hst
        rw [if_neg fun hab => hab.2 (hnone b v hst)]
      · rfl
    · rw [(hw hi).2 a, hst]
      simp only [hb, ne_eq, not_false_eq_true, and_true]
  · rw [State.storeAtStake_of_not_running ho]; rfl
  · rw [State.storeAtStake_of_not_running ho]

end Sys2Proof.Machine

/-! The cache is transparent (R90): two states that show a program the same values answer every part of a cycle alike, whatever
their caches, policies, tier splits and weights. -/

namespace Sys2Proof.Machine

section sameValues

variable {s t : State}

/-! ## What states with the same values agree on -/

/-- A part of the PCB that is no counter and no weight. -/
theorem sameValues.field {β : Type} (h : sameValues s t) (F : Pcb → β) (hF : ∀ p, F p.visible = F p := by exact fun _ => rfl) :
    F s.pcb = F t.pcb := by
  rw [← hF s.pcb, ← hF t.pcb, h.1]

theorem sameValues.reg (h : sameValues s t) (r : RegIdx) : s.reg r = t.reg r := h.field (·.reg r)

theorem sameValues.phys (h : sameValues s t) (a : Word) : s.phys a = t.phys a := h.field (·.base + a)

theorem sameValues.drained (h : sameValues s t) : s.drained = t.drained := h.field (fun p => p.draining && p.pipelineEmpty)

theorem sameValues.turn (h : sameValues s t) : s.turn = t.turn := h.2.1

theorem sameValues.word (h : sameValues s t) (a : Word) : s.wordAt a = t.wordAt a := by
  obtain ⟨-, -, -, -, hm⟩ := h
  exact hm a

/-! ## Updates that keep the values the same -/

/-- A change of the PCB in which what a program sees of it depends on nothing else of it. -/
theorem sameValues.onPcb (h : sameValues s t) (f : Pcb → Pcb)
    (hf : ∀ p, (f p).visible = (f p.visible).visible := by exact fun _ => rfl) : sameValues (s.onPcb f) (t.onPcb f) := by
  obtain ⟨hp, ht, hq, hc, hm⟩ := h
  refine ⟨?_, ht, hq, hc, hm⟩
  rw [State.onPcb_pcb, State.onPcb_pcb, hf s.pcb, hf t.pcb, hp]

theorem sameValues.onTurn (h : sameValues s t) (f : Turn → Turn) : sameValues (s.onTurn f) (t.onTurn f) := by
  obtain ⟨hp, ht, hq, hc, hm⟩ := h
  exact ⟨hp, congrArg f ht, hq, hc, hm⟩

theorem sameValues.toStage (h : sameValues s t) (g : Stage) : sameValues (s.toStage g) (t.toStage g) := h.onTurn _

theorem sameValues.setReg (h : sameValues s t) (rd : RegIdx) (v : Word) : sameValues (s.setReg rd v) (t.setReg rd v) :=
  h.onPcb (Pcb.setReg rd v)

theorem sameValues.endTurn (h : sameValues s t) (o : TurnOutcome) (st : ProcStatus) :
    sameValues (s.endTurn o st) (t.endTurn o st) :=
  (h.onPcb (fun p => { p with status := st })).onTurn (fun _ => { Turn.fresh with outcome := some o })

theorem sameValues.raise (h : sameValues s t) (f : Fault) : sameValues (s.raise f) (t.raise f) := h.endTurn _ _

theorem sameValues.startTurn (h : sameValues s t) : sameValues s.startTurn t.startTurn :=
  (h.onPcb (fun p => { p with status := .running })).onTurn (fun _ => Turn.fresh)

theorem sameValues.raiseOutput (h : sameValues s t) (v : Word) : sameValues (s.raiseOutput v) (t.raiseOutput v) := by
  have hpid := h.field (·.pid)
  obtain ⟨hp, ht, hq, hc, hm⟩ := h
  rw [State.raiseOutput_eq, State.raiseOutput_eq, hpid, hq, ht, hc]
  exact ⟨hp, rfl, rfl, hc, hm⟩

theorem sameValues.retire (h : sameValues s t) : sameValues (retire s) (retire t) :=
  (h.onPcb (fun p => { p with
    mw := none
    counters := { p.counters with instructions := p.counters.instructions + 1 } })).toStage .mem

/-! ## Memory accesses -/

/-- Accesses that leave the same words leave the same values. -/
theorem sameValues.accessed (h : sameValues s t) {g g' : Hierarchy} {k k' : Counters}
    (hm : ∀ a, (s.accessed g k).wordAt a = (t.accessed g' k').wordAt a) :
    sameValues (s.accessed g k) (t.accessed g' k') := by
  obtain ⟨hp, ht, hq, hc, -⟩ := h
  exact ⟨hp, ht, hq, hc, hm⟩

/-- A read is out of range in both states, or returns the same word from both and leaves the same values (R90). -/
theorem sameValues.memRead (h : sameValues s t) (hs : s.HierInv) (ht : t.HierInv) (a : Word) :
    (s.memRead a = none ∧ t.memRead a = none) ∨
    ∃ v s' t', s.memRead a = some (v, s') ∧ t.memRead a = some (v, t') ∧ sameValues s' t' := by
  have hw := h.word
  rcases s.memRead_cases a with ⟨hr, hn⟩ | ⟨v, g, k, hr, hv, hg⟩
  · exact .inl ⟨hr, (State.memRead_eq_none_iff t a).mpr (hw a ▸ hn)⟩
  · rcases t.memRead_cases a with ⟨-, hn'⟩ | ⟨v', g', k', hr', hv', hg'⟩
    · rw [hw a, hn'] at hv
      cases hv
    · rw [hw a, hv'] at hv
      cases hv
      refine .inr ⟨v, _, _, hr, hr', h.accessed fun b => ?_⟩
      rw [(hg.1 hs).2 b, (hg'.1 ht).2 b, hw b]

/-- A write is out of range in both states, or leaves the same values (R90). -/
theorem sameValues.memWrite (h : sameValues s t) (hs : s.HierInv) (ht : t.HierInv) (a v : Word) :
    (s.memWrite a v = none ∧ t.memWrite a v = none) ∨
    ∃ s' t', s.memWrite a v = some s' ∧ t.memWrite a v = some t' ∧ sameValues s' t' := by
  have hw := h.word
  rcases s.memWrite_cases a v with ⟨hr, hn⟩ | ⟨g, k, hr, hv, hg⟩
  · exact .inl ⟨hr, (State.memWrite_eq_none_iff t a v).mpr (hw a ▸ hn)⟩
  · rcases t.memWrite_cases a v with ⟨-, hn'⟩ | ⟨g', k', hr', -, hg'⟩
    · exact absurd ((hw a).trans hn') hv
    · refine .inr ⟨_, _, hr, hr', h.accessed fun b => ?_⟩
      rw [(hg.1 hs).2 b, (hg'.1 ht).2 b, hw b]

end sameValues

/-! ## What a stage's action answers -/

/-- Two answers of EX with the same fields or the same fault, and the same values. -/
inductive ExResult.Alike : ExResult → ExResult → Prop where
  | done {s t : State} (ea sdata : Option Word) (h : sameValues s t) : Alike (.done ea sdata s) (.done ea sdata t)
  | raised {s t : State} (f : Fault) (h : sameValues s t) : Alike (.raised f s) (.raised f t)

/-- Two answers of MEM with the same word or the same fault, and the same values. -/
inductive MemResult.Alike : MemResult → MemResult → Prop where
  | done {s t : State} (ldata : Option Word) (h : sameValues s t) : Alike (.done ldata s) (.done ldata t)
  | raised {s t : State} (f : Fault) (h : sameValues s t) : Alike (.raised f s) (.raised f t)

theorem ExResult.Alike.endEx {r r' : ExResult} (h : ExResult.Alike r r') (slot : DeSlot) (d : Decoded) :
    sameValues (endEx slot d r) (endEx slot d r') := by
  cases h with
  | done ea sdata h =>
    exact (h.onPcb (fun p => { p with de := none, em := some { ipc := slot.ipc, d := d, ea := ea, sdata := sdata } })
     ).toStage .id
  | raised f h => exact (h.onPcb (fun p => { p with de := none })).raise f

theorem MemResult.Alike.endMem {r r' : MemResult} (h : MemResult.Alike r r') (slot : EmSlot) (d : Decoded) :
    sameValues (endMem slot d r) (endMem slot d r') := by
  cases h with
  | done ldata h =>
    exact (h.onPcb (fun p => { p with em := none, mw := some { ipc := slot.ipc, d := d, ldata := ldata } })
     ).toStage .memEmit
  | raised f h => exact (h.onPcb (fun p => { p with em := none })).raise f

section actions

variable {s t : State} (h : sameValues s t) (hs : s.HierInv) (ht : t.HierInv)

include h

theorem writeResult_alike (rd : RegIdx) (r : Except Fault Word) : (writeResult rd r s).Alike (writeResult rd r t) := by
  cases r with
  | ok v => exact .done none none (h.setReg rd v)
  | error f => exact .raised f h

theorem emitLoaded_sameValues (slot : MwSlot) : sameValues (emitLoaded slot s) (emitLoaded slot t) := by
  unfold emitLoaded
  cases slot.ldata with
  | none => exact h
  | some v => exact (h.raiseOutput v).onPcb (fun p => { p with mw := some { slot with ldata := none } })

theorem commitLoad_sameValues (rt : RegIdx) (slot : MwSlot) : sameValues (commitLoad rt slot s) (commitLoad rt slot t) := by
  unfold commitLoad
  cases slot.ldata with
  | none => exact h
  | some v => exact h.setReg rt v

include hs ht

theorem redirect_alike (target : Word) : (redirect target s).Alike (redirect target t) := by
  unfold redirect
  rw [h.phys target]
  have h' := h.onPcb (fun p => { p with pc := target, fd := none, draining := false, mar := t.phys target })
   
  rcases h'.memRead hs ht (t.phys target) with ⟨hr, hr'⟩ | ⟨v, s', t', hr, hr', hv⟩ <;> simp only [hr, hr']
  · exact .raised _ h'
  · exact .done none none (hv.onPcb (fun p => { p with ir := v }))

theorem branchOn_alike (result target : Word) : (branchOn result target s).Alike (branchOn result target t) := by
  unfold branchOn
  split
  · exact redirect_alike h hs ht target
  · exact .done none none h

theorem loadWord_alike (slot : EmSlot) : (loadWord slot s).Alike (loadWord slot t) := by
  unfold loadWord
  cases slot.ea with
  | none => exact .done none h
  | some ea =>
    simp only [h.phys ea]
    rcases h.memRead hs ht (t.phys ea) with ⟨hr, hr'⟩ | ⟨v, s', t', hr, hr', hv⟩ <;> simp only [hr, hr']
    · exact .raised _ h
    · exact .done (some v) hv

theorem storeWord_alike (slot : EmSlot) : (storeWord slot s).Alike (storeWord slot t) := by
  unfold storeWord
  split
  · rename_i ea v _ _
    rw [h.phys ea]
    rcases h.memWrite hs ht (t.phys ea) v with ⟨hr, hr'⟩ | ⟨s', t', hr, hr', hv⟩ <;> simp only [hr, hr']
    · exact .raised _ h
    · exact .done none hv
  · exact .done none h

/-- EX of any record (R166). -/
theorem ex_alike (d : Decoded) : ((actionsOfDecoded d).ex s).Alike ((actionsOfDecoded d).ex t) := by
  cases d with
  | nop => exact .done none none h
  | instr i =>
    cases i <;> simp only [actionsOfDecoded, actionsOf, effectiveAddress, h.reg]
    case lui rt imm => exact .done none none (h.setReg rt _)
    case li rt imm => exact .done none none (h.setReg rt imm)
    case beq => exact branchOn_alike h hs ht _ _
    case bne => exact branchOn_alike h hs ht _ _
    case blt => exact branchOn_alike h hs ht _ _
    case bgt => exact branchOn_alike h hs ht _ _
    case j target => exact redirect_alike h hs ht target
    case lw => exact .done _ _ h
    case sw => exact .done _ _ h
    case printReg => exact .done none none (h.raiseOutput _)
    case printMem => exact .done _ _ h
    case endOfProgram => exact .done none none h
    all_goals exact writeResult_alike h _ _

/-- MEM of any record (R165). -/
theorem mem_alike (d : Decoded) (slot : EmSlot) : ((actionsOfDecoded d).mem slot s).Alike ((actionsOfDecoded d).mem slot t) := by
  cases d with
  | nop => exact .done none h
  | instr i =>
    cases i
    case lw => exact loadWord_alike h hs ht slot
    case sw => exact storeWord_alike h hs ht slot
    case printMem => exact loadWord_alike h hs ht slot
    all_goals exact .done none h

omit hs ht

/-- The second half of MEM of any record (R311). -/
theorem memEmit_sameValues (d : Decoded) (slot : MwSlot) :
    sameValues ((actionsOfDecoded d).memEmit slot s) ((actionsOfDecoded d).memEmit slot t) := by
  cases d with
  | nop => exact h
  | instr i =>
    cases i
    case printMem => exact emitLoaded_sameValues h slot
    all_goals exact h

/-- WB of any record (R164). -/
theorem wb_sameValues (d : Decoded) (slot : MwSlot) :
    sameValues ((actionsOfDecoded d).wb slot s) ((actionsOfDecoded d).wb slot t) := by
  cases d with
  | nop => exact h
  | instr i =>
    cases i
    case lw rt _ _ => exact commitLoad_sameValues h rt slot
    all_goals exact h

/-! ## The sequencer -/

theorem beginCycle_sameValues : sameValues (beginCycle s) (beginCycle t) := by
  unfold beginCycle
  rw [h.drained]
  split
  · exact h.endTurn _ _
  · exact (h.onPcb (fun p => { p with
      counters := { p.counters with pipelineCycles := p.counters.pipelineCycles + 1 } })).onTurn
      (fun u => { u with cycles := u.cycles + 1, stage := .wb })

theorem decodeStage_sameValues : sameValues (decodeStage s) (decodeStage t) := by
  unfold decodeStage
  rw [h.field (·.fd)]
  cases t.pcb.fd with
  | none => exact h.toStage .fetch
  | some slot => exact (h.onPcb (fun p => { p with fd := none, de := some _ })).toStage .fetch

theorem endCycle_sameValues : sameValues (endCycle s) (endCycle t) := by
  unfold endCycle
  rw [h.turn, h.field (·.quantum), h.drained]
  split
  · exact h.endTurn _ _
  · split
    · exact h.endTurn _ _
    · split
      · exact h.endTurn _ _
      · exact h.toStage .start

theorem exec_end_fetch_sameOutcome (hf : s.turn.stage = .fetch) :
    sameOutcome (exec .endOfProgram s) (exec .endOfProgram t) := by
  rw [exec_end_fetch hf, exec_end_fetch (h.turn ▸ hf)]
  exact (h.onPcb (fun p => { p with draining := true })).toStage .check

include hs ht

theorem fetchStage_sameOutcome (hf : s.turn.stage = .fetch) : sameOutcome (fetchStage s) (fetchStage t) := by
  unfold fetchStage
  rw [h.field (·.draining), h.field (·.pc), h.phys]
  split
  · exact h.toStage .check
  · have h' := h.onPcb (fun p => { p with mar := t.phys t.pcb.pc })
    rcases h'.memRead hs ht (t.phys t.pcb.pc) with ⟨hr, hr'⟩ | ⟨w, s', t', hr, hr', hv⟩ <;> simp only [hr, hr']
    · exact h'.raise _
    · have hv' := hv.onPcb (fun p => { p with ir := w })
      split
      · refine exec_end_fetch_sameOutcome hv' ?_
        rw [State.onPcb_turn, State.memRead_frame hr]
        exact hf
      · exact (hv'.onPcb (fun p => { p with fd := some { word := w, ipc := p.pc }, pc := p.pc + 4#32 })).toStage .check

/-- Every part of a cycle (R161, R162). -/
theorem runStage_sameOutcome : sameOutcome (runStage s) (runStage t) := by
  have hst : ∀ {g}, s.turn.stage = g → t.turn.stage = g := fun hg => h.turn ▸ hg
  cases hg : s.turn.stage with
  | start =>
    rw [runStage_start hg, runStage_start (hst hg)]
    exact beginCycle_sameValues h
  | wb =>
    cases hd : s.pcb.mw with
    | none =>
      rw [runStage_wb hg, runStage_wb (hst hg), ← h.field (·.mw), hd]
      exact h.toStage .mem
    | some slot =>
      rw [runStage_wb_slot hg hd, runStage_wb_slot (hst hg) (h.field (·.mw) ▸ hd)]
      exact (wb_sameValues h slot.d slot).retire
  | mem =>
    cases hd : s.pcb.em with
    | none =>
      rw [runStage_mem hg, runStage_mem (hst hg), ← h.field (·.em), hd]
      exact h.toStage .memEmit
    | some slot =>
      rw [runStage_mem_slot hg hd, runStage_mem_slot (hst hg) (h.field (·.em) ▸ hd)]
      exact (mem_alike h hs ht slot.d slot).endMem slot slot.d
  | memEmit =>
    cases hd : s.pcb.mw with
    | none =>
      rw [runStage_memEmit hg, runStage_memEmit (hst hg), ← h.field (·.mw), hd]
      exact h.toStage .ex
    | some slot =>
      rw [runStage_memEmit_slot hg hd, runStage_memEmit_slot (hst hg) (h.field (·.mw) ▸ hd)]
      exact (memEmit_sameValues h slot.d slot).toStage .ex
  | ex =>
    cases hd : s.pcb.de with
    | none =>
      rw [runStage_ex hg, runStage_ex (hst hg), ← h.field (·.de), hd]
      exact h.toStage .id
    | some slot =>
      rw [runStage_ex_slot hg hd, runStage_ex_slot (hst hg) (h.field (·.de) ▸ hd)]
      exact (ex_alike h hs ht slot.d).endEx slot slot.d
  | id =>
    rw [runStage_id hg, runStage_id (hst hg)]
    exact decodeStage_sameValues h
  | fetch =>
    rw [runStage_fetch hg, runStage_fetch (hst hg)]
    exact fetchStage_sameOutcome h hs ht hg
  | check =>
    rw [runStage_check hg, runStage_check (hst hg)]
    exact endCycle_sameValues h

theorem coreStep_sameOutcome : sameOutcome (coreStep s) (coreStep t) := by
  unfold coreStep
  rw [← h.turn, ← h.field (·.status)]
  split
  · exact runStage_sameOutcome h hs ht
  · exact h
  · split
    · exact h.startTurn
    · exact h.startTurn
    · exact h
    · exact h
    · rfl

end actions

/-- Settles O57: with no event due a step is the core's, and the core acts alike on states with the same values. -/
theorem cacheIsTransparent : Obligations.CacheIsTransparent := by
  intro s t hs ht ha ha' h
  rw [step_of_agenda_nil ha, step_of_agenda_nil ha']
  exact coreStep_sameOutcome h hs ht

end Sys2Proof.Machine

/-! The cache (R72, R73, R79 to R90): where an address lives, what an insert evicts, and what a read and a write of one word do to
the entries, the bookkeeping, the tiers and the counters. -/

namespace Sys2Proof.Machine

/-! ## Where an address lives -/

/-- Settles O25: the index below `LIMIT` is within `PRIMARY_SIZE`, which is no smaller. -/
theorem tierResolution : Obligations.TierResolution := by
  rintro c a ⟨-, hlimit, -, -⟩
  refine ⟨fun h => ?_, fun h hin => ?_, fun h hout => ?_⟩
  · rw [resolve, if_pos h, if_pos (Nat.lt_of_lt_of_le h hlimit)]
  · rw [resolve, if_neg (Nat.not_lt.mpr h), if_pos hin]
  · rw [resolve, if_neg (Nat.not_lt.mpr h), if_neg (Nat.not_lt.mpr hout)]

/-- An entry's address is in range (R73, R79). -/
theorem Hierarchy.coherent.resolve_isSome {c : Config} {h : Hierarchy} {a : Nat} {e : CacheEntry} (hco : h.coherent c)
    (he : h.entry a = some e) : (resolve c a).isSome = true := by
  obtain ⟨-, hr, -⟩ := hco (a, e) (mem_of_cellAt he)
  exact hr

/-! ## The bookkeeping -/

theorem orderToEnd_of_not_mem {a : Nat} {o : List Nat} (h : a ∉ o) : orderToEnd a o = o ++ [a] := by
  have hf : o.filter (fun b => b != a) = o := List.filter_eq_self.mpr fun b hb => bne_iff_ne.mpr (ne_of_mem_of_not_mem hb h)
  rw [orderToEnd, hf]

theorem orderToEnd_orderToEnd (a : Nat) (o : List Nat) : orderToEnd a (orderToEnd a o) = orderToEnd a o := by
  simp [orderToEnd, List.filter_append, List.filter_filter]

theorem Hierarchy.touch_order_fifo {c : Config} (hc : c.replacement = .fifo) (a : Nat) (h : Hierarchy) :
    (h.touch c a).order = h.order := by
  rw [Hierarchy.touch, hc]

theorem Hierarchy.touch_order_lru {c : Config} (hc : c.replacement = .lru) (a : Nat) (h : Hierarchy) :
    (h.touch c a).order = orderToEnd a h.order := by
  rw [Hierarchy.touch, hc]

theorem Hierarchy.store_order (c : Config) (a : Nat) (v : Word) (h : Hierarchy) :
    (h.store c a v).order = (h.touch c a).order := by
  unfold Hierarchy.store Hierarchy.touch
  cases c.replacement <;> rfl

theorem Hierarchy.insert_order (c : Config) (a : Nat) (v : Word) (h : Hierarchy) :
    (h.insert c a v).order = orderToEnd a (h.evict c).order := rfl

theorem Hierarchy.insert_primary (c : Config) (a : Nat) (v : Word) (h : Hierarchy) :
    (h.insert c a v).primary = (h.evict c).primary := rfl

theorem Hierarchy.insert_secondary (c : Config) (a : Nat) (v : Word) (h : Hierarchy) :
    (h.insert c a v).secondary = (h.evict c).secondary := rfl

/-- Under either policy a touch leaves the address inserted last where it is (R88, R89). -/
theorem Hierarchy.touch_order_insert (c : Config) (a : Nat) (v : Word) (h : Hierarchy) :
    ((h.insert c a v).touch c a).order = (h.insert c a v).order := by
  cases hc : c.replacement with
  | fifo => exact Hierarchy.touch_order_fifo hc a _
  | lru => rw [Hierarchy.touch_order_lru hc, Hierarchy.insert_order, orderToEnd_orderToEnd]

/-! ## Evictions -/

/-- With room in the cache, or without a victim, nothing is evicted (R82, R87). -/
theorem Hierarchy.evict_of_no_victim {c : Config} {h : Hierarchy} (hn : h.cache.length < c.cacheCapacity ∨ h.order = []) :
    h.evict c = h := by
  unfold Hierarchy.evict
  split
  · rcases hn with hlt | hnil
    · omega
    · rw [hnil]
  · rfl

/-- In a full cache the first of the bookkeeping is evicted (R82, R83). -/
theorem Hierarchy.evict_of_full {c : Config} {h : Hierarchy} {victim : Nat} {rest : List Nat}
    (hfull : c.cacheCapacity ≤ h.cache.length) (ho : h.order = victim :: rest) : h.evict c = h.leave c victim := by
  rw [Hierarchy.evict, if_pos hfull, ho]

/-- The bookkeeping after its first address has left. -/
theorem Hierarchy.leave_order_head {c : Config} {h : Hierarchy} {victim : Nat} {rest : List Nat} (hn : h.order.Nodup)
    (ho : h.order = victim :: rest) : (h.leave c victim).order = rest := by
  rw [ho, List.nodup_cons] at hn
  simp only [Hierarchy.leave, Hierarchy.writeBack_order, ho, List.filter_cons, bne_self_eq_false, Bool.false_eq_true, if_false]
  exact List.filter_eq_self.mpr fun b hb => bne_iff_ne.mpr (ne_of_mem_of_not_mem hb hn.1)

/-- The tiers after an entry has left: its own address holds its data if it was dirty (R85, R86). -/
theorem Hierarchy.tierWord_leave_of_entry {c : Config} {h : Hierarchy} {a : Nat} {e : CacheEntry} (hco : h.coherent c)
    (he : h.entry a = some e) (b : Nat) :
    (h.leave c a).tierWord c b = if b = a ∧ e.dirty = true then some e.data else h.tierWord c b := by
  obtain ⟨x, hx⟩ := Option.isSome_iff_exists.mp (hco.resolve_isSome he)
  simp only [Hierarchy.tierWord_leave, Hierarchy.tierWord_writeBack, he, hx, Option.map_some, and_comm]

/-- Settles O30: the insert finds the hierarchy as it was, its eviction doing nothing. -/
theorem insertWithoutVictim : Obligations.InsertWithoutVictim := by
  intro c h a v hn
  have hev := Hierarchy.evict_of_no_victim hn
  refine ⟨fun b => ?_, ?_, ?_, ?_⟩
  · rw [Hierarchy.entry_insert, hev]
  · rw [Hierarchy.insert_order, hev, orderToEnd]
  · rw [Hierarchy.insert_primary, hev]
  · rw [Hierarchy.insert_secondary, hev]

/-- Settles O29: the insert finds the hierarchy the victim has left. -/
theorem insertEvictsTheVictim : Obligations.InsertEvictsTheVictim := by
  intro c h a victim rest v e hi ha hfull ho he
  obtain ⟨-, -, ⟨hn, hop, -, -⟩, hco⟩ := hi
  have hev := Hierarchy.evict_of_full hfull ho
  have harest : a ∉ rest := fun hm =>
    (cellAt_eq_none_iff _ _).mp ha (hop a (ho ▸ List.mem_cons_of_mem victim hm))
  refine ⟨fun b => ?_, ?_, fun b => ?_⟩
  · rw [Hierarchy.entry_insert, hev, Hierarchy.entry_leave]
  · rw [Hierarchy.insert_order, hev, Hierarchy.leave_order_head hn ho, orderToEnd_of_not_mem harest]
  · rw [Hierarchy.tierWord_insert, hev, Hierarchy.tierWord_leave_of_entry hco he]

/-! ## Reads -/

/-- A read of an address in range answers its word (R80, R90). -/
theorem State.memRead_of_wordAt {s : State} {a v : Word} (h : s.wordAt a = some v) : ∃ t, s.memRead a = some (v, t) := by
  rcases s.memRead_cases a with ⟨-, hn⟩ | ⟨w, g, k, hr, hw, -⟩
  · rw [h] at hn; cases hn
  · rw [h] at hw; cases hw
    exact ⟨_, hr⟩

section read

variable {s t : State} {a v : Word} (h : s.memRead a = some (v, t))

include h

theorem State.memRead_hier_of_entry {e : CacheEntry} (he : s.hier.entry a.toNat = some e) :
    t.hier = s.hier.touch s.config a.toNat := by
  rw [State.memRead_hier_eq h, he]

theorem State.memRead_hier_of_no_entry (he : s.hier.entry a.toNat = none) : t.hier = s.hier.insert s.config a.toNat v := by
  rw [State.memRead_hier_eq h, he]

/-- The counters of a hit (R80). -/
theorem State.memRead_counters_of_entry {e : CacheEntry} (he : s.hier.entry a.toNat = some e) :
    t.pcb.counters = s.pcb.counters.countRead.countHit s.pcb.wCache := by
  unfold State.memRead at h
  split at h
  · cases h
  · rw [he] at h; cases h; rfl

/-- The counters of a miss (R80, R81). -/
theorem State.memRead_counters_of_no_entry {u : Tier} {i : Nat} (he : s.hier.entry a.toNat = none)
    (hr : resolve s.config a.toNat = some (u, i)) :
    t.pcb.counters = s.pcb.counters.countRead.countMiss u s.pcb.wPrimary s.pcb.wSecondary := by
  unfold State.memRead at h
  rw [hr, he] at h; cases h; rfl

end read

/-- Settles O26: a hit touches and a miss inserts, and neither changes a word. -/
theorem readReturnsTheWord : Obligations.ReadReturnsTheWord := by
  intro s a hi
  refine ⟨(State.memRead_eq_none_iff s a).mpr, fun v hv => ?_⟩
  obtain ⟨t, ht⟩ := State.memRead_of_wordAt hv
  obtain ⟨hti, hw, -⟩ := State.memRead_hier hi ht
  refine ⟨t, ht, hti, hw, State.memRead_frame ht, fun he => ?_, fun e he => ?_⟩
  · rw [State.memRead_hier_of_no_entry ht he]
    exact ⟨rfl, by rw [Hierarchy.entry_insert, if_pos rfl]⟩
  · rw [State.memRead_hier_of_entry ht he]
    exact ⟨Hierarchy.touch_cache _ _ _, Hierarchy.touch_primary _ _ _, Hierarchy.touch_secondary _ _ _⟩

/-! ## Writes -/

/-- A write to an address in range is performed (R84). -/
theorem State.memWrite_of_wordAt {s : State} {a : Word} (v : Word) (h : s.wordAt a ≠ none) : ∃ t, s.memWrite a v = some t :=
  Option.ne_none_iff_exists'.mp fun hn => h ((State.memWrite_eq_none_iff s a v).mp hn)

section write

variable {s t : State} {a v : Word} (h : s.memWrite a v = some t)

include h

/-- A write that is performed finds a word at its address (R73). -/
theorem State.wordAt_of_memWrite : ∃ w, s.wordAt a = some w :=
  Option.ne_none_iff_exists'.mp fun hn => by rw [(State.memWrite_eq_none_iff s a v).mpr hn] at h; cases h

/-- A write that hits stores at once (R84). -/
theorem State.memWrite_of_entry {e : CacheEntry} (he : s.hier.entry a.toNat = some e) :
    t = ((s.onCounters Counters.countWrite).onCounters (·.countHit s.pcb.wCache)).onHier (·.store s.config a.toNat v) := by
  unfold State.memWrite State.allocate at h
  split at h
  · cases h
  · rw [State.onCounters_hier, he] at h; cases h; rfl

/-- A write that misses reads first and then stores (R84). -/
theorem State.memWrite_of_no_entry (he : s.hier.entry a.toNat = none) :
    ∃ w u, (s.onCounters Counters.countWrite).memRead a = some (w, u) ∧
      t = (u.onCounters (·.countHit s.pcb.wCache)).onHier (·.store s.config a.toNat v) := by
  obtain ⟨w, hw⟩ := State.wordAt_of_memWrite h
  obtain ⟨u, hu⟩ := State.memRead_of_wordAt (s := s.onCounters Counters.countWrite) hw
  refine ⟨w, u, hu, ?_⟩
  have hf := State.memRead_frame hu
  unfold State.memWrite State.allocate at h
  split at h
  · cases h
  · simp only [State.onCounters_hier, he, hu, Option.some.injEq] at h
    rw [← h, hf]
    rfl

theorem State.memWrite_hier_of_entry {e : CacheEntry} (he : s.hier.entry a.toNat = some e) :
    t.hier = s.hier.store s.config a.toNat v := by
  rw [State.memWrite_of_entry h he]
  rfl

theorem State.memWrite_hier_of_no_entry {w : Word} (he : s.hier.entry a.toNat = none) (hw : s.wordAt a = some w) :
    t.hier = (s.hier.insert s.config a.toNat w).store s.config a.toNat v := by
  obtain ⟨w', u, hu, rfl⟩ := State.memWrite_of_no_entry h he
  have hval := State.memRead_value hu
  cases hw.symm.trans hval
  rw [State.onHier_hier, State.onCounters_hier, State.memRead_hier_of_no_entry hu he]
  rfl

/-- The counters of a write that hits (R84). -/
theorem State.memWrite_counters_of_entry {e : CacheEntry} (he : s.hier.entry a.toNat = some e) :
    t.pcb.counters = s.pcb.counters.countWrite.countHit s.pcb.wCache := by
  rw [State.memWrite_of_entry h he]
  rfl

/-- The counters of a write that misses: those of a read in between (R84). -/
theorem State.memWrite_counters_of_no_entry {u : Tier} {i : Nat} (he : s.hier.entry a.toNat = none)
    (hr : resolve s.config a.toNat = some (u, i)) :
    t.pcb.counters =
      (s.pcb.counters.countWrite.countRead.countMiss u s.pcb.wPrimary s.pcb.wSecondary).countHit s.pcb.wCache := by
  obtain ⟨w, x, hx, rfl⟩ := State.memWrite_of_no_entry h he
  rw [State.onHier_pcb, State.onCounters_pcb, State.memRead_counters_of_no_entry hx he hr]
  rfl

end write

/-- Settles O28: a read counts a hit or a miss, a write the same and the hit of its store. -/
theorem accessCounters : Obligations.AccessCounters :=
  ⟨fun _ _ _ _ h => ⟨fun _ he => State.memRead_counters_of_entry h he,
      fun _ he hr => State.memRead_counters_of_no_entry h he hr, fun _ he hr => State.memRead_counters_of_no_entry h he hr⟩,
    fun _ _ _ _ h => ⟨fun _ he => State.memWrite_counters_of_entry h he,
      fun _ he hr => State.memWrite_counters_of_no_entry h he hr, fun _ he hr => State.memWrite_counters_of_no_entry h he hr⟩⟩

/-- Settles O31: a hit, by read or by write, is a touch of the bookkeeping. -/
theorem touchFollowsThePolicy : Obligations.TouchFollowsThePolicy := by
  intro s t a v w e he h
  have ho : t.hier.order = (s.hier.touch s.config a.toNat).order := by
    rcases h with h | h
    · rw [State.memRead_hier_of_entry h he]
    · rw [State.memWrite_hier_of_entry h he, Hierarchy.store_order]
  exact ⟨fun hc => ho.trans (Hierarchy.touch_order_lru hc _ _), fun hc => ho.trans (Hierarchy.touch_order_fifo hc _ _)⟩

/-- A write is of a stored entry: dirty with the value, whether it hits or misses; the tier keeps its word (R84). -/
theorem State.memWrite_writesBack {s t : State} {a v : Word} (h : s.memWrite a v = some t) :
    t.hier.entry a.toNat = some { data := v, valid := true, dirty := true } ∧
    t.hier.tierWord s.config a.toNat = s.hier.tierWord s.config a.toNat := by
  cases he : s.hier.entry a.toNat with
  | some e =>
    rw [State.memWrite_hier_of_entry h he]
    exact ⟨by rw [Hierarchy.entry_store, if_pos rfl],
      Hierarchy.tierWord_congr (Hierarchy.store_primary _ _ _ _) (Hierarchy.store_secondary _ _ _ _) _⟩
  | none =>
    obtain ⟨w, hw⟩ := State.wordAt_of_memWrite h
    rw [State.memWrite_hier_of_no_entry h he hw]
    refine ⟨by rw [Hierarchy.entry_store, if_pos rfl], ?_⟩
    rw [Hierarchy.tierWord_congr (Hierarchy.store_primary _ _ _ _) (Hierarchy.store_secondary _ _ _ _),
      Hierarchy.tierWord_insert, Hierarchy.tierWord_evict_of_no_entry _ he]

/-- Settles O27: a hit stores at once, a miss stores into what the insert left. -/
theorem writeThenReadReturnsValue : Obligations.WriteThenReadReturnsValue := by
  intro s a v hi
  refine ⟨(State.memWrite_eq_none_iff s a v).mpr, fun w hw => ?_⟩
  obtain ⟨t, ht⟩ := State.memWrite_of_wordAt v (hw ▸ Option.some_ne_none w)
  obtain ⟨hti, hwords⟩ := State.memWrite_hier hi ht
  obtain ⟨hentry, htier⟩ := State.memWrite_writesBack ht
  have hread : ∃ u, t.memRead a = some (v, u) := State.memRead_of_wordAt (by rw [hwords a, if_pos rfl])
  refine ⟨t, ht, hti, hwords, State.memWrite_frame ht, hread, hentry, htier, fun e he => ?_, fun he => ?_⟩
  · rw [State.memWrite_hier_of_entry ht he]
    exact ⟨fun b hb => by rw [Hierarchy.entry_store, if_neg hb], Hierarchy.store_primary _ _ _ _,
      Hierarchy.store_secondary _ _ _ _⟩
  · rw [State.memWrite_hier_of_no_entry ht he hw]
    refine ⟨fun b hb => by rw [Hierarchy.entry_store, if_neg hb], ?_, Hierarchy.store_primary _ _ _ _,
      Hierarchy.store_secondary _ _ _ _⟩
    rw [Hierarchy.store_order, Hierarchy.touch_order_insert]

end Sys2Proof.Machine

/-! What the agents and the other cores do to memory (R91 to R94, R99, R352): invalidations, the loader's writes, and a word stored by
one core and loaded by another. -/

namespace Sys2Proof.Machine

/-! ## Invalidations -/

/-- An invalidation is refused while the core's turn runs (R352, log 8). -/
theorem invalidate_of_running {s : State} (f : Hierarchy → Hierarchy) (ho : s.turn.outcome = none) :
    invalidate f s = .refused .turnInProgress := by
  rw [invalidate, ho]

/-- An invalidation is performed between turns (R352, log 8). -/
theorem invalidate_of_ended {s : State} {o : TurnOutcome} (f : Hierarchy → Hierarchy) (ho : s.turn.outcome = some o) :
    invalidate f s = .next (s.onHier f) := by
  rw [invalidate, ho]

/-- Settles O42: every entry leaves, written back if dirty, and with them the bookkeeping. -/
theorem fullInvalidateKeepsMemory : Obligations.FullInvalidateKeepsMemory := by
  intro s rest hi ha
  rw [step_of_agenda_cons ha]
  obtain ⟨-, hcache, horder, hwords⟩ := Hierarchy.fullInvalidate_spec hi
  exact ⟨fun o ho => ⟨_, invalidate_of_ended _ ho, hcache, horder, fun a => hwords a.toNat, rfl⟩,
    fun ho => invalidate_of_running _ ho⟩

/-! ## The entries a partial invalidate removes -/

/-- The addresses present, those `pick` names first. -/
theorem Hierarchy.picked_perm_present (pick : List Nat) (h : Hierarchy) :
    (h.present.filter (fun a => pick.contains a) ++ h.present.filter (fun a => !pick.contains a)).Perm h.present :=
  List.filter_append_perm _ _

theorem Hierarchy.victims_subset_present (c : Config) (pick : List Nat) (h : Hierarchy) :
    ∀ a ∈ h.victims c pick, a ∈ h.present :=
  fun _ ha => (Hierarchy.picked_perm_present pick h).mem_iff.mp (List.mem_of_mem_take ha)

theorem Hierarchy.victims_nodup (c : Config) (pick : List Nat) {h : Hierarchy} (hn : h.present.Nodup) :
    (h.victims c pick).Nodup :=
  ((Hierarchy.picked_perm_present pick h).nodup_iff.mpr hn).sublist (List.take_sublist _ _)

/-- The fraction is at most one (R10, R92). -/
theorem pollution_le_of_wf {c : Config} (hc : c.wf) (n : Nat) : c.pollutionNum * n / c.pollutionDen ≤ n := by
  obtain ⟨-, -, -, hle⟩ := hc
  exact Nat.div_le_of_le_mul (Nat.mul_le_mul_right n hle)

/-- Exactly `floor(f * E)` entries leave (R92). -/
theorem Hierarchy.victims_length {c : Config} (hc : c.wf) (pick : List Nat) (h : Hierarchy) :
    (h.victims c pick).length = c.pollutionNum * h.cache.length / c.pollutionDen := by
  have hlen : h.present.length = h.cache.length := List.length_map _
  rw [Hierarchy.victims, List.length_take, (Hierarchy.picked_perm_present pick h).length_eq, hlen]
  exact Nat.min_eq_left (pollution_le_of_wf hc _)

/-- Distinct addresses present are as many as the entries they name. -/
theorem Hierarchy.length_filter_present {pick : List Nat} {h : Hierarchy} (hn : h.present.Nodup) (hp : pick.Nodup)
    (hs : ∀ a ∈ pick, a ∈ h.present) : (h.present.filter (fun a => pick.contains a)).length = pick.length := by
  refine List.Perm.length_eq ((List.perm_ext_iff_of_nodup (hn.filter _) hp).mpr fun a => ?_)
  rw [List.mem_filter, List.contains_iff_mem]
  exact ⟨fun ha => ha.2, fun ha => ⟨hs a ha, ha⟩⟩

/-- A choice of the right number of addresses present is what leaves (R92). -/
theorem Hierarchy.mem_victims_iff {c : Config} {pick : List Nat} {h : Hierarchy} (hn : h.present.Nodup) (hp : pick.Nodup)
    (hs : ∀ a ∈ pick, a ∈ h.present) (hl : pick.length = c.pollutionNum * h.cache.length / c.pollutionDen) (a : Nat) :
    a ∈ h.victims c pick ↔ a ∈ pick := by
  rw [Hierarchy.victims, List.take_left' ((Hierarchy.length_filter_present hn hp hs).trans hl), List.mem_filter,
    List.contains_iff_mem]
  exact ⟨fun ha => ha.2, fun ha => ⟨hs a ha, ha⟩⟩

/-- The addresses that remain keep their order (R92). -/
theorem Hierarchy.partialInvalidate_order {c : Config} {h : Hierarchy} (pick : List Nat) (hi : h.Inv c) :
    (h.partialInvalidate c pick).order = h.order.filter (fun a => (h.partialInvalidate c pick).present.contains a) := by
  obtain ⟨-, -, hpresent⟩ := Hierarchy.partialInvalidate_spec pick hi
  obtain ⟨-, -, ⟨-, hop, -, -⟩, -⟩ := hi
  refine (Hierarchy.leaveAll_order c (h.victims c pick) h).trans (List.filter_congr fun a ha => ?_)
  rw [Bool.eq_iff_iff, List.contains_iff_mem, hpresent, Bool.not_eq_true', List.contains_eq_mem, decide_eq_false_iff_not]
  exact ⟨fun hv => ⟨hop a ha, hv⟩, fun hv => hv.2⟩

/-- Settles O43: the victims are as many distinct addresses present as the fraction says, and they alone leave. -/
theorem partialInvalidateRemovesTheFraction : Obligations.PartialInvalidateRemovesTheFraction := by
  intro s pick rest hi ha
  rw [step_of_agenda_cons ha]
  refine ⟨fun o ho => ?_, fun ho => invalidate_of_running _ ho⟩
  obtain ⟨-, hwords, hpresent⟩ := Hierarchy.partialInvalidate_spec pick hi
  have ⟨hwf, ⟨_, _, hrising⟩, _, _⟩ := hi
  have hn : s.hier.present.Nodup := Hierarchy.present_nodup hrising
  have hlength := Hierarchy.leaveAll_length _ hi (Hierarchy.victims_nodup s.config pick hn)
    (Hierarchy.victims_subset_present s.config pick s.hier)
  rw [Hierarchy.victims_length hwf] at hlength
  refine ⟨_, invalidate_of_ended _ ho, fun a => hwords a.toNat, rfl, hlength, Hierarchy.partialInvalidate_order pick hi, ?_⟩
  intro hp hs hl a
  rw [← Hierarchy.mem_victims_iff hn hp hs hl]
  exact hpresent a

/-! ## The loader -/

/-- A loader write in range leaves the PCB as it was (R99, log 19). -/
theorem loaderWrite_of_memWrite {s t : State} {a v : Word} (h : s.memWrite a v = some t) :
    loaderWrite a v s = .next { t with pcb := s.pcb } := by
  rw [loaderWrite, h]

/-- Settles O44: a loader write is a write that leaves the PCB as it was. -/
theorem loaderWritesOneWord : Obligations.LoaderWritesOneWord := by
  intro s a v rest hi ha hw
  obtain ⟨t, ht⟩ := State.memWrite_of_wordAt (s := s.withAgenda rest) v hw
  obtain ⟨-, hwords⟩ := State.memWrite_hier (s := s.withAgenda rest) hi ht
  refine ⟨{ t with pcb := s.pcb }, ?_, hwords, ?_⟩
  · rw [step_of_agenda_cons ha]
    exact loaderWrite_of_memWrite ht
  · rw [State.memWrite_frame ht]
    rfl

/-! ## Two cores -/

/-- With a `run` event due a running turn performs its next part of a cycle. -/
theorem step_of_agenda_run_running {s : State} {es : List Event} (ha : s.agenda = .run :: es)
    (ho : s.turn.outcome = none) : step s = runStage (s.withAgenda es) := by
  rw [step_of_agenda_cons ha]
  exact coreStep_of_running ho

/-- SW in MEM with its address in range goes on with the word written (R292). -/
theorem runStage_store {s t : State} {slot : EmSlot} {rt rs : RegIdx} {imm ea v : Word} (hs : s.turn.stage = .mem)
    (hd : s.pcb.em = some slot) (hsw : slot.d = .instr (.sw rt rs imm)) (he : slot.ea = some ea) (hv : slot.sdata = some v)
    (hw : s.memWrite (s.phys ea) v = some t) : runStage s = .next (endMem slot slot.d (.done none t)) := by
  rw [runStage_mem_slot hs hd, hsw]
  simp only [actionsOfDecoded, actionsOf, storeWord, he, hv, hw]

/-- LW in MEM with its address in range goes on with the word read (R291). -/
theorem runStage_load {s t : State} {slot : EmSlot} {rt rs : RegIdx} {imm ea v : Word} (hs : s.turn.stage = .mem)
    (hd : s.pcb.em = some slot) (hlw : slot.d = .instr (.lw rt rs imm)) (he : slot.ea = some ea)
    (hr : s.memRead (s.phys ea) = some (v, t)) : runStage s = .next (endMem slot slot.d (.done (some v) t)) := by
  rw [runStage_mem_slot hs hd, hlw]
  simp only [actionsOfDecoded, actionsOf, loadWord, he, hr]

/-- A `run` event that performs an SW in MEM, its address in range, leaves its store data there for the next event (R292). -/
theorem step_of_agenda_run_store {s : State} {es : List Event} {slot : EmSlot} {rt rs : RegIdx} {imm ea v : Word}
    (hi : s.HierInv) (ha : s.agenda = .run :: es) (ho : s.turn.outcome = none) (hs : s.turn.stage = .mem)
    (hd : s.pcb.em = some slot) (hsw : slot.d = .instr (.sw rt rs imm)) (he : slot.ea = some ea) (hv : slot.sdata = some v)
    (hw : s.wordAt (s.phys ea) ≠ none) :
    ∃ t, step s = .next t ∧ t.others = s.others ∧ t.agenda = es ∧ t.wordAt (s.phys ea) = some v := by
  obtain ⟨u, hu⟩ := State.memWrite_of_wordAt (s := s.withAgenda es) v hw
  obtain ⟨-, hwords⟩ := State.memWrite_hier (s := s.withAgenda es) hi hu
  have hrun := runStage_store (s := s.withAgenda es) hs hd hsw he hv hu
  have hk := coreStep_keepsContext ((coreStep_of_running (s := s.withAgenda es) ho).trans hrun)
  exact ⟨_, (step_of_agenda_run_running ha ho).trans hrun, hk.others, hk.agenda, (hwords _).trans (if_pos rfl)⟩

/-- A `run` event that performs an LW in MEM leaves the word at its address in `MW` (R291). -/
theorem step_of_agenda_run_load {s : State} {es : List Event} {slot : EmSlot} {rt rs : RegIdx} {imm ea v : Word}
    (ha : s.agenda = .run :: es) (ho : s.turn.outcome = none) (hs : s.turn.stage = .mem) (hd : s.pcb.em = some slot)
    (hlw : slot.d = .instr (.lw rt rs imm)) (he : slot.ea = some ea) (hv : s.wordAt (s.phys ea) = some v) :
    ∃ t, step s = .next t ∧ t.coreId = s.coreId ∧ t.pcb.mw = some { ipc := slot.ipc, d := slot.d, ldata := some v } := by
  obtain ⟨u, hu⟩ := State.memRead_of_wordAt (s := s.withAgenda es) hv
  have hrun := runStage_load (s := s.withAgenda es) hs hd hlw he hu
  have hk := coreStep_keepsContext ((coreStep_of_running (s := s.withAgenda es) ho).trans hrun)
  exact ⟨_, (step_of_agenda_run_running ha ho).trans hrun, hk.coreId, rfl⟩

/-- Settles O47: after the SW the word at its physical address is its store data, the switch changes no word, and LW reads it. -/
theorem otherCoreLoadsTheStoredWord : Obligations.OtherCoreLoadsTheStoredWord := by
  intro s k c l r rt rs rt' rs' imm imm' ea ea' v rest hi ha ho hs hd hl he hv hw hc ho' hs' hd' hr he' hphys
  obtain ⟨t, hstore, hothers, hagenda, hword⟩ := step_of_agenda_run_store hi ha ho hs hd hl he hv hw
  have hswitch := step_of_agenda_switchCore hagenda (hothers ▸ hc)
  rw [← hphys] at hword
  obtain ⟨u, hload, hid, hmw⟩ := step_of_agenda_run_load (s := { t with
    coreId := c.id, pcb := c.pcb, turn := c.turn, others := t.others.set k t.core, agenda := .run :: rest })
    rfl ho' hs' hd' hr he' hword
  exact ⟨u, (run_succ 2 hstore).trans ((run_succ 1 hswitch).trans (run_succ 0 hload)), hid, hmw⟩

end Sys2Proof.Machine

/-! The decoder against the encoder (spec/30_encoding.md): the word of every row of the opcode map, the ignored bits at any value
(R131, R134), and the words outside the map (R132). -/

namespace Sys2Proof

/-! ## A word of each format whose row is known -/

/-- An R-format word decodes to its row's record of its three registers, whatever its `shamt` (R121, R134). -/
theorem decode_rFormat (f : BitVec 6) (mk : RegIdx → RegIdx → RegIdx → Instr)
    (hrow : ∀ w, functField w = f → decodeRFormat w = .instr (mk (rdField w) (rsField w) (rtField w)))
    (rs rt rd sh : RegIdx) : decode (0#6 ++ rs ++ rt ++ rd ++ sh ++ f : Word) = .instr (mk rd rs rt) := by
  obtain ⟨hop, hrs, hrt, hrd, hf⟩ := rFormat_fields 0#6 f rs rt rd sh
  refine (decode_of_op hop (by decide)).trans ((hrow _ hf).trans ?_)
  rw [hrs, hrt, hrd]

/-- An I-format word decodes to its row's record of its two registers and its sign-extended immediate (R122, R125). -/
theorem decode_iFormat (op : BitVec 6) (mk : RegIdx → RegIdx → Word → Instr)
    (hrow : ∀ w, opField w = op → decode w = .instr (mk (rsField w) (rtField w) (immField w)))
    (rs rt : RegIdx) (imm16 : BitVec 16) :
    decode (op ++ rs ++ rt ++ imm16 : Word) = .instr (mk rs rt (imm16.signExtend 32)) := by
  obtain ⟨hop, hrs, hrt, himm⟩ := iFormat_fields op rs rt imm16
  refine (hrow _ hop).trans ?_
  rw [hrs, hrt, himm]

/-- The row of a function field (R130, R131). -/
theorem decodeRFormat_of_funct {w : Word} {f : BitVec 6} (h : functField w = f) :
    decodeRFormat w = match f.toNat with
      | 0x20 => .instr (.add (rdField w) (rsField w) (rtField w))
      | 0x22 => .instr (.sub (rdField w) (rsField w) (rtField w))
      | 0x18 => .instr (.mul (rdField w) (rsField w) (rtField w))
      | 0x1A => .instr (.div (rdField w) (rsField w) (rtField w))
      | _ => .nop := by
  subst h
  rfl

/-! ## The rows of the opcode map (R131) -/

theorem decode_add (rs rt rd sh : RegIdx) :
    decode (0#6 ++ rs ++ rt ++ rd ++ sh ++ 0x20#6 : Word) = .instr (.add rd rs rt) :=
  decode_rFormat 0x20#6 .add (fun _ h => decodeRFormat_of_funct h) rs rt rd sh

theorem decode_sub (rs rt rd sh : RegIdx) :
    decode (0#6 ++ rs ++ rt ++ rd ++ sh ++ 0x22#6 : Word) = .instr (.sub rd rs rt) :=
  decode_rFormat 0x22#6 .sub (fun _ h => decodeRFormat_of_funct h) rs rt rd sh

theorem decode_mul (rs rt rd sh : RegIdx) :
    decode (0#6 ++ rs ++ rt ++ rd ++ sh ++ 0x18#6 : Word) = .instr (.mul rd rs rt) :=
  decode_rFormat 0x18#6 .mul (fun _ h => decodeRFormat_of_funct h) rs rt rd sh

theorem decode_div (rs rt rd sh : RegIdx) :
    decode (0#6 ++ rs ++ rt ++ rd ++ sh ++ 0x1A#6 : Word) = .instr (.div rd rs rt) :=
  decode_rFormat 0x1A#6 .div (fun _ h => decodeRFormat_of_funct h) rs rt rd sh

theorem decode_j (target26 : BitVec 26) : decode (0x02#6 ++ target26 : Word) = .instr (.j (target26.setWidth 32)) := by
  obtain ⟨hop, htarget⟩ := jFormat_fields 0x02#6 target26
  refine (decode_of_op hop (by decide)).trans ?_
  exact congrArg (fun t => Decoded.instr (.j t)) htarget

theorem decode_beq (rs rt : RegIdx) (imm16 : BitVec 16) :
    decode (0x04#6 ++ rs ++ rt ++ imm16 : Word) = .instr (.beq rs rt (imm16.signExtend 32)) :=
  decode_iFormat 0x04#6 .beq (fun _ h => decode_of_op h (by decide)) rs rt imm16

theorem decode_bne (rs rt : RegIdx) (imm16 : BitVec 16) :
    decode (0x05#6 ++ rs ++ rt ++ imm16 : Word) = .instr (.bne rs rt (imm16.signExtend 32)) :=
  decode_iFormat 0x05#6 .bne (fun _ h => decode_of_op h (by decide)) rs rt imm16

theorem decode_blt (rs rt : RegIdx) (imm16 : BitVec 16) :
    decode (0x06#6 ++ rs ++ rt ++ imm16 : Word) = .instr (.blt rs rt (imm16.signExtend 32)) :=
  decode_iFormat 0x06#6 .blt (fun _ h => decode_of_op h (by decide)) rs rt imm16

theorem decode_bgt (rs rt : RegIdx) (imm16 : BitVec 16) :
    decode (0x07#6 ++ rs ++ rt ++ imm16 : Word) = .instr (.bgt rs rt (imm16.signExtend 32)) :=
  decode_iFormat 0x07#6 .bgt (fun _ h => decode_of_op h (by decide)) rs rt imm16

theorem decode_addi (rs rt : RegIdx) (imm16 : BitVec 16) :
    decode (0x08#6 ++ rs ++ rt ++ imm16 : Word) = .instr (.addi rt rs (imm16.signExtend 32)) :=
  decode_iFormat 0x08#6 (fun rs rt => .addi rt rs) (fun _ h => decode_of_op h (by decide)) rs rt imm16

theorem decode_addiu (rs rt : RegIdx) (imm16 : BitVec 16) :
    decode (0x09#6 ++ rs ++ rt ++ imm16 : Word) = .instr (.addiu rt rs (imm16.signExtend 32)) :=
  decode_iFormat 0x09#6 (fun rs rt => .addiu rt rs) (fun _ h => decode_of_op h (by decide)) rs rt imm16

theorem decode_slti (rs rt : RegIdx) (imm16 : BitVec 16) :
    decode (0x0A#6 ++ rs ++ rt ++ imm16 : Word) = .instr (.slti rt rs (imm16.signExtend 32)) :=
  decode_iFormat 0x0A#6 (fun rs rt => .slti rt rs) (fun _ h => decode_of_op h (by decide)) rs rt imm16

theorem decode_lui (rs rt : RegIdx) (imm16 : BitVec 16) :
    decode (0x0F#6 ++ rs ++ rt ++ imm16 : Word) = .instr (.lui rt (imm16.signExtend 32)) :=
  decode_iFormat 0x0F#6 (fun _ rt => .lui rt) (fun _ h => decode_of_op h (by decide)) rs rt imm16

theorem decode_li (rs rt : RegIdx) (imm16 : BitVec 16) :
    decode (0x18#6 ++ rs ++ rt ++ imm16 : Word) = .instr (.li rt (imm16.signExtend 32)) :=
  decode_iFormat 0x18#6 (fun _ rt => .li rt) (fun _ h => decode_of_op h (by decide)) rs rt imm16

theorem decode_printReg (rs rt : RegIdx) (imm16 : BitVec 16) :
    decode (0x19#6 ++ rs ++ rt ++ imm16 : Word) = .instr (.printReg rt) :=
  decode_iFormat 0x19#6 (fun _ rt _ => .printReg rt) (fun _ h => decode_of_op h (by decide)) rs rt imm16

theorem decode_printMem (rs rt : RegIdx) (imm16 : BitVec 16) :
    decode (0x1A#6 ++ rs ++ rt ++ imm16 : Word) = .instr (.printMem rs (imm16.signExtend 32)) :=
  decode_iFormat 0x1A#6 (fun rs _ => .printMem rs) (fun _ h => decode_of_op h (by decide)) rs rt imm16

theorem decode_lw (rs rt : RegIdx) (imm16 : BitVec 16) :
    decode (0x23#6 ++ rs ++ rt ++ imm16 : Word) = .instr (.lw rt rs (imm16.signExtend 32)) :=
  decode_iFormat 0x23#6 (fun rs rt => .lw rt rs) (fun _ h => decode_of_op h (by decide)) rs rt imm16

theorem decode_sw (rs rt : RegIdx) (imm16 : BitVec 16) :
    decode (0x2B#6 ++ rs ++ rt ++ imm16 : Word) = .instr (.sw rt rs (imm16.signExtend 32)) :=
  decode_iFormat 0x2B#6 (fun rs rt => .sw rt rs) (fun _ h => decode_of_op h (by decide)) rs rt imm16

theorem decode_sentinel : decode sentinel = .instr .endOfProgram := if_pos rfl

/-- Settles O5: the rows together. -/
theorem everyRowDecodesWithAnyFields : Obligations.EveryRowDecodesWithAnyFields :=
  fun rs rt rd sh imm16 target26 =>
    ⟨decode_add rs rt rd sh, decode_sub rs rt rd sh, decode_mul rs rt rd sh, decode_div rs rt rd sh, decode_j target26,
      decode_beq rs rt imm16, decode_bne rs rt imm16, decode_blt rs rt imm16, decode_bgt rs rt imm16,
      decode_addi rs rt imm16, decode_addiu rs rt imm16, decode_slti rs rt imm16, decode_lui rs rt imm16,
      decode_li rs rt imm16, decode_printReg rs rt imm16, decode_printMem rs rt imm16, decode_lw rs rt imm16,
      decode_sw rs rt imm16, decode_sentinel⟩

/-- Settles O6: the words of the model's own decoder tests among them, each evaluated. -/
theorem wordsOfTheSpecDecode : Obligations.WordsOfTheSpecDecode := by
  unfold Obligations.WordsOfTheSpecDecode
  decide

/-! ## Encoding and decoding again -/

/-- A record's immediate is the extension of the 16 bits its word holds (R125). -/
theorem signExtend_of_immOk {imm : Word} (h : immOk imm = true) : (imm.extractLsb' 0 16).signExtend 32 = imm :=
  eq_of_beq h

/-- Settles O1: the encoding is a word of the instruction's row, and a well-formed immediate or target comes back from the bits of it
the word holds. -/
theorem decodeOfEncode : Obligations.DecodeOfEncode := by
  intro i h
  cases i with
  | add rd rs rt => exact decode_add rs rt rd 0#5
  | sub rd rs rt => exact decode_sub rs rt rd 0#5
  | mul rd rs rt => exact decode_mul rs rt rd 0#5
  | div rd rs rt => exact decode_div rs rt rd 0#5
  | addi rt rs imm => rw [encode, encodeI, decode_addi, signExtend_of_immOk h]
  | addiu rt rs imm => rw [encode, encodeI, decode_addiu, signExtend_of_immOk h]
  | slti rt rs imm => rw [encode, encodeI, decode_slti, signExtend_of_immOk h]
  | lui rt imm => rw [encode, encodeI, decode_lui, signExtend_of_immOk h]
  | li rt imm => rw [encode, encodeI, decode_li, signExtend_of_immOk h]
  | beq rs rt imm => rw [encode, encodeI, decode_beq, signExtend_of_immOk h]
  | bne rs rt imm => rw [encode, encodeI, decode_bne, signExtend_of_immOk h]
  | blt rs rt imm => rw [encode, encodeI, decode_blt, signExtend_of_immOk h]
  | bgt rs rt imm => rw [encode, encodeI, decode_bgt, signExtend_of_immOk h]
  | j target => rw [encode, encodeJ, decode_j, target_eq_setWidth h]
  | lw rt rs imm => rw [encode, encodeI, decode_lw, signExtend_of_immOk h]
  | sw rt rs imm => rw [encode, encodeI, decode_sw, signExtend_of_immOk h]
  | printReg rt => exact decode_printReg 0#5 rt _
  | printMem rs imm => rw [encode, encodeI, decode_printMem, signExtend_of_immOk h]
  | endOfProgram => exact decode_sentinel

/-- Settles O3: END has no operands, and every other record of the decoder may be in flight. -/
theorem decodedRecordsAreWellFormed : Obligations.DecodedRecordsAreWellFormed := by
  intro w i hi
  by_cases hw : w = sentinel
  · subst hw
    cases decode_sentinel.symm.trans hi
    rfl
  · have hfly := Machine.inFlight_decode hw
    rw [hi, Machine.inFlight] at hfly
    exact (Bool.and_eq_true_iff.mp hfly).1

/-- Settles O2: a decoded record is well formed, so its encoding decodes to it; an ADD with a `shamt` is re-encoded without it. -/
theorem reencodedRecordDecodesAlike : Obligations.ReencodedRecordDecodesAlike :=
  ⟨fun w i hi => decodeOfEncode i (decodedRecordsAreWellFormed w i hi), 0x012A4060#32, .add 8#5 9#5 10#5, by decide⟩

/-! ## The words outside the opcode map (R132) -/

theorem decodeRFormat_eq_nop_iff (w : Word) :
    decodeRFormat w = .nop ↔ functField w ∉ [0x20#6, 0x22#6, 0x18#6, 0x1A#6] := by
  unfold decodeRFormat
  simp only [← BitVec.toNat_inj, List.mem_cons]
  split
  case h_5 => simp_all
  all_goals next hfunct => simp [hfunct]

/-- A word but the sentinel is NOP in the R format by its function field, in the others by its opcode. -/
theorem decode_eq_nop_iff {w : Word} (hw : w ≠ sentinel) :
    decode w = .nop ↔ (opField w = 0x00#6 ∧ functField w ∉ [0x20#6, 0x22#6, 0x18#6, 0x1A#6]) ∨
      opField w ∉ [0x00#6, 0x02#6, 0x04#6, 0x05#6, 0x06#6, 0x07#6, 0x08#6, 0x09#6, 0x0A#6, 0x0F#6, 0x18#6, 0x19#6, 0x1A#6,
        0x23#6, 0x2B#6] := by
  unfold decode
  rw [if_neg hw, ← decodeRFormat_eq_nop_iff]
  simp only [← BitVec.toNat_inj, List.mem_cons]
  split
  case h_16 => simp_all
  all_goals next hop => simp [hop]

/-- Settles O4: the sentinel decodes to END, and every other word goes by its opcode and its function field. -/
theorem unassignedWordsAreNop : Obligations.UnassignedWordsAreNop := by
  intro w
  by_cases hw : w = sentinel
  · subst hw
    rw [decode_sentinel]
    exact ⟨nofun, fun h => absurd rfl h.1⟩
  · rw [decode_eq_nop_iff hw]
    exact (and_iff_right hw).symm

end Sys2Proof

/-! The pipeline sequencer (R160 to R178): what each part of a cycle does in a running turn, and one whole cycle of an otherwise
empty pipeline. -/

namespace Sys2Proof.Machine

/-- With no event due a running turn performs its next part of a cycle. -/
theorem step_of_running {s : State} (ha : s.agenda = []) (ho : s.turn.outcome = none) : step s = runStage s :=
  (step_of_agenda_nil ha).trans (coreStep_of_running ho)

/-- Settles O38: a move of a running turn that does not end it goes on with the part that follows. -/
theorem stagesRunInOrder : Obligations.StagesRunInOrder := by
  intro s t ha ho h ht
  rcases step_cases ha h with ⟨-, hm⟩ | ⟨hn, -⟩ | ⟨hn, -⟩
  · rcases hm.turn with ⟨o, hend, -⟩ | hg
    · rw [hend] at ht; cases ht
    · exact hg.stage
  · exact absurd ho hn
  · exact absurd ho hn

/-! ## WB and MEM -/

/-- WB of a record changes at most the register file (R164). -/
theorem wb_changes_regs_only (d : Decoded) (slot : MwSlot) (s : State) :
    ∃ regs, (actionsOfDecoded d).wb slot s = { s with pcb := { s.pcb with regs := regs } } := by
  cases d with
  | nop => exact ⟨_, rfl⟩
  | instr i =>
    cases i
    case lw rt rs imm =>
      show ∃ regs, commitLoad rt slot s = _
      unfold commitLoad
      split <;> exact ⟨_, rfl⟩
    all_goals exact ⟨_, rfl⟩

/-- Settles O23: WB is the record's action on the register file, then the slot's retirement. -/
theorem writeBackRetiresEverySlot : Obligations.WriteBackRetiresEverySlot := by
  intro d s slot hs hd
  obtain ⟨regs, hwb⟩ := wb_changes_regs_only d slot s
  refine ⟨retire ((actionsOfDecoded d).wb slot s), ?_, fun r => ?_, ?_⟩
  · rw [execDecoded_eq_perform d (by simp [hs]), perform_wb _ _ hs, hd]
  · cases d with
    | nop => rfl
    | instr i =>
      cases i
      case lw rt rs imm =>
        show (commitLoad rt slot s).reg r = _
        cases hv : slot.ldata with
        | none => rw [commitLoad, hv]
        | some v =>
          rw [commitLoad, hv]
          exact State.reg_setReg s rt r v
      all_goals rfl
  · rw [hwb]
    exact ⟨⟨rfl, rfl, rfl, rfl, rfl, rfl, rfl, rfl, rfl, rfl, rfl, rfl, rfl, rfl⟩, ⟨rfl, rfl, rfl, rfl, rfl⟩,
      fun _ => rfl, rfl, rfl, rfl, rfl, rfl, rfl, rfl, rfl⟩

/-- MEM of an instruction that accesses no memory does nothing (R165). -/
theorem mem_of_not_accessesMemory {i : Instr} (h : accessesMemory i = false) (slot : EmSlot) (s : State) :
    (actionsOf i).mem slot s = .done none s := by
  cases i
  case lw => cases h
  case sw => cases h
  case printMem => cases h
  all_goals rfl

/-- The second half of MEM of any instruction but PRINT_MEM does nothing (R165, log 1). -/
theorem memEmit_of_ne_printMem {i : Instr} (h : ∀ rs imm, i ≠ .printMem rs imm) (slot : MwSlot) (s : State) :
    (actionsOf i).memEmit slot s = s := by
  cases i
  case printMem rs imm => exact absurd rfl (h rs imm)
  all_goals rfl

/-- Settles O24. -/
theorem othersDoNothingInMem : Obligations.OthersDoNothingInMem := by
  refine ⟨fun i s slot hi hs hd => ?_, fun i s slot hi hs hd => ?_⟩
  · have hexec : exec i s = .next (endMem slot (.instr i) (.done none s)) := by
      rw [exec_eq_perform i (by simp [hs]), perform_mem _ _ hs, hd]
      simp only [mem_of_not_accessesMemory hi]
    exact ⟨_, hexec, ⟨fun _ => rfl, ⟨rfl, rfl, rfl, rfl, rfl, rfl, rfl, rfl, rfl, rfl, rfl, rfl, rfl, rfl⟩,
      ⟨rfl, rfl, rfl, rfl, rfl⟩, fun _ => rfl, rfl, rfl, rfl, rfl⟩, rfl, rfl, rfl, rfl⟩
  · rw [exec_eq_perform i (by simp [hs]), perform_memEmit _ _ hs, hd]
    simp only [memEmit_of_ne_printMem hi]
    rfl

/-! ## ID -/

theorem decodeStage_of_word {s : State} {slot : FdSlot} (hd : s.pcb.fd = some slot) :
    decodeStage s =
      (s.onPcb (fun p => { p with fd := none, de := some { ipc := slot.ipc, d := decode slot.word } })).toStage .fetch := by
  rw [decodeStage, hd]

theorem decodeStage_of_empty {s : State} (hd : s.pcb.fd = none) : decodeStage s = s.toStage .fetch := by
  rw [decodeStage, hd]

/-- Settles O33. -/
theorem decodeStageFillsDE : Obligations.DecodeStageFillsDE := by
  intro s ha ho hs
  rw [step_of_running ha ho, runStage_id hs]
  exact ⟨fun slot hd => congrArg _ (decodeStage_of_word hd), fun hd => congrArg _ (decodeStage_of_empty hd)⟩

/-! ## Fetch -/

/-- Only the sentinel decodes to END (R131, R168). -/
theorem eq_sentinel_of_decode_end {w : Word} (h : decode w = .instr .endOfProgram) : w = sentinel := by
  by_contra hw
  have hfly := inFlight_decode hw
  rw [h] at hfly
  cases hfly

/-- While draining Fetch reads nothing (R168). -/
theorem fetchStage_of_draining {s : State} (hd : s.pcb.draining = true) : fetchStage s = .next (s.toStage .check) := by
  rw [fetchStage, if_pos hd]

section fetch

variable {s : State} (hd : s.pcb.draining = false)

include hd

/-- Out of range Fetch raises with only `mar` written (R168, R333). -/
theorem fetchStage_out_of_range (hw : s.wordAt (s.phys s.pcb.pc) = none) :
    fetchStage s = .next (s.fetching.raise (.memoryOutOfRange (s.phys s.pcb.pc))) := by
  have hr : s.fetching.memRead (s.phys s.pcb.pc) = none := (State.memRead_eq_none_iff _ _).mpr hw
  simp only [fetchStage, hd, hr, Bool.false_eq_true, if_false]

/-- The sentinel goes to END's meaning (R168). -/
theorem fetchStage_sentinel {u : State} (hr : s.fetching.memRead (s.phys s.pcb.pc) = some (sentinel, u)) :
    fetchStage s = exec .endOfProgram (u.onPcb (fun p => { p with ir := sentinel })) := by
  simp only [fetchStage, hd, hr, Bool.false_eq_true, if_false, if_true]

/-- Any other word enters `FD`, and `pc` advances by 4 (R168). -/
theorem fetchStage_word {w : Word} {u : State} (hr : s.fetching.memRead (s.phys s.pcb.pc) = some (w, u)) (hw : w ≠ sentinel) :
    fetchStage s = .next (((u.onPcb (fun p => { p with ir := w })).onPcb
      (fun p => { p with fd := some { word := w, ipc := p.pc }, pc := p.pc + 4#32 })).toStage .check) := by
  simp only [fetchStage, hd, hr, Bool.false_eq_true, if_false, hw]

end fetch

/-- What the MemRead of a Fetch leaves: everything but `mar`, the hierarchy and the counters as it was, no word changed, one read
counted (R80, R168). -/
theorem fetching_memRead {s u : State} {a w : Word} (hi : s.HierInv) (hr : s.fetching.memRead a = some (w, u)) :
    ∃ g k, u = s.fetching.accessed g k ∧ sameMemory s (s.fetching.accessed g k) ∧
      k.memReads = s.pcb.counters.memReads + 1 ∧ readsBy a w s (s.fetching.accessed g k) := by
  obtain ⟨g, k, rfl⟩ := onlyAccessed_exists (State.memRead_frame hr)
  exact ⟨g, k, rfl, (State.memRead_hier (s := s.fetching) hi hr).2.1, (State.memRead_counts hr).1,
    State.memRead_congr hr rfl rfl rfl rfl rfl rfl⟩

/-- Settles O34: after its MemRead Fetch goes by the word read, the sentinel apart from the others. -/
theorem fetchReadsTheNextWord : Obligations.FetchReadsTheNextWord := by
  intro s hi ha ho hs
  rw [step_of_running ha ho, runStage_fetch hs]
  refine ⟨fun hd => fetchStage_of_draining hd, fun w hd hw => ?_, fun hd hw => ?_⟩
  · obtain ⟨u, hr⟩ := State.memRead_of_wordAt (s := s.fetching) hw
    obtain ⟨g, k, rfl, hmem, hcount, hreads⟩ := fetching_memRead hi hr
    by_cases hsent : w = sentinel
    · subst hsent
      refine ⟨_, (fetchStage_sentinel hd hr).trans (exec_end_fetch hs), rfl, rfl, ?_, rfl, rfl, rfl, fun _ => rfl,
        ⟨rfl, rfl, rfl, rfl, rfl, rfl, rfl, rfl, rfl, rfl, rfl, rfl, rfl, rfl⟩, hmem, rfl, rfl, hcount, hreads, rfl⟩
      exact ⟨rfl, rfl, rfl⟩
    · refine ⟨_, fetchStage_word hd hr hsent, rfl, rfl, ?_, rfl, rfl, rfl, fun _ => rfl,
        ⟨rfl, rfl, rfl, rfl, rfl, rfl, rfl, rfl, rfl, rfl, rfl, rfl, rfl, rfl⟩, hmem, rfl, rfl, hcount, hreads, rfl⟩
      rw [if_neg (show w ≠ 0xFFFFFFFF#32 from hsent)]
      exact ⟨hd, rfl, rfl⟩
  · exact ⟨_, fetchStage_out_of_range hd hw,
      ⟨rfl, rfl, rfl, rfl, fun _ => rfl, fun _ => rfl, rfl, rfl, rfl, rfl, rfl, rfl, rfl, rfl⟩, rfl, rfl, rfl, rfl, rfl, rfl, rfl, rfl⟩

/-! ## The record in a stage's latch -/

/-- The record in a stage's latch performs that stage (R162). -/
theorem step_performs_record {s : State} (ha : s.agenda = []) (ho : s.turn.outcome = none) (d : Decoded) :
    (s.turn.stage = .ex → ∀ slot, s.pcb.de = some slot → slot.d = d → step s = execDecoded d s) ∧
    (s.turn.stage = .mem → ∀ slot, s.pcb.em = some slot → slot.d = d → step s = execDecoded d s) ∧
    (s.turn.stage = .memEmit → ∀ slot, s.pcb.mw = some slot → slot.d = d → step s = execDecoded d s) ∧
    (s.turn.stage = .wb → ∀ slot, s.pcb.mw = some slot → slot.d = d → step s = execDecoded d s) := by
  rw [step_of_running ha ho]
  refine ⟨?_, ?_, ?_, ?_⟩ <;> rintro hs slot hd rfl
  · rw [runStage_ex hs, hd]
  · rw [runStage_mem hs, hd]
  · rw [runStage_memEmit hs, hd]
  · rw [runStage_wb hs, hd]

/-- Settles O32: the record in a latch performs its stage, and the one word that decodes to END is the sentinel, which Fetch hands
to END's meaning. -/
theorem stepRunsTheInstructionInItsStage : Obligations.StepRunsTheInstructionInItsStage := by
  refine ⟨fun s i ha ho => step_performs_record ha ho (.instr i), fun s ha ho => step_performs_record ha ho .nop,
    fun s w ha ho hs hd hw hend => ?_⟩
  obtain rfl := eq_sentinel_of_decode_end hend
  obtain ⟨u, hr⟩ := State.memRead_of_wordAt (s := s.fetching) hw
  refine ⟨u, hr, ?_⟩
  rw [step_of_running ha ho, runStage_fetch hs]
  exact fetchStage_sentinel hd hr

/-! ## The start and the end of a cycle -/

theorem State.drained_iff (s : State) :
    s.drained = true ↔
      s.pcb.draining = true ∧ s.pcb.fd = none ∧ s.pcb.de = none ∧ s.pcb.em = none ∧ s.pcb.mw = none := by
  simp only [State.drained, Pcb.pipelineEmpty, Bool.and_eq_true, Option.isNone_iff_eq_none, and_assoc]

/-- A process with a fetched word has not drained (R170). -/
theorem State.drained_of_fd {s : State} {slot : FdSlot} (h : s.pcb.fd = some slot) : s.drained = false := by
  rw [← Bool.not_eq_true, State.drained_iff, h]
  rintro ⟨-, hfd, -⟩
  cases hfd

theorem beginCycle_of_drained {s : State} (h : s.drained = true) : beginCycle s = s.endTurn .finished .finished := by
  rw [beginCycle, if_pos h]

/-- The state with the cycle counted, WB next (R177, R341). -/
abbrev State.counted (s : State) : State :=
  { s with
    pcb := { s.pcb with counters := { s.pcb.counters with pipelineCycles := s.pcb.counters.pipelineCycles + 1 } }
    turn := { s.turn with cycles := s.turn.cycles + 1, stage := .wb } }

theorem beginCycle_of_not_drained {s : State} (h : s.drained = false) : beginCycle s = s.counted := by
  simp only [beginCycle, h, Bool.false_eq_true, if_false]

/-- Settles O36. -/
theorem cycleStartCountsOrFinishes : Obligations.CycleStartCountsOrFinishes := by
  intro s ha ho hs
  rw [step_of_running ha ho, runStage_start hs]
  exact ⟨fun hd => congrArg _ (beginCycle_of_drained hd), fun hd => congrArg _ (beginCycle_of_not_drained hd)⟩

theorem endCycle_of_blocked {s : State} (hb : s.turn.blockPending = true) : endCycle s = s.endTurn .blocked .blocked := by
  rw [endCycle, if_pos hb]

section endCycle

variable {s : State} (hb : ¬ s.turn.blockPending = true)

include hb

theorem endCycle_of_expired (hq : s.pcb.quantum ≤ s.turn.cycles) : endCycle s = s.endTurn .quantumExpired .running := by
  rw [endCycle, if_neg hb, if_pos hq]

theorem endCycle_of_drained (hq : ¬ s.pcb.quantum ≤ s.turn.cycles) (hd : s.drained = true) :
    endCycle s = s.endTurn .finished .finished := by
  rw [endCycle, if_neg hb, if_neg hq, if_pos hd]

theorem endCycle_goes_on (hq : ¬ s.pcb.quantum ≤ s.turn.cycles) (hd : ¬ s.drained = true) :
    endCycle s = s.toStage .start := by
  rw [endCycle, if_neg hb, if_neg hq, if_neg hd]

end endCycle

/-- Settles O37: the tests one after another. -/
theorem endOfCycleTests : Obligations.EndOfCycleTests := by
  intro s ha ho hs
  rw [step_of_running ha ho, runStage_check hs]
  split
  · next hb => exact congrArg _ (endCycle_of_blocked hb)
  · next hb =>
    split
    · next hq => exact congrArg _ (endCycle_of_expired hb hq)
    · next hq =>
      split
      · next hd => exact congrArg _ (endCycle_of_drained hb hq (s.drained_iff.mpr hd))
      · next hd => exact congrArg _ (endCycle_goes_on hb hq (mt s.drained_iff.mp hd))

/-! ## A cycle with one fetched word -/

section emptyLatch

variable {s : State} (ha : s.agenda = []) (ho : s.turn.outcome = none)

include ha ho

theorem step_wb_of_empty (hs : s.turn.stage = .wb) (hd : s.pcb.mw = none) : step s = .next (s.toStage .mem) := by
  rw [step_of_running ha ho, runStage_wb hs, hd]

theorem step_mem_of_empty (hs : s.turn.stage = .mem) (hd : s.pcb.em = none) : step s = .next (s.toStage .memEmit) := by
  rw [step_of_running ha ho, runStage_mem hs, hd]

theorem step_memEmit_of_empty (hs : s.turn.stage = .memEmit) (hd : s.pcb.mw = none) : step s = .next (s.toStage .ex) := by
  rw [step_of_running ha ho, runStage_memEmit hs, hd]

theorem step_ex_of_empty (hs : s.turn.stage = .ex) (hd : s.pcb.de = none) : step s = .next (s.toStage .id) := by
  rw [step_of_running ha ho, runStage_ex hs, hd]

/-- With the latches behind `FD` empty a cycle goes from WB to ID with nothing done (R162). -/
theorem run_empty_stages (k : Nat) (hs : s.turn.stage = .wb) (hde : s.pcb.de = none) (hem : s.pcb.em = none)
    (hmw : s.pcb.mw = none) :
    Host.Core.run Sys2Proof.core (k + 4) s = Host.Core.run Sys2Proof.core k (s.toStage .id) :=
  calc Host.Core.run Sys2Proof.core (k + 4) s
    _ = Host.Core.run Sys2Proof.core (k + 3) (s.toStage .mem) := run_succ _ (step_wb_of_empty ha ho hs hmw)
    _ = Host.Core.run Sys2Proof.core (k + 2) (s.toStage .memEmit) :=
      run_succ _ (step_mem_of_empty (s := s.toStage .mem) ha ho rfl hem)
    _ = Host.Core.run Sys2Proof.core (k + 1) (s.toStage .ex) :=
      run_succ _ (step_memEmit_of_empty (s := s.toStage .memEmit) ha ho rfl hmw)
    _ = Host.Core.run Sys2Proof.core k (s.toStage .id) :=
      run_succ _ (step_ex_of_empty (s := s.toStage .ex) ha ho rfl hde)

end emptyLatch

/-- From the end-of-cycle tests, if they end nothing, to the end of the next ID: the cycle is counted and the word in `FD`, alone
in the pipeline, is decoded into `DE` (R162, R167, R177). -/
theorem run_decodes_next_cycle {s : State} {slot : FdSlot} (ha : s.agenda = []) (ho : s.turn.outcome = none)
    (hs : s.turn.stage = .check) (hb : s.turn.blockPending = false) (hq : s.turn.cycles < s.pcb.quantum)
    (hfd : s.pcb.fd = some slot) (hde : s.pcb.de = none) (hem : s.pcb.em = none) (hmw : s.pcb.mw = none) :
    Host.Core.run Sys2Proof.core 7 s = .next { s with
      pcb := { s.pcb with
        fd := none
        de := some { ipc := slot.ipc, d := decode slot.word }
        counters := { s.pcb.counters with pipelineCycles := s.pcb.counters.pipelineCycles + 1 } }
      turn := { s.turn with stage := .fetch, cycles := s.turn.cycles + 1 } } := by
  have hd : s.drained = false := State.drained_of_fd hfd
  have hcheck : step s = .next (s.toStage .start) := by
    rw [step_of_running ha ho, runStage_check hs, endCycle_goes_on (by simp [hb]) (by omega) (by simp [hd])]
  have hstart : step (s.toStage .start) = .next (s.toStage .start).counted :=
    (step_of_running (s := s.toStage .start) ha ho).trans
      ((runStage_start rfl).trans (congrArg _ (beginCycle_of_not_drained hd)))
  have hid : step ((s.toStage .start).counted.toStage .id) = .next (decodeStage ((s.toStage .start).counted.toStage .id)) :=
    (step_of_running (s := (s.toStage .start).counted.toStage .id) ha ho).trans (runStage_id rfl)
  calc Host.Core.run Sys2Proof.core 7 s
    _ = Host.Core.run Sys2Proof.core 6 (s.toStage .start) := run_succ _ hcheck
    _ = Host.Core.run Sys2Proof.core 5 (s.toStage .start).counted := run_succ _ hstart
    _ = Host.Core.run Sys2Proof.core 1 ((s.toStage .start).counted.toStage .id) :=
      run_empty_stages (s := (s.toStage .start).counted) ha ho 1 rfl hde hem hmw
    _ = .next (decodeStage ((s.toStage .start).counted.toStage .id)) := run_succ 0 hid
    _ = _ := congrArg _ (decodeStage_of_word hfd)

/-- Settles O35: Fetch puts the word into `FD`, and the next cycle, with nothing else in the pipeline, decodes it. -/
theorem fetchedWordIsDecodedNextCycle : Obligations.FetchedWordIsDecodedNextCycle := by
  intro s w hi ha ho hs hb hq hdrain hfd hde hem hmw hw hn
  obtain ⟨-, hfetch, -⟩ := fetchReadsTheNextWord s hi ha ho hs
  obtain ⟨t, hstep, -, -, hword, hde', hem', hmw', hreg, hout, hmem, hqueue, hb', -, ⟨u, hr, -, hk⟩, hs'⟩ :=
    hfetch w hdrain hw
  rw [if_neg hn] at hword
  obtain ⟨-, hpc, hfd'⟩ := hword
  obtain ⟨-, -, -, -, hagenda, hcycles, houtcome, -, -, hquantum, -⟩ := hout
  have hrun := run_decodes_next_cycle (hagenda.trans ha) (houtcome.trans ho) hs' (hb'.trans hb) (by omega) hfd'
    (hde'.trans hde) (hem'.trans hem) (hmw'.trans hmw)
  have hcount : t.pcb.counters.pipelineCycles = s.pcb.counters.pipelineCycles := by
    rw [hk, (State.memRead_sequencer_counters hr).1]
  refine ⟨_, (run_succ 7 hstep).trans hrun, rfl, houtcome.trans ho, rfl, rfl, hem'.trans hem, hmw'.trans hmw, hpc, hreg, hmem,
    hqueue, ?_, ?_⟩
  · exact congrArg (· + 1) hcount
  · exact congrArg (· + 1) hcycles

end Sys2Proof.Machine

/-! The turn interface and the I/O manager (R175, R179, R312, R331, R338, R349 to R352): PCBs handed out, taken back and
unblocked, and the requests taken from the queue. -/

namespace Sys2Proof.Machine

/-! ## A core whose turn is over -/

/-- A core that still owns a Faulted process is the fault recorded (R331, log 2). -/
theorem coreStep_of_faulted {s : State} {o : TurnOutcome} {f : Fault} (ho : s.turn.outcome = some o) (hi : o ≠ .idle)
    (hf : s.pcb.status = .faulted f) : coreStep s = .fault f := by
  unfold coreStep
  rw [ho]
  cases o
  case idle => exact absurd rfl hi
  all_goals simp only [hf]

/-- A core between turns whose process is Finished or Blocked does nothing (R179, R180, log 9). -/
theorem coreStep_of_waiting {s : State} {o : TurnOutcome} (ho : s.turn.outcome = some o)
    (hw : s.pcb.status = .finished ∨ s.pcb.status = .blocked) : coreStep s = .next s := by
  unfold coreStep
  rw [ho]
  cases o
  case idle => rfl
  all_goals rcases hw with hw | hw <;> simp only [hw]

/-! ## PCBs handed out and taken back -/

section handPcb

variable {s : State} {o : TurnOutcome} {k : Nat} {p : Pcb} {rest : List Event} (ha : s.agenda = .handPcb k :: rest)
  (ho : s.turn.outcome = some o) (hp : s.parked[k]? = some p)

include ha ho hp

/-- A PCB that is not Ready is not handed out (R352, log 10). -/
theorem step_of_agenda_handPcb_refused (hr : p.status ≠ .ready) : step s = .refused (.pcbNotReady p.pid) := by
  rw [step_of_agenda_cons ha, performEvent]
  simp only [handPcb, ho, hp, hr, if_false]

/-- A Ready PCB starts a turn (R175, R351). -/
theorem step_of_agenda_handPcb (hr : p.status = .ready) :
    step s = .next { s with pcb := p, parked := s.parkedAfterHand k, agenda := rest }.startTurn := by
  rw [step_of_agenda_cons ha, performEvent]
  simp only [handPcb, ho, hp, hr, if_true]
  rfl

end handPcb

/-- Settles O39: the core waits or faults, and the hand-out is refused. -/
theorem onlyReadyProcessesRun : Obligations.OnlyReadyProcessesRun := by
  refine ⟨fun s f o ha ho hi hf => ?_, fun s o ha ho hw => ?_,
    fun s k p o rest ha ho hp hr => step_of_agenda_handPcb_refused ha ho hp hr⟩
  · rw [step_of_agenda_nil ha, coreStep_of_faulted ho hi hf]
  · rw [step_of_agenda_nil ha, coreStep_of_waiting ho hw]

/-- The PCB of an ended turn is routed back and the core owns none (R175, R349). -/
theorem step_of_agenda_takePcb {s : State} {o : TurnOutcome} {rest : List Event} (ha : s.agenda = .takePcb :: rest)
    (ho : s.turn.outcome = some o) (hi : o ≠ .idle) :
    step s = .next { s with
      pcb := Pcb.absent, turn := Turn.idle, parked := s.parked ++ [s.pcb.givenBack], agenda := rest } := by
  rw [step_of_agenda_cons ha, performEvent]
  cases o
  case idle => exact absurd rfl hi
  all_goals simp only [takePcb, ho]

/-- What is parked when a PCB is handed out: the one the core held, in its place, or none where it held none (log 9). -/
theorem State.parkedAfterHand_eq {s : State} {o : TurnOutcome} (ho : s.turn.outcome = some o) (k : Nat) :
    s.parkedAfterHand k = if o = .idle then s.parked.eraseIdx k else s.parked.set k s.pcb.givenBack := by
  simp only [State.parkedAfterHand, ho, Option.some.injEq]

/-- A PCB whose quantum expired, or which is Ready, is given back as Ready (R53, R178). -/
theorem Pcb.givenBack_of_runnable {p : Pcb} (h : p.status = .running ∨ p.status = .ready) :
    p.givenBack = { p with status := .ready } := by
  rw [Pcb.givenBack_eq]
  split
  · rfl
  · next hn => rw [← h.resolve_left hn]

/-- The PCB parked last, Ready, is handed to a core that owns none (R351). -/
theorem step_of_agenda_handPcb_last {s : State} {l : List Pcb} {p : Pcb} {rest : List Event}
    (ha : s.agenda = .handPcb l.length :: rest) (ho : s.turn.outcome = some .idle) (hp : s.parked = l ++ [p])
    (hr : p.status = .ready) :
    step s = .next { s with pcb := { p with status := .running }, turn := Turn.fresh, parked := l, agenda := rest } := by
  have hl : s.parkedAfterHand l.length = l := by
    rw [State.parkedAfterHand_eq ho, if_pos rfl, hp, List.eraseIdx_append_of_length_le (Nat.le_refl _), Nat.sub_self]
    exact List.append_nil l
  rw [step_of_agenda_handPcb ha ho (by rw [hp, List.getElem?_concat_length]) hr, hl]
  rfl

/-- Settles O45: the PCB taken back, Ready and parked last, is the one the other core is handed. -/
theorem handedPcbStartsItsTurn : Obligations.HandedPcbStartsItsTurn := by
  refine ⟨fun s k p o rest ha ho hp hr => ?_, fun s o rest ha ho hi => ?_, fun s k c o rest ha ho hi hr hc hidle => ?_⟩
  · rw [step_of_agenda_handPcb ha ho hp hr, State.parkedAfterHand_eq ho, Pcb.givenBack_eq]
    rfl
  · rw [step_of_agenda_takePcb ha ho hi, Pcb.givenBack_eq]
  · have htake := step_of_agenda_takePcb ha ho hi
    rw [Pcb.givenBack_of_runnable hr] at htake
    refine (run_succ 2 htake).trans ((run_succ 1 (step_of_agenda_switchCore rfl ?_)).trans
      (run_succ 0 (step_of_agenda_handPcb_last (p := { s.pcb with status := .ready }) rfl ?_ rfl rfl)))
    · exact hc
    · exact hidle

/-! ## The I/O manager -/

/-- A request the queue holds is removed (R312). -/
theorem step_of_agenda_takeRequest {s : State} {k : Nat} {rest : List Event} (ha : s.agenda = .takeRequest k :: rest)
    (hk : k < s.queue.length) : step s = .next { s with queue := s.queue.eraseIdx k, agenda := rest } := by
  rw [step_of_agenda_cons ha]
  exact if_pos hk

/-- Settles O48. -/
theorem ioManagerTakesRequestsAndUnblocks : Obligations.IoManagerTakesRequestsAndUnblocks := by
  refine ⟨fun s k q rest ha hq => ?_, fun s pid rest ha => ?_⟩
  · have hk : k < s.queue.length := (List.getElem?_eq_some_iff.mp hq).1
    exact ⟨_, step_of_agenda_takeRequest ha hk, rfl, List.length_eraseIdx_add_one hk, fun j => List.getElem?_eraseIdx⟩
  · exact ⟨_, Pcb.unblock pid, step_of_agenda_cons ha, fun _ => rfl, rfl⟩

end Sys2Proof.Machine

/-! The integer ALU (R210 to R217): ADD, SUB and MUL as the word operations, DIV as the quotient rounded toward zero, and the
laws. -/

namespace Sys2Proof.Machine

/-! ## Narrowing -/

@[simp] theorem wrap_toInt (a : Word) : wrap a.toInt = a := BitVec.ofInt_toInt

@[simp] theorem wrap_neg (m : Int) : wrap (-m) = -wrap m := BitVec.ofInt_neg

@[simp] theorem wrap_add (m n : Int) : wrap (m + n) = wrap m + wrap n := BitVec.ofInt_add m n

@[simp] theorem wrap_mul (m n : Int) : wrap (m * n) = wrap m * wrap n := BitVec.ofInt_mul m n

@[simp] theorem wrap_sub (m n : Int) : wrap (m - n) = wrap m - wrap n := by
  rw [Int.sub_eq_add_neg, wrap_add, wrap_neg, BitVec.sub_eq_add_neg]

/-- The narrowed quotient is the signed division of words, the wrapping pair of R214 included. -/
theorem wrap_tdiv_toInt (a b : Word) : wrap (a.toInt.tdiv b.toInt) = a.sdiv b :=
  BitVec.eq_of_toInt_eq (by rw [wrap, BitVec.toInt_ofInt, BitVec.toInt_sdiv])

/-! ## ADD, SUB and MUL -/

@[simp] theorem alu_add (a b : Word) : alu .add a b = .ok (a + b) := by simp only [alu, wrap_add, wrap_toInt]

@[simp] theorem alu_sub (a b : Word) : alu .sub a b = .ok (a - b) := by simp only [alu, wrap_sub, wrap_toInt]

@[simp] theorem alu_mul (a b : Word) : alu .mul a b = .ok (a * b) := by simp only [alu, wrap_mul, wrap_toInt]

/-- Settles O9: narrowing carries sums, differences and products of integers to those of words. -/
theorem arithmeticWrapsModulo : Obligations.ArithmeticWrapsModulo :=
  fun a b => ⟨alu_add a b, alu_sub a b, alu_mul a b⟩

/-! ## DIV -/

@[simp] theorem alu_div_zero (a : Word) : alu .div a 0#32 = .error (.divideByZero a) := rfl

/-- R214: with a divisor that is not zero DIV is the signed division of words; the case of its own that the wrapping pair has
agrees with it. -/
theorem alu_div_of_ne_zero (a : Word) {b : Word} (hb : b ≠ 0#32) : alu .div a b = .ok (a.sdiv b) := by
  have hb0 : b.toInt ≠ 0 := BitVec.toInt_ne.mpr hb
  rw [alu, aluDiv, if_neg hb0]
  split
  · next hwrap =>
    obtain rfl : a = 0x80000000#32 := BitVec.eq_of_toInt_eq hwrap.1
    obtain rfl : b = 0xFFFFFFFF#32 := BitVec.eq_of_toInt_eq hwrap.2
    rfl
  · rw [wrap_tdiv_toInt]

/-- Off the wrapping pair the exact quotient fits the word (R214). -/
theorem sdiv_toInt {a b : Word} (h : ¬ (a = 0x80000000#32 ∧ b = 0xFFFFFFFF#32)) :
    (a.sdiv b).toInt = a.toInt.tdiv b.toInt :=
  BitVec.toInt_sdiv_of_ne_or_ne a b (not_and_or.mp h)

/-- Settles O7. -/
theorem divisionIsTruncatedQuotient : Obligations.DivisionIsTruncatedQuotient := by
  refine fun a b => ⟨?_, ?_, fun hb hwrap => ⟨a.sdiv b, alu_div_of_ne_zero a hb, sdiv_toInt hwrap⟩⟩
  · rintro rfl
    exact alu_div_zero a
  · rintro rfl rfl
    exact alu_div_of_ne_zero _ (by decide)

/-- Rounding toward zero: multiplied back, a quotient does not pass the dividend. -/
theorem natAbs_tdiv_mul_le (m n : Int) : (m.tdiv n * n).natAbs ≤ m.natAbs := by
  rw [Int.natAbs_mul, Int.natAbs_tdiv]
  exact Nat.div_mul_le_self _ _

theorem tdiv_eq_zero_or_sign_eq (m n : Int) : m.tdiv n = 0 ∨ (m.tdiv n).sign = (m * n).sign := by
  by_cases hlt : m.natAbs < n.natAbs
  · exact .inl (Int.sign_eq_zero_iff_zero.mp (by rw [Int.sign_tdiv, if_pos hlt]))
  · exact .inr (by rw [Int.sign_tdiv, if_neg hlt, Int.sign_mul])

/-- R217: the bound on a quotient and its sign. -/
theorem alu_div_bound_and_sign {a b q : Word} (hb : b ≠ 0#32) (hwrap : ¬ (a = 0x80000000#32 ∧ b = 0xFFFFFFFF#32))
    (hq : alu .div a b = .ok q) :
    (q.toInt * b.toInt).natAbs ≤ a.toInt.natAbs ∧ (q = 0#32 ∨ q.toInt.sign = (a.toInt * b.toInt).sign) := by
  obtain rfl : a.sdiv b = q := Except.ok.inj ((alu_div_of_ne_zero a hb).symm.trans hq)
  have hzero : a.sdiv b = 0#32 ↔ a.toInt.tdiv b.toInt = 0 := by
    rw [← sdiv_toInt hwrap]
    exact BitVec.toInt_inj.symm
  rw [hzero, sdiv_toInt hwrap]
  exact ⟨natAbs_tdiv_mul_le _ _, tdiv_eq_zero_or_sign_eq _ _⟩

/-! ## Comparisons -/

theorem cmpEq_eq_one_sub_cmpNe (a b : Word) : cmpEq a b = 1#32 - cmpNe a b := by
  rw [cmpEq, cmpNe, bne]
  cases a == b <;> rfl

/-- R216: the comparison predicates when the first operand is the smaller. -/
theorem cmp_of_lt {a b : Word} (h : a.toInt < b.toInt) : cmpLt a b = 1#32 ∧ cmpEq a b = 0#32 ∧ cmpGt a b = 0#32 := by
  have hne : a ≠ b := fun hab => h.ne (congrArg BitVec.toInt hab)
  simp [cmpLt, cmpEq, cmpGt, predicate, h, hne, h.le]

theorem cmp_self (a : Word) : cmpLt a a = 0#32 ∧ cmpEq a a = 1#32 ∧ cmpGt a a = 0#32 := by
  simp [cmpLt, cmpEq, cmpGt, predicate]

theorem cmpEq_comm (a b : Word) : cmpEq a b = cmpEq b a := by
  rw [cmpEq, cmpEq, BEq.comm]

/-- R217: exactly one of LT, EQ and GT is 1. -/
theorem cmp_trichotomy (a b : Word) :
    (cmpLt a b = 1#32 ∧ cmpEq a b = 0#32 ∧ cmpGt a b = 0#32) ∨ (cmpLt a b = 0#32 ∧ cmpEq a b = 1#32 ∧ cmpGt a b = 0#32) ∨
      (cmpLt a b = 0#32 ∧ cmpEq a b = 0#32 ∧ cmpGt a b = 1#32) := by
  rcases lt_trichotomy a.toInt b.toInt with h | h | h
  · exact .inl (cmp_of_lt h)
  · obtain rfl := BitVec.toInt_inj.mp h
    exact .inr (.inl (cmp_self a))
  · obtain ⟨hgt, heq, hlt⟩ := cmp_of_lt h
    exact .inr (.inr ⟨hlt, cmpEq_comm a b ▸ heq, hgt⟩)

/-- Settles O8: ADD, SUB and MUL inherit the laws of the ring of words. -/
theorem aluLaws : Obligations.AluLaws := by
  refine fun a b c => ⟨?_, ?_, ?_, ?_, ?_, ?_, rfl, ?_, fun q => alu_div_bound_and_sign⟩
  · rw [alu_add, alu_add, BitVec.add_comm]
  · rw [alu_mul, alu_mul, BitVec.mul_comm]
  · intro ab bc hab hbc
    rw [alu_add] at hab hbc
    rw [alu_add, alu_add, ← Except.ok.inj hab, ← Except.ok.inj hbc, BitVec.add_assoc]
  · intro ab bc hab hbc
    rw [alu_mul] at hab hbc
    rw [alu_mul, alu_mul, ← Except.ok.inj hab, ← Except.ok.inj hbc, BitVec.mul_assoc]
  · rw [alu_sub, alu_add, wrap_neg, wrap_toInt, BitVec.sub_eq_add_neg]
  · rintro _ _ ⟨⟩ ⟨⟩
    exact cmpEq_eq_one_sub_cmpNe a b
  · simpa only [alu, Except.ok.injEq] using cmp_trichotomy a b

end Sys2Proof.Machine

/-! EX of an instruction that works on registers (R166, R331, R332), and register arithmetic (R230 to R233). -/

namespace Sys2Proof.Machine

/-! ## EX of an instruction -/

section ex

variable {i : Instr} {s : State} {slot : DeSlot} (hs : s.turn.stage = .ex) (hd : s.pcb.de = some slot)

include hs hd

/-- In EX with its slot an instruction performs its action there, and the slot goes on or is raised (R162). -/
theorem exec_of_ex {r : ExResult} (hex : (actionsOf i).ex s = r) : exec i s = .next (endEx slot (.instr i) r) := by
  rw [exec_eq_perform i (by simp [hs]), perform_ex _ _ hs, hd, ← hex]

/-- An action that writes one register changes nothing else but the passage of the slot (R166). -/
theorem exec_ex_of_setReg {rd : RegIdx} {v : Word} (hex : (actionsOf i).ex s = .done none none (s.setReg rd v)) :
    ∃ t, exec i s = .next t ∧ t.reg rd = v ∧ registerFrame rd s t ∧ passedEx slot i none none s t := by
  refine ⟨_, exec_of_ex hs hd hex, State.reg_setReg_self s rd v,
    ⟨fun r hr => State.reg_setReg_ne s rd r v hr, ?outside, ?fetch, fun _ => rfl, rfl, rfl, rfl, rfl⟩, rfl, rfl, rfl, rfl⟩
  case outside => exact ⟨rfl, rfl, rfl, rfl, rfl, rfl, rfl, rfl, rfl, rfl, rfl, rfl, rfl, rfl⟩
  case fetch => exact ⟨rfl, rfl, rfl, rfl, rfl⟩

/-- An action that raises at the state it found leaves the fault's record and takes the slot out of `DE` (R331, R332). -/
theorem exec_ex_of_raised {f : Fault} (hex : (actionsOf i).ex s = .raised f s) :
    ∃ t, exec i s = .next t ∧ faultedWith f s t ∧ sameFetch s t ∧
      t.pcb.de = none ∧ t.pcb.em = s.pcb.em ∧ t.pcb.mw = s.pcb.mw := by
  refine ⟨_, exec_of_ex hs hd hex, ?faulted, ⟨rfl, rfl, rfl, rfl, rfl⟩, rfl, rfl, rfl⟩
  case faulted => exact ⟨rfl, rfl, rfl, rfl, fun _ => rfl, fun _ => rfl, rfl, rfl, rfl, rfl, rfl, rfl, rfl, rfl⟩

end ex

/-! ## ADD, SUB, MUL and DIV -/

/-- Settles O11: each writes the ALU's result, which cannot be a fault. -/
theorem registerArithmeticWritesResult : Obligations.RegisterArithmeticWritesResult :=
  fun rd rs rt sh => ⟨decode_add rs rt rd sh, decode_sub rs rt rd sh, decode_mul rs rt rd sh, fun _ _ hs hd =>
    ⟨exec_ex_of_setReg hs hd rfl, exec_ex_of_setReg hs hd rfl, exec_ex_of_setReg hs hd rfl⟩⟩

/-- DIV in EX hands on what the ALU answers (R233). -/
theorem div_ex (rd : RegIdx) {rs rt : RegIdx} {s : State} {r : Except Fault Word}
    (hr : alu .div (s.reg rs) (s.reg rt) = r) : (actionsOf (.div rd rs rt)).ex s = writeResult rd r s :=
  congrArg (writeResult rd · s) hr

/-- R214: the signed division of words is 0x80000000 on the wrapping pair and the exact quotient off it. -/
theorem sdiv_wraps_or_exact (a b : Word) :
    if a = 0x80000000#32 ∧ b = 0xFFFFFFFF#32 then a.sdiv b = 0x80000000#32
    else (a.sdiv b).toInt = a.toInt.tdiv b.toInt := by
  split
  · next hwrap =>
    obtain ⟨rfl, rfl⟩ := hwrap
    decide
  · next hwrap => exact sdiv_toInt hwrap

/-- Settles O12: a divisor that is not zero gives the signed division of words, a zero divisor the ALU's fault. -/
theorem divWritesQuotientOrFaults : Obligations.DivWritesQuotientOrFaults := by
  refine fun rd rs rt sh => ⟨decode_div rs rt rd sh, fun s slot hs hd => ⟨fun hb => ?_, fun hb => ?_⟩⟩
  · obtain ⟨t, hexec, hrd, hframe, hpassed⟩ := exec_ex_of_setReg hs hd (div_ex rd (alu_div_of_ne_zero _ hb))
    refine ⟨t, hexec, ?_, hframe, hpassed⟩
    rw [hrd]
    exact sdiv_wraps_or_exact (s.reg rs) (s.reg rt)
  · have hzero : alu .div (s.reg rs) (s.reg rt) = .error (.divideByZero (s.reg rs)) := by rw [hb, alu_div_zero]
    exact exec_ex_of_raised hs hd (div_ex rd hzero)

end Sys2Proof.Machine

/-! Arithmetic with an immediate and the immediate loads (R250 to R254). -/

namespace Sys2Proof.Machine

/-- R216: LT answers 1 or 0 by the signed comparison. -/
theorem alu_lt (a b : Word) : alu .lt a b = .ok (if a.toInt < b.toInt then 1#32 else 0#32) := by
  simp only [alu, cmpLt, predicate, decide_eq_true_eq]

/-- SLTI in EX writes 1 or 0 by the signed comparison (R252). -/
theorem slti_ex (rt rs : RegIdx) (imm : Word) (s : State) :
    (actionsOf (.slti rt rs imm)).ex s =
      .done none none (s.setReg rt (if (s.reg rs).toInt < imm.toInt then 1#32 else 0#32)) :=
  congrArg (writeResult rt · s) (alu_lt (s.reg rs) imm)

/-- Settles O13: the sums and the comparison are the ALU's answers, which cannot be faults. -/
theorem immediateArithmeticWritesResult : Obligations.ImmediateArithmeticWritesResult :=
  fun rt rs => ⟨fun imm16 => ⟨decode_addi rs rt imm16, decode_addiu rs rt imm16, decode_slti rs rt imm16⟩,
    fun s _ imm hs hd =>
      ⟨exec_ex_of_setReg hs hd rfl, exec_ex_of_setReg hs hd rfl, exec_ex_of_setReg hs hd (slti_ex rt rs imm s)⟩⟩

/-- R253: LUI takes back the 16 bits that the decoder extended. -/
theorem upperImmediate_signExtend (imm16 : BitVec 16) :
    upperImmediate (imm16.signExtend 32) = (imm16 ++ 0#16 : Word) := by
  have hlow : (imm16.signExtend 32).extractLsb' 0 16 = imm16 := by
    ext k hk
    simp [BitVec.getElem_signExtend, hk, hk.trans]
  rw [upperImmediate, hlow]

/-- LUI in EX writes the 16 bits of its word over a zero low half (R253). -/
theorem lui_ex (rt : RegIdx) (imm16 : BitVec 16) (s : State) :
    (actionsOf (.lui rt (imm16.signExtend 32))).ex s = .done none none (s.setReg rt (imm16 ++ 0#16 : Word)) :=
  congrArg (fun v => ExResult.done none none (s.setReg rt v)) (upperImmediate_signExtend imm16)

/-- Settles O14: neither reads a register or asks the ALU. -/
theorem loadImmediatesWriteResult : Obligations.LoadImmediatesWriteResult :=
  fun rt rs imm16 => ⟨decode_lui rs rt imm16, decode_li rs rt imm16, fun s _ hs hd =>
    ⟨exec_ex_of_setReg hs hd (lui_ex rt imm16 s), exec_ex_of_setReg hs hd rfl⟩⟩

end Sys2Proof.Machine

/-! Control transfer (R270 to R276): the redirect, and the branches and J in EX. -/

namespace Sys2Proof.Machine

/-! ## The branches' comparisons -/

/-- The word of a comparison is 1 exactly when it holds (R216). -/
theorem predicate_eq_one_iff (b : Bool) : predicate b = 1#32 ↔ b = true := by cases b <;> decide

theorem cmpEq_eq_one_iff (a b : Word) : cmpEq a b = 1#32 ↔ a = b := (predicate_eq_one_iff _).trans beq_iff_eq

theorem cmpNe_eq_one_iff (a b : Word) : cmpNe a b = 1#32 ↔ a ≠ b := (predicate_eq_one_iff _).trans bne_iff_ne

theorem cmpLt_eq_one_iff (a b : Word) : cmpLt a b = 1#32 ↔ a.toInt < b.toInt :=
  (predicate_eq_one_iff _).trans decide_eq_true_iff

theorem cmpGt_eq_one_iff (a b : Word) : cmpGt a b = 1#32 ↔ a.toInt > b.toInt :=
  (predicate_eq_one_iff _).trans decide_eq_true_iff

/-! ## The redirect -/

/-- A redirect in range: the one MemRead at the target is all that touches the hierarchy and the counters, and `MW` stays (R171,
R172). -/
theorem redirect_redirectedTo {s : State} {target v : Word} (hi : s.HierInv) (hw : s.wordAt (s.phys target) = some v) :
    ∃ t, redirect target s = .done none none t ∧ redirectedTo target s t ∧ t.pcb.mw = s.pcb.mw := by
  obtain ⟨u, hread, hredirect⟩ := redirect_in_range hw
  have hmem := (State.memRead_hier (s := s.redirected target) hi hread).2.1
  obtain ⟨hreads, hwrites⟩ := State.memRead_counts hread
  obtain ⟨hcycles, hinstr⟩ := State.memRead_sequencer_counters hread
  have hby := State.memRead_congr (s := s) hread rfl rfl rfl rfl rfl rfl
  obtain ⟨g, k, rfl⟩ := onlyAccessed_exists (State.memRead_frame hread)
  exact ⟨_, hredirect, ⟨rfl, rfl, rfl, rfl, hw, fun _ => rfl,
    ⟨rfl, rfl, rfl, rfl, rfl, rfl, rfl, rfl, rfl, rfl, rfl, rfl, rfl, rfl⟩, hmem, rfl, rfl,
    hreads, hwrites, hinstr, hcycles, hby⟩, rfl⟩

/-! ## EX of a branch and of J -/

section ex

variable {i : Instr} {s : State} {slot : DeSlot} (hs : s.turn.stage = .ex) (hd : s.pcb.de = some slot)

include hs hd

/-- An action that leaves the state as it found it changes nothing but the passage of the slot, with the fields it hands on. -/
theorem exec_ex_of_unchanged {ea sdata : Option Word} (hex : (actionsOf i).ex s = .done ea sdata s) :
    ∃ t, exec i s = .next t ∧ quietFrame s t ∧ passedEx slot i ea sdata s t :=
  ⟨_, exec_of_ex hs hd hex,
    ⟨fun _ => rfl, ⟨rfl, rfl, rfl, rfl, rfl, rfl, rfl, rfl, rfl, rfl, rfl, rfl, rfl, rfl⟩, ⟨rfl, rfl, rfl, rfl, rfl⟩,
      fun _ => rfl, rfl, rfl, rfl, rfl⟩, rfl, rfl, rfl, rfl⟩

/-- An action that redirects transfers: with the slot's passage in range, with the fault out of range (R171, R172, R331). -/
theorem exec_ex_of_redirect {target : Word} (hi : s.HierInv) (hex : (actionsOf i).ex s = redirect target s) :
    ∃ t, exec i s = .next t ∧ transferred slot i target s t := by
  cases hw : s.wordAt (s.phys target) with
  | some v =>
    obtain ⟨t, hredirect, hto, hmw⟩ := redirect_redirectedTo hi hw
    refine ⟨_, exec_of_ex hs hd (hex.trans hredirect), ?_⟩
    rw [transferred, if_pos (by simp [hw])]
    exact ⟨hto, rfl, rfl, hmw, rfl⟩
  | none =>
    refine ⟨_, exec_of_ex hs hd (hex.trans (redirect_out_of_range hw)), ?_⟩
    rw [transferred, if_neg (by simp [hw])]
    exact ⟨⟨rfl, rfl, rfl, rfl, fun _ => rfl, fun _ => rfl, rfl, rfl, rfl, rfl, rfl, rfl, rfl, rfl⟩,
      rfl, rfl, rfl, rfl, rfl, rfl, rfl, rfl⟩

/-- A branch transfers when its comparison `p` holds and else only passes its slot on (R174, R271 to R274). -/
theorem exec_ex_of_branchOn {result target : Word} {p : Prop} [Decidable p] (hi : s.HierInv) (hp : result = 1#32 ↔ p)
    (hex : (actionsOf i).ex s = branchOn result target s) :
    ∃ t, exec i s = .next t ∧
      if p then transferred slot i target s t else quietFrame s t ∧ passedEx slot i none none s t := by
  by_cases h : p
  · simp only [if_pos h]
    exact exec_ex_of_redirect hs hd hi (hex.trans (if_pos (hp.mpr h)))
  · simp only [if_neg h]
    exact exec_ex_of_unchanged hs hd (hex.trans (if_neg (mt hp.mp h)))

end ex

/-- Settles O15: each branch is the redirect on its own comparison. -/
theorem branchesTransferWhenTaken : Obligations.BranchesTransferWhenTaken :=
  fun rs rt => ⟨fun imm16 => ⟨decode_beq rs rt imm16, decode_bne rs rt imm16, decode_blt rs rt imm16, decode_bgt rs rt imm16⟩,
    fun _ _ _ hi hs hd =>
      ⟨exec_ex_of_branchOn hs hd hi (cmpEq_eq_one_iff _ _) rfl, exec_ex_of_branchOn hs hd hi (cmpNe_eq_one_iff _ _) rfl,
        exec_ex_of_branchOn hs hd hi (cmpLt_eq_one_iff _ _) rfl, exec_ex_of_branchOn hs hd hi (cmpGt_eq_one_iff _ _) rfl⟩⟩

/-- Settles O16: J is the redirect itself. -/
theorem jumpTransfers : Obligations.JumpTransfers :=
  ⟨decode_j, fun _ _ _ hi hs hd => exec_ex_of_redirect hs hd hi rfl⟩

end Sys2Proof.Machine

/-! LW and SW (R290 to R292): an access and its fault in MEM, the register of a load in WB. -/

namespace Sys2Proof.Machine

/-! ## The access of MEM -/

/-- LW's access reads the word at its relocated address (R291). -/
theorem loadWord_in_range {s u : State} {slot : EmSlot} {ea v : Word} (he : slot.ea = some ea)
    (hr : s.memRead (s.phys ea) = some (v, u)) : loadWord slot s = .done (some v) u := by
  simp only [loadWord, he, hr]

/-- LW's access out of range raises at the state it found (R291, R333). -/
theorem loadWord_out_of_range {s : State} {slot : EmSlot} {ea : Word} (he : slot.ea = some ea)
    (hw : s.wordAt (s.phys ea) = none) : loadWord slot s = .raised (.memoryOutOfRange (s.phys ea)) s := by
  simp only [loadWord, he, (State.memRead_eq_none_iff s _).mpr hw]

/-- SW's access writes its store data at its relocated address (R292). -/
theorem storeWord_in_range {s u : State} {slot : EmSlot} {ea v : Word} (he : slot.ea = some ea) (hv : slot.sdata = some v)
    (hw : s.memWrite (s.phys ea) v = some u) : storeWord slot s = .done none u := by
  simp only [storeWord, he, hv, hw]

/-- SW's access out of range raises at the state it found (R292, R333). -/
theorem storeWord_out_of_range {s : State} {slot : EmSlot} {ea v : Word} (he : slot.ea = some ea) (hv : slot.sdata = some v)
    (hw : s.wordAt (s.phys ea) = none) : storeWord slot s = .raised (.memoryOutOfRange (s.phys ea)) s := by
  simp only [storeWord, he, hv, (State.memWrite_eq_none_iff s _ v).mpr hw]

/-! ## MEM of an instruction -/

section mem

variable {i : Instr} {s : State} {slot : EmSlot} (hs : s.turn.stage = .mem) (hd : s.pcb.em = some slot)

include hs hd

/-- In MEM with its slot an instruction performs its action there, and the slot goes on or is raised (R162). -/
theorem exec_of_mem {r : MemResult} (hmem : (actionsOf i).mem slot s = r) :
    exec i s = .next (endMem slot (.instr i) r) := by
  rw [exec_eq_perform i (by simp [hs]), perform_mem _ _ hs, hd, ← hmem]

/-- An action that raises at the state it found leaves the fault's record and takes the slot out of `EM` (R331, R333). -/
theorem exec_mem_of_raised {f : Fault} (hmem : (actionsOf i).mem slot s = .raised f s) :
    ∃ t, exec i s = .next t ∧ faultedWith f s t ∧ sameFetch s t ∧
      t.pcb.de = s.pcb.de ∧ t.pcb.em = none ∧ t.pcb.mw = s.pcb.mw := by
  refine ⟨_, exec_of_mem hs hd hmem, ?faulted, ⟨rfl, rfl, rfl, rfl, rfl⟩, rfl, rfl, rfl⟩
  case faulted => exact ⟨rfl, rfl, rfl, rfl, fun _ => rfl, fun _ => rfl, rfl, rfl, rfl, rfl, rfl, rfl, rfl, rfl⟩

/-- An action that makes one access changes the hierarchy and the memory counters as the access does, and nothing else but the
passage of the slot. -/
theorem exec_mem_of_accessed {ldata : Option Word} {u : State} (hmem : (actionsOf i).mem slot s = .done ldata u)
    (hframe : onlyAccessed s u) (hcycles : u.pcb.counters.pipelineCycles = s.pcb.counters.pipelineCycles)
    (hinstr : u.pcb.counters.instructions = s.pcb.counters.instructions) :
    ∃ t, exec i s = .next t ∧ accessFrame s t ∧ sameMemory u t ∧ t.hier = u.hier ∧ t.pcb.counters = u.pcb.counters ∧
      passedMem slot i ldata s t := by
  obtain ⟨g, k, rfl⟩ := onlyAccessed_exists hframe
  exact ⟨_, exec_of_mem hs hd hmem, ⟨fun _ => rfl,
    ⟨rfl, rfl, rfl, rfl, rfl, rfl, rfl, rfl, rfl, rfl, rfl, rfl, rfl, rfl⟩, ⟨rfl, rfl, rfl, rfl, rfl⟩, rfl, rfl,
    hinstr, hcycles⟩, fun _ => rfl, rfl, rfl, rfl, rfl, rfl, rfl⟩

/-- MEM of an instruction whose action is LW's, its address in range: the one MemRead, which changes no word (R80, R291). -/
theorem exec_mem_of_loadWord {ea v : Word} (hmem : (actionsOf i).mem = loadWord) (hi : s.HierInv) (he : slot.ea = some ea)
    (hw : s.wordAt (s.phys ea) = some v) :
    ∃ t, exec i s = .next t ∧ accessFrame s t ∧ sameMemory s t ∧
      t.pcb.counters.memReads = s.pcb.counters.memReads + 1 ∧ t.pcb.counters.memWrites = s.pcb.counters.memWrites ∧
      readsBy (s.phys ea) v s t ∧ passedMem slot i (some v) s t := by
  obtain ⟨u, hread⟩ := State.memRead_of_wordAt hw
  obtain ⟨-, hwords, -⟩ := State.memRead_hier hi hread
  obtain ⟨hreads, hwrites⟩ := State.memRead_counts hread
  obtain ⟨hcycles, hinstr⟩ := State.memRead_sequencer_counters hread
  obtain ⟨t, hexec, hframe, hmemory, hhier, hcounters, hpassed⟩ :=
    exec_mem_of_accessed hs hd ((congrFun (congrFun hmem slot) s).trans (loadWord_in_range he hread))
      (State.memRead_frame hread) hcycles hinstr
  exact ⟨t, hexec, hframe, fun a => (hmemory a).trans (hwords a), hcounters ▸ hreads, hcounters ▸ hwrites,
    ⟨u, hread, hhier, hcounters⟩, hpassed⟩

/-- MEM of SW with its address in range: the one MemWrite, which changes the word there and no other (R84, R292). -/
theorem exec_mem_sw {ea v : Word} (rt rs : RegIdx) (imm : Word) (hi : s.HierInv) (he : slot.ea = some ea)
    (hv : slot.sdata = some v) (hw : s.wordAt (s.phys ea) ≠ none) :
    ∃ t, exec (.sw rt rs imm) s = .next t ∧ accessFrame s t ∧
      (∀ a : Word, t.wordAt a = if a = s.phys ea then some v else s.wordAt a) ∧
      t.pcb.counters.memWrites = s.pcb.counters.memWrites + 1 ∧ writesBy (s.phys ea) v s t ∧
      passedMem slot (.sw rt rs imm) none s t := by
  obtain ⟨u, hwrite⟩ := State.memWrite_of_wordAt v hw
  obtain ⟨-, hwords⟩ := State.memWrite_hier hi hwrite
  obtain ⟨hwrites, hcycles, hinstr⟩ := State.memWrite_counts hwrite
  obtain ⟨t, hexec, hframe, hmemory, hhier, hcounters, hpassed⟩ :=
    exec_mem_of_accessed (i := .sw rt rs imm) hs hd (storeWord_in_range he hv hwrite) (State.memWrite_frame hwrite) hcycles hinstr
  exact ⟨t, hexec, hframe, fun a => (hmemory a).trans (hwords a), hcounters ▸ hwrites, ⟨u, hwrite, hhier, hcounters⟩, hpassed⟩

end mem

/-! ## WB of LW -/

/-- WB of LW writes the word its slot carries to its register and no other, and retires the slot (R164, R291). -/
theorem exec_wb_lw {s : State} {slot : MwSlot} {v : Word} (rt rs : RegIdx) (imm : Word) (hs : s.turn.stage = .wb)
    (hd : s.pcb.mw = some slot) (hv : slot.ldata = some v) :
    ∃ t, exec (.lw rt rs imm) s = .next t ∧ t.reg rt = v ∧ (∀ r, r ≠ rt → t.reg r = s.reg r) ∧ sameOutside s t ∧
      sameFetch s t ∧ sameMemory s t ∧ t.hier = s.hier ∧ t.queue = s.queue ∧
      t.turn.blockPending = s.turn.blockPending ∧ passedWb s t := by
  obtain ⟨t, hexec, hregs, hretired⟩ := writeBackRetiresEverySlot (.instr (.lw rt rs imm)) s slot hs hd
  simp only [hv] at hregs
  exact ⟨t, hexec, (hregs rt).trans (if_pos rfl), fun r hr => (hregs r).trans (if_neg hr), hretired⟩

/-- Settles O17: EX only hands the address on, MEM is the MemRead or its fault, WB the register of the load. -/
theorem loadWordStages : Obligations.LoadWordStages :=
  fun rt rs imm => ⟨decode_lw rs rt, fun _ _ hs hd => exec_ex_of_unchanged hs hd rfl,
    fun _ _ _ _ hi hs hd he hw => exec_mem_of_loadWord hs hd rfl hi he hw,
    fun _ _ _ hs hd he hw => exec_mem_of_raised hs hd (loadWord_out_of_range he hw),
    fun _ _ _ hs hd hv => exec_wb_lw rt rs imm hs hd hv⟩

/-- Settles O18: EX only hands address and data on, MEM is the MemWrite or its fault, WB the retirement of every slot. -/
theorem storeWordStages : Obligations.StoreWordStages :=
  fun rt rs imm => ⟨decode_sw rs rt, fun _ _ hs hd => exec_ex_of_unchanged hs hd rfl,
    fun _ _ _ _ hi hs hd he hv hw => exec_mem_sw hs hd rt rs imm hi he hv hw,
    fun _ _ _ _ hs hd he hv hw => exec_mem_of_raised hs hd (storeWord_out_of_range he hv hw),
    writeBackRetiresEverySlot (.instr (.sw rt rs imm))⟩

end Sys2Proof.Machine

/-! Output requests, the end of program and the empty tag (R310 to R315): the request of a print, the drain that END starts, and a slot
that only passes. -/

namespace Sys2Proof.Machine

/-! ## The output request -/

/-- R313: RaiseOutput appends the request, marks the turn when output blocks, and does nothing else. -/
theorem requested_raiseOutput (v : Word) (s : State) : requested v s (s.raiseOutput v) := by
  rw [State.raiseOutput_eq]
  exact ⟨rfl, rfl, fun _ => rfl, ⟨rfl, rfl, rfl, rfl, rfl, rfl, rfl, rfl, rfl, rfl, rfl, rfl, rfl, rfl⟩,
    ⟨rfl, rfl, rfl, rfl, rfl⟩, fun _ => rfl, rfl, rfl⟩

/-- EX of PRINT_REG raises the request of its register and passes the slot on (R310). -/
theorem exec_ex_printReg {s : State} {slot : DeSlot} (rt : RegIdx) (hs : s.turn.stage = .ex) (hd : s.pcb.de = some slot) :
    ∃ t, exec (.printReg rt) s = .next t ∧ requested (s.reg rt) s t ∧ passedEx slot (.printReg rt) none none s t :=
  ⟨_, exec_of_ex (r := .done none none (s.raiseOutput (s.reg rt))) hs hd rfl, requested_raiseOutput (s.reg rt) s,
    rfl, rfl, by simp, rfl⟩

/-- In the second half of MEM with its slot an instruction performs its action there, and EX comes next (log 1). -/
theorem exec_of_memEmit {i : Instr} {s t : State} {slot : MwSlot} (hs : s.turn.stage = .memEmit) (hd : s.pcb.mw = some slot)
    (hemit : (actionsOf i).memEmit slot s = t) : exec i s = .next (t.toStage .ex) := by
  rw [exec_eq_perform i (by simp [hs]), perform_memEmit _ _ hs, hd, ← hemit]

/-- PRINT_MEM raises the request of the word it read and empties the slot's field (R311, log 1). -/
theorem emitLoaded_of_ldata {s : State} {slot : MwSlot} {v : Word} (hv : slot.ldata = some v) :
    emitLoaded slot s = (s.raiseOutput v).onPcb (fun p => { p with mw := some { slot with ldata := none } }) := by
  simp only [emitLoaded, hv]

/-- The second half of MEM of PRINT_MEM: the request of the word read, and the slot stays without it (R311, log 1). -/
theorem exec_memEmit_printMem {s : State} {slot : MwSlot} {v : Word} (rs : RegIdx) (imm : Word)
    (hs : s.turn.stage = .memEmit) (hd : s.pcb.mw = some slot) (hv : slot.ldata = some v) :
    ∃ t, exec (.printMem rs imm) s = .next t ∧ requested v s t ∧ t.pcb.de = s.pcb.de ∧ t.pcb.em = s.pcb.em ∧
      t.pcb.mw = some { slot with ldata := none } ∧ t.turn.stage = .ex :=
  ⟨_, exec_of_memEmit hs hd (emitLoaded_of_ldata hv), requested_raiseOutput v s, by simp, by simp, rfl, rfl⟩

/-- Settles O19: EX is RaiseOutput, MEM and WB those of every slot that accesses no memory and loads no register. -/
theorem printRegEmits : Obligations.PrintRegEmits :=
  fun rt => ⟨fun rs imm16 => decode_printReg rs rt imm16, fun _ _ hs hd => exec_ex_printReg rt hs hd,
    fun s slot => othersDoNothingInMem.1 (.printReg rt) s slot rfl,
    writeBackRetiresEverySlot (.instr (.printReg rt))⟩

/-- Settles O20: EX and the access of MEM are those of LW, the second half of MEM is RaiseOutput, WB the retirement of every slot. -/
theorem printMemStages : Obligations.PrintMemStages :=
  fun rs imm => ⟨decode_printMem rs, fun _ _ hs hd => exec_ex_of_unchanged hs hd rfl,
    fun _ _ _ _ hi hs hd he hw => exec_mem_of_loadWord hs hd rfl hi he hw,
    fun _ _ _ hs hd he hw => exec_mem_of_raised hs hd (loadWord_out_of_range he hw),
    fun _ _ _ hs hd hv => exec_memEmit_printMem rs imm hs hd hv,
    writeBackRetiresEverySlot (.instr (.printMem rs imm))⟩

/-! ## The queue -/

/-- From `s` to `t` the request of the print that performs its part of the cycle in `s` is appended: PRINT_REG's in EX, PRINT_MEM's
in the second half of MEM (R310, R311, log 1). -/
def AppendsPrint (s t : State) : Prop :=
  ∃ v, t.queue = s.queue ++ [{ pid := s.pcb.pid, value := v }] ∧
    ((s.turn.stage = .ex ∧ ∃ slot rt, s.pcb.de = some slot ∧ slot.d = .instr (.printReg rt) ∧ v = s.reg rt) ∨
      (s.turn.stage = .memEmit ∧ ∃ slot rs imm, s.pcb.mw = some slot ∧ slot.d = .instr (.printMem rs imm) ∧
        slot.ldata = some v))

/-- Of the moves of a running turn only the two prints touch the queue (R312). -/
theorem CoreMove.queue {s t : State} (h : CoreMove s t) : t.queue = s.queue ∨ AppendsPrint s t := by
  cases h
  case printed slot rt hs hd hi =>
    exact .inr ⟨s.reg rt, State.raiseOutput_queue (s.reg rt) s, .inl ⟨hs, slot, rt, hd, hi, rfl⟩⟩
  case emitted slot rs imm v hs hd hi hv =>
    exact .inr ⟨v, State.raiseOutput_queue v s, .inr ⟨hs, slot, rs, imm, hd, hi, hv⟩⟩
  all_goals exact .inl rfl

/-- Settles O59: a move of a running turn touches the queue as a print alone, and no other step of the core touches it. -/
theorem onlyPrintsAppendRequests : Obligations.OnlyPrintsAppendRequests := by
  intro s t ha h
  rcases step_cases ha h with ⟨-, hm⟩ | ⟨-, -, rfl⟩ | ⟨-, rfl⟩
  · exact hm.queue
  · exact .inl rfl
  · exact .inl rfl

/-! ## END -/

/-- Settles O21. -/
theorem endStartsTheDrain : Obligations.EndStartsTheDrain :=
  ⟨decode_sentinel, fun _ hs => ⟨_, exec_end_fetch hs, rfl, rfl, rfl, rfl, rfl, rfl, rfl, rfl, fun _ => rfl,
    ⟨rfl, rfl, rfl, rfl, rfl, rfl, rfl, rfl, rfl, rfl, rfl, rfl, rfl, rfl⟩, fun _ => rfl, rfl, rfl, rfl, rfl, rfl⟩⟩

/-! ## NOP -/

/-- The passage of a slot alone through EX leaves everything else as it was (R162). -/
theorem quietFrame_endEx_done (slot : DeSlot) (d : Decoded) (ea sdata : Option Word) (s : State) :
    quietFrame s (endEx slot d (.done ea sdata s)) :=
  ⟨fun _ => rfl, ⟨rfl, rfl, rfl, rfl, rfl, rfl, rfl, rfl, rfl, rfl, rfl, rfl, rfl, rfl⟩, ⟨rfl, rfl, rfl, rfl, rfl⟩,
    fun _ => rfl, rfl, rfl, rfl, rfl⟩

/-- The passage of a slot alone through MEM leaves everything else as it was (R162). -/
theorem quietFrame_endMem_done (slot : EmSlot) (d : Decoded) (ldata : Option Word) (s : State) :
    quietFrame s (endMem slot d (.done ldata s)) :=
  ⟨fun _ => rfl, ⟨rfl, rfl, rfl, rfl, rfl, rfl, rfl, rfl, rfl, rfl, rfl, rfl, rfl, rfl⟩, ⟨rfl, rfl, rfl, rfl, rfl⟩,
    fun _ => rfl, rfl, rfl, rfl, rfl⟩

theorem execNop_ex {s : State} {slot : DeSlot} (hs : s.turn.stage = .ex) (hd : s.pcb.de = some slot) :
    execNop s = .next (endEx slot .nop (.done none none s)) := by
  rw [execNop, perform_ex _ _ hs, hd]

theorem execNop_mem {s : State} {slot : EmSlot} (hs : s.turn.stage = .mem) (hd : s.pcb.em = some slot) :
    execNop s = .next (endMem slot .nop (.done none s)) := by
  rw [execNop, perform_mem _ _ hs, hd]

theorem execNop_memEmit {s : State} {slot : MwSlot} (hs : s.turn.stage = .memEmit) (hd : s.pcb.mw = some slot) :
    execNop s = .next (s.toStage .ex) := by
  rw [execNop, perform_memEmit _ _ hs, hd]

/-- Settles O22: the empty tag has no action in any stage, and its slot retires like every other. -/
theorem nopOnlyPasses : Obligations.NopOnlyPasses :=
  ⟨fun _ _ hs hd => ⟨_, execNop_ex hs hd, quietFrame_endEx_done _ _ _ _ _, rfl, rfl, rfl, rfl⟩,
    fun _ _ hs hd => ⟨_, execNop_mem hs hd, quietFrame_endMem_done _ _ _ _, rfl, rfl, rfl, rfl⟩,
    fun _ _ hs hd => execNop_memEmit hs hd,
    writeBackRetiresEverySlot .nop⟩

end Sys2Proof.Machine

/-! The counters (R80, R84, R344, R345): the laws that every process's counters obey, whatever the step. -/

namespace Sys2Proof.Machine

/-- A new process has counted nothing (R51). -/
theorem Pcb.countersLawful_created (pid : Nat) (base : Word) (quantum wCache wPrimary wSecondary : Nat) :
    (Pcb.created pid base quantum wCache wPrimary wSecondary).countersLawful :=
  ⟨rfl, rfl, rfl, rfl⟩

/-- A move with an access counts as that access does (R80, R84); any other leaves every counter the laws name, and the weights. -/
theorem CoreMove.countersLawful {s t : State} (h : CoreMove s t) (hs : s.pcb.countersLawful) : t.pcb.countersLawful := by
  cases h
  case loaded hg => exact hg.2 hs
  case stored hg => exact hg.2 hs
  case redirected hg => exact hg.2 hs
  case fetchedEnd hg => exact hg.2 hs
  case fetched hg => exact hg.2 hs
  case emitted => simpa using hs
  case printed => simpa using hs
  all_goals exact hs

/-- Settles O50: the core's accesses keep the laws, new processes meet them, and no other step touches a counter that they name. -/
theorem stepKeepsCounterLaws : Obligations.StepKeepsCounterLaws := by
  intro s t hs h
  exact step_everyPcb (P := Pcb.countersLawful) (fun _ _ hp => hp) Pcb.countersLawful_created CoreMove.countersLawful h hs

end Sys2Proof.Machine

/-! The numbers of the cores (R349) and the ids of the processes (R351): a step moves cores and PCBs about, and only a launch brings a
new id. -/

namespace Sys2Proof.Machine

open scoped List

/-! ## Two things changing places -/

/-- What a list holds at `k` may change places with one from outside. -/
theorem perm_cons_set {α : Type} {l : List α} {k : Nat} {x : α} (h : l[k]? = some x) (a : α) :
    (x :: l.set k a).Perm (a :: l) := by
  obtain ⟨hk, rfl⟩ := List.getElem?_eq_some_iff.mp h
  calc l[k] :: l.set k a
    _ ~ l[k] :: a :: l.eraseIdx k := (List.set_perm_cons_eraseIdx hk a).cons _
    _ ~ a :: l[k] :: l.eraseIdx k := .swap _ _ _
    _ ~ a :: l := (List.getElem_cons_eraseIdx_perm hk).cons a

/-! ## The numbers of the cores -/

theorem AgentMove.coreIds_perm {s t : State} (h : AgentMove s t) : t.coreIds.Perm s.coreIds := by
  cases h with
  | switched k c hc => exact (perm_cons_set hc s.core).map (·.id)
  | unblocked pid => simp [State.coreIds, State.unblock, Function.comp_def]
  | handed => exact .refl _
  | taken => exact .refl _
  | emptied => exact .refl _
  | polluted => exact .refl _
  | wrote => exact .refl _
  | launched => exact .refl _
  | took => exact .refl _

theorem coreStep_coreIds {s t : State} (h : coreStep s = .next t) : t.coreIds = s.coreIds := by
  have hk := coreStep_keepsContext h
  simp only [State.coreIds, hk.coreId, hk.others]

/-- The cores are numbered alike in whatever order they stand (R349). -/
theorem State.CoresInv.of_perm {s t : State} (hs : s.CoresInv) (h : t.coreIds.Perm s.coreIds) : t.CoresInv := by
  obtain ⟨hnodup, hbound⟩ := hs
  refine ⟨h.nodup_iff.mpr hnodup, fun i hi => ?_⟩
  rw [h.length_eq]
  exact hbound i (h.mem_iff.mp hi)

/-! ## The process a core owns -/

theorem CoreCtx.pids_of_idle {c : CoreCtx} (h : c.turn.outcome = some .idle) : c.pids = [] := if_pos h

theorem CoreCtx.pids_of_owner {c : CoreCtx} (h : c.turn.outcome ≠ some .idle) : c.pids = [c.pcb.pid] := if_neg h

@[simp] theorem CoreCtx.pids_unblock (pid : Nat) (c : CoreCtx) :
    CoreCtx.pids { c with pcb := c.pcb.unblock pid } = c.pids := by
  simp [CoreCtx.pids]

/-- A core that owns no PCB does nothing (R348, R349). -/
theorem coreStep_of_idle {s : State} (h : s.turn.outcome = some .idle) : coreStep s = .next s := by
  unfold coreStep
  rw [h]

/-- No move of a running turn takes its PCB from the core (R175). -/
theorem CoreMove.owner {s t : State} (h : CoreMove s t) (ho : s.turn.outcome ≠ some .idle) :
    t.turn.outcome ≠ some .idle := by
  rcases h.turn with ⟨o, ht, hi, -⟩ | hg
  · simpa [ht] using hi
  · rwa [hg.outcome]

/-- The core keeps the process it owns, and gets none by itself (R175, R349). -/
theorem coreStep_core_pids {s t : State} (h : coreStep s = .next t) : t.core.pids = s.core.pids := by
  by_cases hi : s.turn.outcome = some .idle
  · rw [coreStep_of_idle hi] at h
    cases h
    rfl
  · have ht : t.turn.outcome ≠ some .idle := by
      rcases coreStep_cases h with ⟨-, hm⟩ | ⟨-, -, rfl⟩ | ⟨-, rfl⟩
      · exact hm.owner hi
      · simp [State.startTurn, Turn.fresh]
      · exact hi
    rw [CoreCtx.pids_of_owner (c := t.core) ht, CoreCtx.pids_of_owner (c := s.core) hi]
    exact congrArg ([·]) (coreStep_keepsContext h).pid

/-! ## The ids of all processes -/

theorem coreStep_pids {s t : State} (h : coreStep s = .next t) : t.pids = s.pids := by
  have hk := coreStep_keepsContext h
  simp only [State.pids, coreStep_core_pids h, hk.others, hk.parked]

/-- Where the other cores stay, only the active core's process and the parked ones count. -/
theorem State.pids_perm_of_others {s t : State} (ho : t.others = s.others)
    (h : (t.core.pids ++ t.parked.map (·.pid)).Perm (s.core.pids ++ s.parked.map (·.pid))) : t.pids.Perm s.pids := by
  have othersFirst (u : State) : u.pids.Perm (u.others.flatMap CoreCtx.pids ++ (u.core.pids ++ u.parked.map (·.pid))) := by
    rw [← List.append_assoc]
    exact List.perm_append_comm.append_right _
  calc t.pids
    _ ~ t.others.flatMap CoreCtx.pids ++ (t.core.pids ++ t.parked.map (·.pid)) := othersFirst t
    _ ~ s.others.flatMap CoreCtx.pids ++ (s.core.pids ++ s.parked.map (·.pid)) := by rw [ho]; exact h.append_left _
    _ ~ s.pids := (othersFirst s).symm

/-- The PCB handed out leaves its place to the one the core still held, if it held one (R175, log 9). -/
theorem State.pids_parkedAfterHand {s : State} {k : Nat} {p : Pcb} (hp : s.parked[k]? = some p) :
    (p.pid :: (s.parkedAfterHand k).map (·.pid)).Perm (s.core.pids ++ s.parked.map (·.pid)) := by
  unfold State.parkedAfterHand
  split
  · next hi =>
    obtain ⟨hk, rfl⟩ := List.getElem?_eq_some_iff.mp hp
    rw [CoreCtx.pids_of_idle (c := s.core) hi]
    exact (List.getElem_cons_eraseIdx_perm hk).map (·.pid)
  · next hi =>
    rw [CoreCtx.pids_of_owner (c := s.core) hi]
    simpa using (perm_cons_set hp s.pcb.givenBack).map (·.pid)

/-- The agents move the processes about; the one they create has an id that was not in use (R351, log 25). -/
theorem AgentMove.pids {s t : State} (h : AgentMove s t) :
    t.pids.Perm s.pids ∨ ∃ pid, pid ∉ s.pids ∧ t.pids = s.pids ++ [pid] := by
  cases h with
  | switched k c hc => exact .inl (((perm_cons_set hc s.core).flatMap_right CoreCtx.pids).append_right _)
  | handed k p _ hp _ => exact .inl (State.pids_perm_of_others rfl (State.pids_parkedAfterHand (p := p) hp))
  | taken _ hi =>
    refine .inl (State.pids_perm_of_others rfl ?_)
    rw [CoreCtx.pids_of_owner (c := s.core) hi]
    simp [CoreCtx.pids]
  | launched pid _ _ _ _ _ _ hp => exact .inr ⟨pid, hp, by simp [State.pids, State.core, Pcb.created]⟩
  | unblocked pid =>
    have hcore : (s.unblock pid).core.pids = s.core.pids := CoreCtx.pids_unblock pid s.core
    refine .inl (.of_eq ?_)
    rw [State.pids, hcore]
    simp [State.pids, State.unblock, Function.comp_def, List.flatMap_map]
  | emptied => exact .inl (.refl _)
  | polluted => exact .inl (.refl _)
  | wrote => exact .inl (.refl _)
  | took => exact .inl (.refl _)

theorem AgentMove.pids_nodup {s t : State} (h : AgentMove s t) (hs : s.pids.Nodup) : t.pids.Nodup := by
  rcases h.pids with hperm | ⟨pid, hnew, heq⟩
  · exact hperm.nodup_iff.mpr hs
  · rw [heq]
    exact hs.append (List.nodup_singleton pid) (List.disjoint_singleton.mpr hnew)

/-- Settles O60: the core's own step leaves numbers and ids as they stand; the agents reorder them, and add only an id not in use. -/
theorem stepKeepsProcessAndCoreIdsDistinct : Obligations.StepKeepsProcessAndCoreIdsDistinct := by
  intro s t h
  obtain ⟨rest, hc | ha⟩ := step_moves h
  · have hpids := coreStep_pids hc
    have hcores := coreStep_coreIds hc
    exact ⟨fun hs => hpids ▸ hs, fun hs => hs.of_perm (.of_eq hcores)⟩
  · exact ⟨ha.pids_nodup, fun hs => hs.of_perm ha.coreIds_perm⟩

end Sys2Proof.Machine

/-! The hazards of a load (R364, R365, R366): what the record one and two behind an LW reads in EX, and which of two writes of one
register stands last. -/

namespace Sys2Proof.Machine

/-- A run goes on from the state that its first steps reach. -/
theorem run_add {s m : State} (j k : Nat) (h : Host.Core.run Sys2Proof.core j s = .next m) :
    Host.Core.run Sys2Proof.core (j + k) s = Host.Core.run Sys2Proof.core k m := by
  induction j generalizing s with
  | zero =>
    cases h
    rw [Nat.zero_add]
  | succ j ih =>
    rw [Nat.succ_add]
    cases hstep : Sys2Proof.core.step s with
    | next u => exact (run_succ (j + k) hstep).trans (ih ((run_succ j hstep).symm.trans h))
    | fault f => simp [Host.Core.run, hstep] at h
    | refused f => simp [Host.Core.run, hstep] at h

/-! ## EX of any record -/

section executed

variable (slot : DeSlot) (d : Decoded) {s : State}

/-- An ALU result that is no fault is in its register after EX (R166). -/
theorem endEx_writeResult_reg {rd : RegIdx} {r : Except Fault Word} {v : Word} (hr : r = .ok v) :
    (endEx slot d (writeResult rd r s)).reg rd = v := by
  subst hr
  exact State.reg_setReg_self s rd v

/-- A redirect leaves its target in `pc`, in range or not (R171, R172). -/
theorem endEx_redirect_pc (target : Word) (s : State) : (endEx slot d (redirect target s)).pcb.pc = target := by
  cases hw : s.wordAt (s.phys target) with
  | none => rw [redirect_out_of_range hw]; rfl
  | some v =>
    obtain ⟨u, hread, hredirect⟩ := redirect_in_range hw
    obtain ⟨g, k, rfl⟩ := onlyAccessed_exists (State.memRead_frame hread)
    rw [hredirect]
    rfl

/-- A branch leaves its target in `pc` when its comparison `p` holds, and else `pc` as it was (R171, R174). -/
theorem endEx_branchOn_pc {result target : Word} {p : Prop} [Decidable p] (hp : result = 1#32 ↔ p) :
    (endEx slot d (branchOn result target s)).pcb.pc = if p then target else s.pcb.pc := by
  by_cases h : p
  · rw [branchOn, if_pos (hp.mpr h), if_pos h, endEx_redirect_pc]
  · rw [branchOn, if_neg (mt hp.mp h), if_neg h]
    rfl

/-- DIV leaves the fault's record for a zero divisor, and else the ALU's quotient in its register (R233, R332). -/
theorem endEx_div (rd rs rt : RegIdx) (s : State) :
    let t := endEx slot d ((actionsOf (.div rd rs rt)).ex s)
    if s.reg rt = 0#32 then t.pcb.status = .faulted (.divideByZero (s.reg rs))
    else alu .div (s.reg rs) (s.reg rt) = .ok (t.reg rd) := by
  intro t
  split
  · next hb =>
    have hzero : alu .div (s.reg rs) (s.reg rt) = .error (.divideByZero (s.reg rs)) := by rw [hb, alu_div_zero]
    show (endEx slot d _).pcb.status = _
    rw [div_ex rd hzero]
    rfl
  · next hb =>
    have hq := alu_div_of_ne_zero (s.reg rs) hb
    exact hq.trans (congrArg _ (endEx_writeResult_reg slot d hq).symm)

end executed

/-- EX of any record reads its sources from the registers as they are (R166). -/
theorem executedWith_endEx (slot : DeSlot) (s : State) :
    executedWith s.reg slot s (endEx slot slot.d ((actionsOfDecoded slot.d).ex s)) := by
  obtain ⟨ipc, d⟩ := slot
  cases d with
  | nop => exact quietFrame_endEx_done _ _ _ _ s
  | instr i =>
    cases i with
    | add => exact endEx_writeResult_reg _ _ (alu_add _ _)
    | sub => exact endEx_writeResult_reg _ _ (alu_sub _ _)
    | mul => exact endEx_writeResult_reg _ _ (alu_mul _ _)
    | div rd rs rt => exact endEx_div _ _ rd rs rt s
    | addi => exact endEx_writeResult_reg _ _ (alu_add _ _)
    | addiu => exact endEx_writeResult_reg _ _ (alu_add _ _)
    | slti => exact endEx_writeResult_reg _ _ (alu_lt _ _)
    | lui rt imm => exact State.reg_setReg_self s rt (upperImmediate imm)
    | li rt imm => exact State.reg_setReg_self s rt imm
    | beq => exact endEx_branchOn_pc _ _ (cmpEq_eq_one_iff _ _)
    | bne => exact endEx_branchOn_pc _ _ (cmpNe_eq_one_iff _ _)
    | blt => exact endEx_branchOn_pc _ _ (cmpLt_eq_one_iff _ _)
    | bgt => exact endEx_branchOn_pc _ _ (cmpGt_eq_one_iff _ _)
    | j target => exact endEx_redirect_pc _ _ target s
    | lw => rfl
    | sw => rfl
    | printReg rt => exact State.raiseOutput_queue (s.reg rt) s
    | printMem => rfl
    | endOfProgram => exact quietFrame_endEx_done _ _ _ _ s

/-- A branch and J write no general register (R271 to R275). -/
theorem exDestination_of_transfers {d : Decoded} (h : transfers d = true) : exDestination d = none := by
  cases d with
  | nop => cases h
  | instr i => cases i <;> simp_all [transfers, exDestination]

/-- EX of a record that writes a register, a DIV among them with a divisor, writes it and does nothing else (R166). -/
theorem ex_of_exDestination {d : Decoded} {rt : RegIdx} {s : State} (hr : exDestination d = some rt)
    (hdiv : ∀ rd a b, d = .instr (.div rd a b) → s.reg b ≠ 0#32) :
    ∃ v, (actionsOfDecoded d).ex s = .done none none (s.setReg rt v) := by
  rcases ex_cases d s with ⟨_, _, -, hn, -⟩ | ⟨rd, v, hex, hrd⟩ | ⟨a, hex, rd, rs, rt', rfl⟩ | ⟨_, -, ht⟩ | ⟨_, -, rfl⟩
  · simp [hn] at hr
  · obtain rfl : rd = rt := Option.some.inj (hrd.symm.trans hr)
    exact ⟨v, hex⟩
  · obtain rfl : rd = rt := Option.some.inj hr
    exact ⟨_, div_ex rd (alu_div_of_ne_zero _ (hdiv rd rs rt' rfl))⟩
  · simp [exDestination_of_transfers ht] at hr
  · cases hr

/-! ## The parts of the cycle before EX -/

/-- The access of MEM, if the record makes one, is not out of range: MEM changes the hierarchy and the counters at most. -/
theorem mem_of_in_range {slot : EmSlot} {s : State} (h : ∀ ea, slot.ea = some ea → s.wordAt (s.phys ea) ≠ none) :
    ∃ ldata g k, (actionsOfDecoded slot.d).mem slot s = .done ldata (s.accessed g k) := by
  rcases mem_cases slot s with ⟨hmem, -⟩ | ⟨ea, hmem, he, -⟩ | ⟨ea, v, hmem, he, hv, -⟩
  · exact ⟨none, s.hier, s.pcb.counters, hmem⟩
  · rcases s.memRead_cases (s.phys ea) with ⟨-, hw⟩ | ⟨v, g, k, hread, -⟩
    · exact absurd hw (h ea he)
    · exact ⟨some v, g, k, hmem.trans (loadWord_in_range he hread)⟩
  · rcases s.memWrite_cases (s.phys ea) v with ⟨-, hw⟩ | ⟨g, k, hwrite, -⟩
    · exact absurd hw (h ea he)
    · exact ⟨none, g, k, hmem.trans (storeWord_in_range he hv hwrite)⟩

/-- The turn runs with no event due, `g` the part of the cycle that comes next; a record waits in `DE` for its EX, and the registers
read as `x` says. -/
structure WaitsInDe (r : DeSlot) (x : RegIdx → Word) (g : Stage) (s : State) : Prop where
  agenda : s.agenda = []
  outcome : s.turn.outcome = none
  stage : s.turn.stage = g
  de : s.pcb.de = some r
  reg : ∀ j, s.reg j = x j

namespace WaitsInDe

variable {r : DeSlot} {x : RegIdx → Word} {s : State}

/-- MEM that raises nothing leaves the registers and the record in `DE` as they are (R165). -/
theorem step_mem {e : EmSlot} (h : WaitsInDe r x .mem s) (hd : s.pcb.em = some e)
    (hin : ∀ ea, e.ea = some ea → s.wordAt (s.phys ea) ≠ none) : ∃ t, step s = .next t ∧ WaitsInDe r x .memEmit t := by
  obtain ⟨ha, ho, hs, hde, hx⟩ := h
  obtain ⟨ldata, g, k, hmem⟩ := mem_of_in_range hin
  have hstep := step_of_runStage ha ho (runStage_mem_slot hs hd)
  rw [hmem] at hstep
  exact ⟨_, hstep, ha, ho, rfl, hde, hx⟩

/-- The second half of MEM leaves the registers and the record in `DE` as they are (R311, log 1). -/
theorem step_memEmit (h : WaitsInDe r x .memEmit s) : ∃ t, step s = .next t ∧ WaitsInDe r x .ex t := by
  obtain ⟨ha, ho, hs, hde, hx⟩ := h
  cases hd : s.pcb.mw with
  | none => exact ⟨_, step_memEmit_of_empty ha ho hs hd, ha, ho, rfl, hde, hx⟩
  | some slot =>
    refine ⟨_, step_of_runStage ha ho (runStage_memEmit_slot hs hd), ?_⟩
    rcases memEmit_cases slot s with hemit | ⟨v, rs, imm, -, -, hemit⟩
    · rw [hemit]
      exact ⟨ha, ho, rfl, hde, hx⟩
    · rw [hemit, State.raiseOutput_eq]
      exact ⟨ha, ho, rfl, hde, hx⟩

/-- EX of the record reads its sources from the registers as they are (R166). -/
theorem step_ex (h : WaitsInDe r x .ex s) : ∃ t, step s = .next t ∧ executedWith x r s t :=
  ⟨_, step_of_runStage h.agenda h.outcome (runStage_ex_slot h.stage h.de), funext h.reg ▸ executedWith_endEx r s⟩

end WaitsInDe

/-- MEM of an LW in range, both halves: EX comes next, on the registers and the words of memory that MEM found, and the word read
is in `MW` (R165, R291). -/
theorem run_mem_of_lw {s : State} {l : EmSlot} {rt rs : RegIdx} {imm ea v : Word} (hi : s.HierInv) (ha : s.agenda = [])
    (ho : s.turn.outcome = none) (hs : s.turn.stage = .mem) (hd : s.pcb.em = some l) (hl : l.d = .instr (.lw rt rs imm))
    (he : l.ea = some ea) (hw : s.wordAt (s.phys ea) = some v) :
    ∃ m, Host.Core.run Sys2Proof.core 2 s = .next m ∧ m.turn.stage = .ex ∧ m.HierInv ∧ accessFrame s m ∧ sameMemory s m ∧
      m.pcb.mw = some { ipc := l.ipc, d := l.d, ldata := some v } ∧ m.pcb.de = s.pcb.de := by
  obtain ⟨u, hexec, hframe, hmem, -, -, -, -, hmw, hde, hs'⟩ := exec_mem_of_loadWord (i := .lw rt rs imm) hs hd rfl hi he hw
  have hread : step s = .next u := ((step_performs_record ha ho _).2.1 hs l hd hl).trans hexec
  have hemit : step u = .next (u.toStage .ex) := by
    obtain ⟨-, ⟨-, -, -, -, ha', -, ho', -⟩, -⟩ := hframe
    exact ((step_performs_record (ha'.trans ha) (ho'.trans ho) _).2.2.1 hs' _ hmw rfl).trans
      (othersDoNothingInMem.2 (.lw rt rs imm) u _ (by simp) hs' hmw)
  exact ⟨u.toStage .ex, (run_succ 1 hread).trans (run_succ 0 hemit), rfl, stepKeepsHierarchy s u hi hread, hframe, hmem,
    hl ▸ hmw, hde⟩

/-- Settles O40: MEM, whichever record's, and its second half leave the registers as they are, WB of the LW before them writes its
register, and EX reads what it finds. -/
theorem loadUseHazard : Obligations.LoadUseHazard := by
  refine ⟨?behindMem, ?behindWb⟩
  case behindMem =>
    intro s l r rt rs imm ea v hi ha ho hs hem hl he hw hde
    obtain ⟨m, hrun, hs', -, ⟨hregs, ⟨-, -, -, -, ha', -, ho', -⟩, -⟩, -, hmw, hde'⟩ := run_mem_of_lw hi ha ho hs hem hl he hw
    have hwaits : WaitsInDe r s.reg .ex m := ⟨ha'.trans ha, ho'.trans ho, hs', hde'.trans hde, hregs⟩
    obtain ⟨t, hex, hexecuted⟩ := hwaits.step_ex
    exact ⟨m, t, hrun, (run_add 2 1 hrun).trans (run_succ 0 hex), hmw, hexecuted⟩
  case behindWb =>
    intro s l e r rt rs imm v ha ho hs hmw hl hv hem hin hde
    obtain ⟨u, hexec, hrt, hothers, ⟨-, -, -, -, ha', -, ho', -, hbase, -⟩, -, hmem, -, -, -, -, hde', hem', hs', -⟩ :=
      exec_wb_lw rt rs imm hs hmw hv
    have hwb : step s = .next u := ((step_performs_record ha ho _).2.2.2 hs l hmw hl).trans hexec
    have hin' : ∀ ea, e.ea = some ea → u.wordAt (u.phys ea) ≠ none := fun ea he => by
      rw [State.phys_congr hbase, hmem]
      exact hin ea he
    have hregs : ∀ j, u.reg j = if j = rt then v else s.reg j := fun j => by
      split
      · next hj => rw [hj, hrt]
      · next hj => exact hothers j hj
    have hwaits : WaitsInDe r (fun j => if j = rt then v else s.reg j) .mem u :=
      ⟨ha'.trans ha, ho'.trans ho, hs', hde'.trans hde, hregs⟩
    obtain ⟨u', hstep, hwaits'⟩ := hwaits.step_mem (hem'.trans hem) hin'
    obtain ⟨m, hemit, hwaits''⟩ := hwaits'.step_memEmit
    obtain ⟨t, hex, hexecuted⟩ := hwaits''.step_ex
    have hrun : Host.Core.run Sys2Proof.core 3 s = .next m :=
      (run_succ 2 hwb).trans ((run_succ 1 hstep).trans (run_succ 0 hemit))
    exact ⟨m, t, hrun, (run_add 3 1 hrun).trans (run_succ 0 hex), hexecuted⟩

/-! ## From EX to the next WB -/

/-- A process with a slot in `MW` has not drained (R170). -/
theorem State.drained_of_mw {s : State} {slot : MwSlot} (h : s.pcb.mw = some slot) : s.drained = false := by
  rw [← Bool.not_eq_true, State.drained_iff, h]
  rintro ⟨-, -, -, -, hmw⟩
  cases hmw

/-- The turn runs with no event due, `g` the part of the cycle that comes next; a slot waits in `MW`, and the end-of-cycle tests find
no pending block and a quantum that is not over. -/
structure WaitsInMw (slot : MwSlot) (g : Stage) (s : State) : Prop where
  agenda : s.agenda = []
  outcome : s.turn.outcome = none
  stage : s.turn.stage = g
  mw : s.pcb.mw = some slot
  blockPending : s.turn.blockPending = false
  cycles : s.turn.cycles < s.pcb.quantum

namespace WaitsInMw

variable {slot : MwSlot} {s : State}

/-- ID leaves the slot in `MW`, and what Fetch is about to read (R167). -/
theorem step_id (h : WaitsInMw slot .id s) :
    ∃ t, step s = .next t ∧ WaitsInMw slot .fetch t ∧ t.pcb.draining = s.pcb.draining ∧
      t.wordAt (t.phys t.pcb.pc) = s.wordAt (s.phys s.pcb.pc) := by
  obtain ⟨ha, ho, hs, hmw, hb, hc⟩ := h
  obtain ⟨hword, hempty⟩ := decodeStageFillsDE s ha ho hs
  cases hfd : s.pcb.fd with
  | none => exact ⟨_, hempty hfd, ⟨ha, ho, rfl, hmw, hb, hc⟩, rfl, rfl⟩
  | some f => exact ⟨_, hword f hfd, ⟨ha, ho, rfl, hmw, hb, hc⟩, rfl, rfl⟩

/-- A Fetch that is not due, or is in range, leaves the slot in `MW` (R168). -/
theorem step_fetch (h : WaitsInMw slot .fetch s) (hi : s.HierInv)
    (hfetch : s.pcb.draining = true ∨ s.wordAt (s.phys s.pcb.pc) ≠ none) :
    ∃ t, step s = .next t ∧ WaitsInMw slot .check t := by
  obtain ⟨ha, ho, hs, hmw, hb, hc⟩ := h
  obtain ⟨hdrains, hreads, -⟩ := fetchReadsTheNextWord s hi ha ho hs
  cases hd : s.pcb.draining with
  | true => exact ⟨_, hdrains hd, ha, ho, rfl, hmw, hb, hc⟩
  | false =>
    obtain ⟨w, hw⟩ := Option.ne_none_iff_exists'.mp (hfetch.resolve_left (by simp [hd]))
    obtain ⟨t, hstep, -, -, -, -, -, hmw', -, hout, -, -, hb', -, -, hs'⟩ := hreads w hd hw
    obtain ⟨-, -, -, -, ha', hcycles, ho', -, -, hquantum, -⟩ := hout
    exact ⟨t, hstep, ha'.trans ha, ho'.trans ho, hs', hmw'.trans hmw, hb'.trans hb, by omega⟩

/-- The end-of-cycle tests and the start of the next cycle leave the slot to its WB (R177, R178). -/
theorem run_check_start (h : WaitsInMw slot .check s) :
    Host.Core.run Sys2Proof.core 2 s = .next (s.toStage .start).counted := by
  obtain ⟨ha, ho, hs, hmw, hb, hc⟩ := h
  have hd : s.drained = false := State.drained_of_mw hmw
  have hcheck : step s = .next (s.toStage .start) := by
    rw [step_of_running ha ho, runStage_check hs, endCycle_goes_on (by simp [hb]) (by omega) (by simp [hd])]
  have hstart : step (s.toStage .start) = .next (s.toStage .start).counted :=
    (cycleStartCountsOrFinishes (s.toStage .start) ha ho rfl).2 hd
  exact (run_succ 1 hcheck).trans (run_succ 0 hstart)

/-- From ID an LW in `MW` retires in the next cycle's WB with its word in its register, if the Fetch between raises nothing (R164). -/
theorem run_commits_load {rt rs : RegIdx} {imm v : Word} (h : WaitsInMw slot .id s) (hl : slot.d = .instr (.lw rt rs imm))
    (hv : slot.ldata = some v) (hi : s.HierInv) (hfetch : s.pcb.draining = true ∨ s.wordAt (s.phys s.pcb.pc) ≠ none) :
    ∃ t, Host.Core.run Sys2Proof.core 5 s = .next t ∧ t.reg rt = v := by
  obtain ⟨s₁, hid, h₁, hdrain, hword⟩ := h.step_id
  obtain ⟨s₂, hread, h₂⟩ := h₁.step_fetch (stepKeepsHierarchy s s₁ hi hid) (by rw [hdrain, hword]; exact hfetch)
  obtain ⟨t, hexec, hrt, -⟩ := exec_wb_lw (s := (s₂.toStage .start).counted) rt rs imm rfl h₂.mw hv
  have hwb : step (s₂.toStage .start).counted = .next t :=
    ((step_performs_record (s := (s₂.toStage .start).counted) h₂.agenda h₂.outcome _).2.2.2 rfl slot h₂.mw hl).trans hexec
  refine ⟨t, ?_, hrt⟩
  calc Host.Core.run Sys2Proof.core 5 s
    _ = Host.Core.run Sys2Proof.core 4 s₁ := run_succ 4 hid
    _ = Host.Core.run Sys2Proof.core 3 s₂ := run_succ 3 hread
    _ = Host.Core.run Sys2Proof.core 1 (s₂.toStage .start).counted := run_add 2 1 h₂.run_check_start
    _ = .next t := run_succ 0 hwb

end WaitsInMw

/-- Settles O41: EX of the record behind writes the register while the LW waits in `MW`, and nothing but that LW's WB follows. -/
theorem loadWriteAfterWriteHazard : Obligations.LoadWriteAfterWriteHazard := by
  intro s l r rt rs imm ea v hi ha ho hs hem hl he hw hde hr hdiv hfetch hb hc
  refine ⟨?before, ?after⟩
  case before =>
    obtain ⟨m, t, hrun, hrun', -, hexecuted⟩ := loadUseHazard.1 s l r rt rs imm ea v hi ha ho hs hem hl he hw hde
    exact ⟨m, t, hrun, hrun', hexecuted⟩
  case after =>
    obtain ⟨m, hrun, hs', hi', ⟨hregs, hout, ⟨hpc, -, -, -, hdrain⟩, -, hb', -⟩, hmem, hmw, hde'⟩ :=
      run_mem_of_lw hi ha ho hs hem hl he hw
    obtain ⟨-, -, -, -, ha', hcycles, ho', -, hbase, hquantum, -⟩ := hout
    obtain ⟨w, hex⟩ := ex_of_exDestination (s := m) hr (fun rd a b hd => by rw [hregs]; exact hdiv rd a b hd)
    have hwrote : step m = .next (endEx r r.d (.done none none (m.setReg rt w))) :=
      step_of_runStage (ha'.trans ha) (ho'.trans ho) ((runStage_ex_slot hs' (hde'.trans hde)).trans (by rw [hex]))
    have hwaits : WaitsInMw { ipc := l.ipc, d := l.d, ldata := some v } .id (endEx r r.d (.done none none (m.setReg rt w))) :=
      ⟨ha'.trans ha, ho'.trans ho, rfl, hmw, hb'.trans hb, by show m.turn.cycles < m.pcb.quantum; omega⟩
    have hfetch' : m.pcb.draining = true ∨ m.wordAt (m.phys m.pcb.pc) ≠ none := by
      rw [hdrain, hpc, State.phys_congr hbase, hmem]
      exact hfetch
    obtain ⟨t, hrest, hrt⟩ := hwaits.run_commits_load hl rfl hi' hfetch'
    exact ⟨t, (run_add 2 6 hrun).trans ((run_succ 5 hwrote).trans hrest), hrt⟩

end Sys2Proof.Machine

/-! The reset state as the launch state of its process (R51, R361). -/

namespace Sys2Proof.Machine

/-- Settles O54: a created process has the values of R51, and its first turn begins fresh. -/
theorem resetIsTheLaunchState : Obligations.ResetIsTheLaunchState :=
  ⟨Pcb.created_reg 0 0#32 1000000 1 5 10, rfl, rfl, rfl, rfl, rfl, rfl, rfl, rfl, rfl, rfl, rfl⟩

end Sys2Proof.Machine
